-- ==== Sys2Proof/Word.lean ====
section
/-! DEFINITION. The word types of the machine and the three operand sizes (R8 of 00_scope.md, R52 of 20_memory.md). -/

namespace Sys2Proof

/-- A byte of memory, the smallest addressable unit (R50). -/
abbrev Byte := BitVec 8

/-- A 16-bit word: an operation word, an extension word, the status register. -/
abbrev Word := BitVec 16

/-- A 32-bit long: a register, an address, a long operand. -/
abbrev Long := BitVec 32

/-- A byte address. All address arithmetic is modulo 2^32 (R7). -/
abbrev Addr := BitVec 32

/-- The operand sizes B, W and L (R8). -/
inductive Size
  | byte
  | word
  | long
  deriving DecidableEq, Repr

/-- Width of an operand in bits (R8). -/
def Size.bits : Size → Nat
  | .byte => 8
  | .word => 16
  | .long => 32

/-- Width of an operand in bytes (R8, R52). -/
def Size.bytes : Size → Nat
  | .byte => 1
  | .word => 2
  | .long => 4

/-- `mask(sz) = 2^bits(sz) - 1` (R8). -/
def Size.mask : Size → Long
  | .byte => 0x000000FF#32
  | .word => 0x0000FFFF#32
  | .long => 0xFFFFFFFF#32

/-- `msb(sz) = bits(sz) - 1` (R8). -/
def Size.msb : Size → Nat
  | .byte => 7
  | .word => 15
  | .long => 31

end Sys2Proof
end

