-- ==== Sys2Proof/Config.lean ====
section
/-! DEFINITION. The free values: what the spec leaves open after an event the machine goes on from
(93_implementation_defined.md Part 1, treatment "any value"). Each is an opaque constant applied to the counter
`State.draws`, so nothing can be proved about the value drawn, and a claim is true whatever it is. Log 7. -/

namespace Sys2Proof

/-- The byte that a Device or Nothing address answers a read with (R54, R66, U13). Log 8. -/
opaque Config.freeByte : Nat → Byte

/-- A 16-bit value the spec leaves unspecified: bits 15:5 of the first word of a long frame, the saved
operation word of a fetch fault (R222, U9), the flags after an external reset (R270). Log 11, log 17. -/
opaque Config.freeWord : Nat → Word

/-- A choice between two alternatives the spec allows (U5, U6, U7, U8, U10). Logs 9, 10, 13, 14, 15. -/
opaque Config.freeFlag : Nat → Bool

/-- A choice among finitely many alternatives, used modulo their number: the saved program counter of a long
frame (R222, U9), the order of the words of a frame (U8). Logs 10, 11. -/
opaque Config.freePick : Nat → Nat

end Sys2Proof
end

