-- ==== Sys2Proof/Syntax.lean ====
section
/-! DEFINITION. The syntax of the 33 machine instructions of spec/opcode_table.json (R4 of 00_scope.md) and of their
operands. Extension words are already read into the operands. -/

namespace Sys2Proof

/-- The brief extension word of the two indexed modes (R84): which register is the index, whether all 32 bits of it
or its sign-extended low word is used, and the signed displacement. Bits 10:8 are ignored by the processor. -/
structure IndexWord where
  /-- bit 15: the index is `A[reg]` (true) or `D[reg]` (false) -/
  isAddr : Bool
  /-- bits 14:12 -/
  reg : Fin 8
  /-- bit 11: the whole register (true) or its sign-extended low word (false) -/
  isLong : Bool
  /-- bits 7:0 -/
  disp : Byte
  deriving DecidableEq, Repr

/-- An effective address with its extension words (R82). Address Register Direct is the twelfth mode of the source
and a legal operand of no form (R122), so it has no constructor. -/
inductive Ea
  /-- `Dn` (R121) -/
  | dreg (n : Fin 8)
  /-- `(An)` (R123) -/
  | ind (n : Fin 8)
  /-- `(An)+` (R124) -/
  | postinc (n : Fin 8)
  /-- `-(An)` (R125) -/
  | predec (n : Fin 8)
  /-- `d16(An)` (R126) -/
  | disp (n : Fin 8) (d : Word)
  /-- `d8(An,Ri)` (R127) -/
  | index (n : Fin 8) (x : IndexWord)
  /-- Absolute Short (R128) -/
  | absShort (w : Word)
  /-- Absolute Long (R129) -/
  | absLong (a : Long)
  /-- `d16(PC)` (R130) -/
  | pcDisp (d : Word)
  /-- `d8(PC,Ri)` (R131) -/
  | pcIndex (x : IndexWord)
  /-- `#<data>` as the source of AND and OR `<ea>,Dn` (R132) -/
  | imm (v : Long)
  deriving DecidableEq, Repr

/-- The three two-operand operations (R138). -/
inductive LogicOp
  | or
  | and
  | eor
  deriving DecidableEq, Repr

/-- The instructions, one constructor for each row of spec/opcode_table.json, in the table's order. `ToReg` is the
direction `<ea>,Dn` and `ToEa` the direction `Dn,<ea>`. -/
inductive Instr
  | oriCcr (data : Byte)
  | oriSr (data : Word)
  | oriB (data : Byte) (ea : Ea)
  | oriW (data : Word) (ea : Ea)
  | oriL (data : Long) (ea : Ea)
  | andiCcr (data : Byte)
  | andiSr (data : Word)
  | andiB (data : Byte) (ea : Ea)
  | andiW (data : Word) (ea : Ea)
  | andiL (data : Long) (ea : Ea)
  | eoriCcr (data : Byte)
  | eoriSr (data : Word)
  | eoriB (data : Byte) (ea : Ea)
  | eoriW (data : Word) (ea : Ea)
  | eoriL (data : Long) (ea : Ea)
  | notB (ea : Ea)
  | notW (ea : Ea)
  | notL (ea : Ea)
  | orBToReg (dn : Fin 8) (ea : Ea)
  | orWToReg (dn : Fin 8) (ea : Ea)
  | orLToReg (dn : Fin 8) (ea : Ea)
  | orBToEa (dn : Fin 8) (ea : Ea)
  | orWToEa (dn : Fin 8) (ea : Ea)
  | orLToEa (dn : Fin 8) (ea : Ea)
  | andBToReg (dn : Fin 8) (ea : Ea)
  | andWToReg (dn : Fin 8) (ea : Ea)
  | andLToReg (dn : Fin 8) (ea : Ea)
  | andBToEa (dn : Fin 8) (ea : Ea)
  | andWToEa (dn : Fin 8) (ea : Ea)
  | andLToEa (dn : Fin 8) (ea : Ea)
  | eorBToEa (dn : Fin 8) (ea : Ea)
  | eorWToEa (dn : Fin 8) (ea : Ea)
  | eorLToEa (dn : Fin 8) (ea : Ea)
  deriving DecidableEq, Repr

/-- The six ways the instructions are built (formats IC, I, U and RE, R86 to R89), with the operation and the size
as data: what encoding, length and well-formedness are functions of. -/
inductive Shape
  /-- `#<data>,CCR` (R87) -/
  | toCcr (o : LogicOp) (data : Byte)
  /-- `#<data>,SR` (R87) -/
  | toSr (o : LogicOp) (data : Word)
  /-- `#<data>,<ea>` (R86); `data` is zero above the size -/
  | immToEa (o : LogicOp) (sz : Size) (data : Long) (ea : Ea)
  /-- NOT `<ea>` (R88) -/
  | notEa (sz : Size) (ea : Ea)
  /-- `<ea>,Dn` (R89) -/
  | eaToReg (o : LogicOp) (sz : Size) (dn : Fin 8) (ea : Ea)
  /-- `Dn,<ea>` (R89) -/
  | regToEa (o : LogicOp) (sz : Size) (dn : Fin 8) (ea : Ea)
  deriving DecidableEq, Repr

/-- The shape of each instruction. -/
def Instr.shape : Instr → Shape
  | .oriCcr data => .toCcr .or data
  | .oriSr data => .toSr .or data
  | .oriB data ea => .immToEa .or .byte (data.setWidth 32) ea
  | .oriW data ea => .immToEa .or .word (data.setWidth 32) ea
  | .oriL data ea => .immToEa .or .long data ea
  | .andiCcr data => .toCcr .and data
  | .andiSr data => .toSr .and data
  | .andiB data ea => .immToEa .and .byte (data.setWidth 32) ea
  | .andiW data ea => .immToEa .and .word (data.setWidth 32) ea
  | .andiL data ea => .immToEa .and .long data ea
  | .eoriCcr data => .toCcr .eor data
  | .eoriSr data => .toSr .eor data
  | .eoriB data ea => .immToEa .eor .byte (data.setWidth 32) ea
  | .eoriW data ea => .immToEa .eor .word (data.setWidth 32) ea
  | .eoriL data ea => .immToEa .eor .long data ea
  | .notB ea => .notEa .byte ea
  | .notW ea => .notEa .word ea
  | .notL ea => .notEa .long ea
  | .orBToReg dn ea => .eaToReg .or .byte dn ea
  | .orWToReg dn ea => .eaToReg .or .word dn ea
  | .orLToReg dn ea => .eaToReg .or .long dn ea
  | .orBToEa dn ea => .regToEa .or .byte dn ea
  | .orWToEa dn ea => .regToEa .or .word dn ea
  | .orLToEa dn ea => .regToEa .or .long dn ea
  | .andBToReg dn ea => .eaToReg .and .byte dn ea
  | .andWToReg dn ea => .eaToReg .and .word dn ea
  | .andLToReg dn ea => .eaToReg .and .long dn ea
  | .andBToEa dn ea => .regToEa .and .byte dn ea
  | .andWToEa dn ea => .regToEa .and .word dn ea
  | .andLToEa dn ea => .regToEa .and .long dn ea
  | .eorBToEa dn ea => .regToEa .eor .byte dn ea
  | .eorWToEa dn ea => .regToEa .eor .word dn ea
  | .eorLToEa dn ea => .regToEa .eor .long dn ea

end Sys2Proof
end

