-- ==== Sys2Proof/WellFormed.lean ====
section
/-! DEFINITION. Which terms of Instr are instructions: the operand is in the category its position takes (R120 of
40_operands.md) and an immediate operand fits the size (R132). Decoding gives only such terms. -/

namespace Sys2Proof

/-- Alterable memory modes: the destination of AND and OR `Dn,<ea>` (R120). -/
def Ea.alterableMemory : Ea → Bool
  | .dreg _ => false
  | .ind _ => true
  | .postinc _ => true
  | .predec _ => true
  | .disp _ _ => true
  | .index _ _ => true
  | .absShort _ => true
  | .absLong _ => true
  | .pcDisp _ => false
  | .pcIndex _ => false
  | .imm _ => false

/-- Data alterable modes: the destination of EOR, NOT and the immediate forms (R120). -/
def Ea.dataAlterable : Ea → Bool
  | .dreg _ => true
  | e => e.alterableMemory

/-- Data modes: the source of AND and OR `<ea>,Dn` (R120). Every mode of Ea is one; an immediate must be a value of
the operation's size (R132). -/
def Ea.dataSource (sz : Size) : Ea → Bool
  | .imm v => v &&& sz.mask == v
  | _ => true

/-- The checks of one shape: the operand category, and the data within the size. -/
def Shape.wf : Shape → Bool
  | .toCcr _ _ => true
  | .toSr _ _ => true
  | .immToEa _ sz data ea => data &&& sz.mask == data && ea.dataAlterable
  | .notEa _ ea => ea.dataAlterable
  | .eaToReg o sz _ ea => o != .eor && ea.dataSource sz
  | .regToEa .eor _ _ ea => ea.dataAlterable
  | .regToEa _ _ _ ea => ea.alterableMemory

/-- A well-formed instruction. -/
def Instr.wf (i : Instr) : Bool := i.shape.wf

end Sys2Proof
end

