-- ==== Sys2Proof/Decode.lean ====
section
/-! DEFINITION. From bytes to instructions and back (30_encoding.md): byte order, the effective-address field, the
classification of an operation word (R90), the decoder, and the encoder written from the same tables. -/

namespace Sys2Proof

/-! ### Byte order and bit fields -/

/-- The byte at the lower address of a word: its most significant one (R51). -/
def hiByte (w : Word) : Byte := w.extractLsb' 8 8

/-- The byte at the higher address of a word (R51). -/
def loByte (w : Word) : Byte := w.extractLsb' 0 8

/-- A word from its two bytes, the byte of the lower address first (R51). -/
def wordOfBytes (hi lo : Byte) : Word := hi ++ lo

/-- The word at the lower address of a long: its high word (R51, R81). -/
def hiWord (v : Long) : Word := v.extractLsb' 16 16

/-- The word at the higher address of a long (R51, R81). -/
def loWord (v : Long) : Word := v.extractLsb' 0 16

/-- A long from its two words, the high word first (R51, R81). -/
def longOfWords (hi lo : Word) : Long := hi ++ lo

/-- `sext_16` (R9). -/
def sext16 (w : Word) : Long := w.signExtend 32

/-- `sext_8` (R9). -/
def sext8 (b : Byte) : Long := b.signExtend 32

/-- A three-bit register number (R7). -/
def regNumber (x : Nat) : Fin 8 := ⟨x % 8, Nat.mod_lt x (by decide)⟩

/-! ### The effective-address field -/

/-- The `<ea>` field of an operation word: an addressing mode without its extension words (R82). -/
inductive EaField
  | dreg (n : Fin 8)
  | ind (n : Fin 8)
  | postinc (n : Fin 8)
  | predec (n : Fin 8)
  | disp (n : Fin 8)
  | index (n : Fin 8)
  | absShort
  | absLong
  | pcDisp
  | pcIndex
  | imm
  deriving DecidableEq, Repr

/-- The mode table of R82. `none` for Address Register Direct (mode 001), which no instruction of the spec takes
(R122), and for mode 111 with register 101 to 111, which is no mode (R82). -/
def eaField (mode reg : Nat) : Option EaField :=
  match mode with
  | 0 => some (.dreg (regNumber reg))
  | 2 => some (.ind (regNumber reg))
  | 3 => some (.postinc (regNumber reg))
  | 4 => some (.predec (regNumber reg))
  | 5 => some (.disp (regNumber reg))
  | 6 => some (.index (regNumber reg))
  | 7 =>
    match reg with
    | 0 => some .absShort
    | 1 => some .absLong
    | 2 => some .pcDisp
    | 3 => some .pcIndex
    | 4 => some .imm
    | _ => none
  | _ => none

/-- R120, on the field. -/
def EaField.alterableMemory : EaField → Bool
  | .dreg _ => false
  | .ind _ => true
  | .postinc _ => true
  | .predec _ => true
  | .disp _ => true
  | .index _ => true
  | .absShort => true
  | .absLong => true
  | .pcDisp => false
  | .pcIndex => false
  | .imm => false

/-- R120, on the field. -/
def EaField.dataAlterable : EaField → Bool
  | .dreg _ => true
  | m => m.alterableMemory

/-- How many extension words an immediate of a size takes (R85). -/
def immWords : Size → Nat
  | .byte => 1
  | .word => 1
  | .long => 2

/-- `eaext` of R95, in words. -/
def EaField.words (sz : Size) : EaField → Nat
  | .dreg _ => 0
  | .ind _ => 0
  | .postinc _ => 0
  | .predec _ => 0
  | .disp _ => 1
  | .index _ => 1
  | .absShort => 1
  | .absLong => 2
  | .pcDisp => 1
  | .pcIndex => 1
  | .imm => immWords sz

/-- The brief extension word (R84). Bits 10:8 are ignored (U3). -/
def indexOfWord (w : Word) : IndexWord :=
  { isAddr := w.getLsbD 15
    reg := regNumber (w.toNat / 4096)
    isLong := w.getLsbD 11
    disp := loByte w }

/-- Extension word `k`, zero where the list is too short. -/
def extWord (ws : List Word) (k : Nat) : Word := ws.getD k 0#16

/-- The immediate of a size (R85): the low byte of one word, one word, or two words with the high one first. Bits
15:8 of a byte immediate's word are ignored (U2). -/
def immOfWords (sz : Size) (ws : List Word) : Long :=
  match sz with
  | .byte => (loByte (extWord ws 0)).setWidth 32
  | .word => (extWord ws 0).setWidth 32
  | .long => longOfWords (extWord ws 0) (extWord ws 1)

/-- The operand a field and its extension words stand for (R126 to R132). -/
def eaOfWords (sz : Size) (ws : List Word) : EaField → Ea
  | .dreg n => .dreg n
  | .ind n => .ind n
  | .postinc n => .postinc n
  | .predec n => .predec n
  | .disp n => .disp n (extWord ws 0)
  | .index n => .index n (indexOfWord (extWord ws 0))
  | .absShort => .absShort (extWord ws 0)
  | .absLong => .absLong (longOfWords (extWord ws 0) (extWord ws 1))
  | .pcDisp => .pcDisp (extWord ws 0)
  | .pcIndex => .pcIndex (indexOfWord (extWord ws 0))
  | .imm => .imm (immOfWords sz ws)

/-! ### Operation words -/

/-- What an operation word alone says: the instruction without its extension words. -/
inductive OpForm
  | toCcr (o : LogicOp)
  | toSr (o : LogicOp)
  | immToEa (o : LogicOp) (sz : Size) (m : EaField)
  | notEa (sz : Size) (m : EaField)
  | orToReg (sz : Size) (dn : Fin 8) (m : EaField)
  | andToReg (sz : Size) (dn : Fin 8) (m : EaField)
  | orToEa (sz : Size) (dn : Fin 8) (m : EaField)
  | andToEa (sz : Size) (dn : Fin 8) (m : EaField)
  | eorToEa (sz : Size) (dn : Fin 8) (m : EaField)
  deriving DecidableEq, Repr

/-- The three answers of R90. -/
inductive OpClass
  /-- one of the spec's 33 instructions -/
  | form (f : OpForm)
  /-- an illegal pattern: raises IllegalInstruction (R93) -/
  | illegal
  /-- an instruction of the processor outside the seven mnemonics: refused (R94) -/
  | outOfScope
  deriving DecidableEq, Repr

/-- The size field of formats I, U and RE; 11 is no size (R86, R88, R89). -/
def sizeField (ss : Nat) : Option Size :=
  match ss with
  | 0 => some .byte
  | 1 => some .word
  | 2 => some .long
  | _ => none

/-- The operation field of format I (R86); `none` for the other instructions of line 0000 (R90 item 2). -/
def immOpField (x : Nat) : Option LogicOp :=
  match x with
  | 0 => some .or
  | 1 => some .and
  | 5 => some .eor
  | _ => none

/-- An instruction if the operand field is there and in its category, else an illegal pattern (R90, R93). -/
def classifyEa (m : Option EaField) (ok : EaField → Bool) (f : EaField → OpForm) : OpClass :=
  match m with
  | some m => if ok m then .form (f m) else .illegal
  | none => .illegal

/-- Line 0000 (R90 items 1 and 2). The CCR and SR words are tested before an Immediate destination is rejected
(R87). -/
def classifyImmediate (w : Nat) : OpClass :=
  if w / 256 % 2 = 1 then .outOfScope
  else
    match immOpField (w / 512 % 8) with
    | none => .outOfScope
    | some o =>
      if w % 256 = 0x3C then .form (.toCcr o)
      else if w % 256 = 0x7C then .form (.toSr o)
      else
        match sizeField (w / 64 % 4) with
        | none => .illegal
        | some sz => classifyEa (eaField (w / 8 % 8) (w % 8)) EaField.dataAlterable (.immToEa o sz)

/-- Line 0100 (R90 item 3): NOT is the words 0x4600 to 0x46BF; 0x46C0 and above is MOVE to SR. -/
def classifyNot (w : Nat) : OpClass :=
  if w / 256 % 16 = 6 then
    match sizeField (w / 64 % 4) with
    | none => .outOfScope
    | some sz => classifyEa (eaField (w / 8 % 8) (w % 8)) EaField.dataAlterable (.notEa sz)
  else .outOfScope

/-- The OR patterns of direction `Dn,<ea>` with mode 000 or 001 (R93): SBCD for opmode 100, else unassigned. -/
def classifyOrRegister (sz : Size) : OpClass :=
  match sz with
  | .byte => .outOfScope
  | .word => .illegal
  | .long => .illegal

/-- The AND patterns of direction `Dn,<ea>` with mode 000 or 001 (R93): ABCD for opmode 100, EXG for opmode 101 and
for opmode 110 with mode 001; opmode 110 with mode 000 is unassigned. -/
def classifyAndRegister (sz : Size) (mode : Nat) : OpClass :=
  match sz with
  | .byte => .outOfScope
  | .word => .outOfScope
  | .long => if mode = 0 then .illegal else .outOfScope

/-- Lines 1000 and 1100 (R90 item 4). `regPattern` answers for direction `Dn,<ea>` with mode 000 or 001. -/
def classifyOrAnd (w : Nat) (toReg toEa : Size → Fin 8 → EaField → OpForm) (regPattern : Size → Nat → OpClass) :
    OpClass :=
  match sizeField (w / 64 % 4) with
  | none => .outOfScope
  | some sz =>
    if w / 256 % 2 = 0 then
      classifyEa (eaField (w / 8 % 8) (w % 8)) (fun _ => true) (toReg sz (regNumber (w / 512)))
    else if w / 8 % 8 < 2 then regPattern sz (w / 8 % 8)
    else classifyEa (eaField (w / 8 % 8) (w % 8)) EaField.alterableMemory (toEa sz (regNumber (w / 512)))

/-- Line 1011 (R90 item 5). -/
def classifyEor (w : Nat) : OpClass :=
  match sizeField (w / 64 % 4) with
  | none => .outOfScope
  | some sz =>
    if w / 256 % 2 = 0 then .outOfScope
    else if w / 8 % 8 = 1 then .outOfScope
    else classifyEa (eaField (w / 8 % 8) (w % 8)) EaField.dataAlterable (.eorToEa sz (regNumber (w / 512)))

/-- Decoding of an operation word (R90). -/
def classify (op : Word) : OpClass :=
  match op.toNat / 4096 with
  | 0 => classifyImmediate op.toNat
  | 4 => classifyNot op.toNat
  | 8 => classifyOrAnd op.toNat .orToReg .orToEa (fun sz _ => classifyOrRegister sz)
  | 11 => classifyEor op.toNat
  | 12 => classifyOrAnd op.toNat .andToReg .andToEa classifyAndRegister
  | _ => .outOfScope

/-- The to-SR forms, the only privileged instructions of the spec (R223). -/
def OpForm.privileged : OpForm → Bool
  | .toSr _ => true
  | _ => false

/-- How many extension words follow the operation word (R80, R95): the length depends on it alone. -/
def OpForm.extWords : OpForm → Nat
  | .toCcr _ => 1
  | .toSr _ => 1
  | .immToEa _ sz m => immWords sz + m.words sz
  | .notEa sz m => m.words sz
  | .orToReg sz _ m => m.words sz
  | .andToReg sz _ m => m.words sz
  | .orToEa sz _ m => m.words sz
  | .andToEa sz _ m => m.words sz
  | .eorToEa sz _ m => m.words sz

/-! ### Whole instructions -/

def mkToCcr (o : LogicOp) (data : Byte) : Instr :=
  match o with
  | .or => .oriCcr data
  | .and => .andiCcr data
  | .eor => .eoriCcr data

def mkToSr (o : LogicOp) (data : Word) : Instr :=
  match o with
  | .or => .oriSr data
  | .and => .andiSr data
  | .eor => .eoriSr data

def mkImmToEa (o : LogicOp) (sz : Size) (data : Long) (ea : Ea) : Instr :=
  match o, sz with
  | .or, .byte => .oriB (data.setWidth 8) ea
  | .or, .word => .oriW (data.setWidth 16) ea
  | .or, .long => .oriL data ea
  | .and, .byte => .andiB (data.setWidth 8) ea
  | .and, .word => .andiW (data.setWidth 16) ea
  | .and, .long => .andiL data ea
  | .eor, .byte => .eoriB (data.setWidth 8) ea
  | .eor, .word => .eoriW (data.setWidth 16) ea
  | .eor, .long => .eoriL data ea

def mkNot (sz : Size) (ea : Ea) : Instr :=
  match sz with
  | .byte => .notB ea
  | .word => .notW ea
  | .long => .notL ea

def mkOrToReg (sz : Size) (dn : Fin 8) (ea : Ea) : Instr :=
  match sz with
  | .byte => .orBToReg dn ea
  | .word => .orWToReg dn ea
  | .long => .orLToReg dn ea

def mkAndToReg (sz : Size) (dn : Fin 8) (ea : Ea) : Instr :=
  match sz with
  | .byte => .andBToReg dn ea
  | .word => .andWToReg dn ea
  | .long => .andLToReg dn ea

def mkOrToEa (sz : Size) (dn : Fin 8) (ea : Ea) : Instr :=
  match sz with
  | .byte => .orBToEa dn ea
  | .word => .orWToEa dn ea
  | .long => .orLToEa dn ea

def mkAndToEa (sz : Size) (dn : Fin 8) (ea : Ea) : Instr :=
  match sz with
  | .byte => .andBToEa dn ea
  | .word => .andWToEa dn ea
  | .long => .andLToEa dn ea

def mkEorToEa (sz : Size) (dn : Fin 8) (ea : Ea) : Instr :=
  match sz with
  | .byte => .eorBToEa dn ea
  | .word => .eorWToEa dn ea
  | .long => .eorLToEa dn ea

/-- The instruction that an operation word's form and its extension words stand for (R81: the immediate of ANDI, EORI
and ORI comes first, then the words of the `<ea>`). -/
def OpForm.build (f : OpForm) (ws : List Word) : Instr :=
  match f with
  | .toCcr o => mkToCcr o (loByte (extWord ws 0))
  | .toSr o => mkToSr o (extWord ws 0)
  | .immToEa o sz m => mkImmToEa o sz (immOfWords sz ws) (eaOfWords sz (ws.drop (immWords sz)) m)
  | .notEa sz m => mkNot sz (eaOfWords sz ws m)
  | .orToReg sz dn m => mkOrToReg sz dn (eaOfWords sz ws m)
  | .andToReg sz dn m => mkAndToReg sz dn (eaOfWords sz ws m)
  | .orToEa sz dn m => mkOrToEa sz dn (eaOfWords sz ws m)
  | .andToEa sz dn m => mkAndToEa sz dn (eaOfWords sz ws m)
  | .eorToEa sz dn m => mkEorToEa sz dn (eaOfWords sz ws m)

/-- Why a list of words is no instruction of the spec. -/
inductive DecodeError
  /-- the operation word is an illegal pattern (R93) -/
  | illegal
  /-- the operation word belongs to another instruction of the processor (R94) -/
  | outOfScope
  /-- the list ends before the instruction does -/
  | truncated
  deriving DecidableEq, Repr

/-- The instruction at the head of a list of words, and the words after it. Total on every list. -/
def decodeWords (ws : List Word) : Except DecodeError (Instr × List Word) :=
  match ws with
  | [] => .error .truncated
  | op :: rest =>
    match classify op with
    | .illegal => .error .illegal
    | .outOfScope => .error .outOfScope
    | .form f =>
      if rest.length < f.extWords then .error .truncated
      else .ok (f.build (rest.take f.extWords), rest.drop f.extWords)

/-- The words a list of bytes holds, each big-endian (R51); an odd last byte is dropped. -/
def wordsOfBytes : List Byte → List Word
  | hi :: lo :: rest => wordOfBytes hi lo :: wordsOfBytes rest
  | _ => []

/-- The bytes of a list of words, at increasing addresses (R51). -/
def bytesOfWords : List Word → List Byte
  | [] => []
  | w :: ws => hiByte w :: loByte w :: bytesOfWords ws

/-- The decoder on bytes. -/
def decode (bs : List Byte) : Except DecodeError (Instr × List Word) := decodeWords (wordsOfBytes bs)

/-! ### The encoder -/

/-- The mode and register fields of an operand (R82). -/
def Ea.modeReg : Ea → Nat × Nat
  | .dreg n => (0, n.val)
  | .ind n => (2, n.val)
  | .postinc n => (3, n.val)
  | .predec n => (4, n.val)
  | .disp n _ => (5, n.val)
  | .index n _ => (6, n.val)
  | .absShort _ => (7, 0)
  | .absLong _ => (7, 1)
  | .pcDisp _ => (7, 2)
  | .pcIndex _ => (7, 3)
  | .imm _ => (7, 4)

/-- The six low bits of an operation word (R82). -/
def Ea.field (ea : Ea) : Nat := ea.modeReg.1 * 8 + ea.modeReg.2

/-- The brief extension word as the assembler writes it: bits 10:8 zero (R84). -/
def wordOfIndex (x : IndexWord) : Word :=
  BitVec.ofBool x.isAddr ++ BitVec.ofNat 3 x.reg.val ++ BitVec.ofBool x.isLong ++ 0#3 ++ x.disp

/-- The words of an immediate (R85); bits 15:8 of a byte immediate's word are written 0. -/
def wordsOfImm (sz : Size) (v : Long) : List Word :=
  match sz with
  | .byte => [(v.setWidth 8).setWidth 16]
  | .word => [v.setWidth 16]
  | .long => [hiWord v, loWord v]

/-- The extension words of an operand (R82, R83). -/
def Ea.extension (sz : Size) : Ea → List Word
  | .dreg _ => []
  | .ind _ => []
  | .postinc _ => []
  | .predec _ => []
  | .disp _ d => [d]
  | .index _ x => [wordOfIndex x]
  | .absShort w => [w]
  | .absLong a => [hiWord a, loWord a]
  | .pcDisp d => [d]
  | .pcIndex x => [wordOfIndex x]
  | .imm v => wordsOfImm sz v

/-- The size field (R86, R88, R89). -/
def Size.code : Size → Nat
  | .byte => 0
  | .word => 1
  | .long => 2

/-- The base of format I (R86). -/
def LogicOp.immBase : LogicOp → Nat
  | .or => 0x0000
  | .and => 0x0200
  | .eor => 0x0A00

/-- The base of format RE (R89). -/
def LogicOp.lineBase : LogicOp → Nat
  | .or => 0x8000
  | .and => 0xC000
  | .eor => 0xB000

/-- The operation word of each shape (R86 to R89). -/
def Shape.opWord : Shape → Word
  | .toCcr o _ => BitVec.ofNat 16 (o.immBase + 0x3C)
  | .toSr o _ => BitVec.ofNat 16 (o.immBase + 0x7C)
  | .immToEa o sz _ ea => BitVec.ofNat 16 (o.immBase + sz.code * 64 + ea.field)
  | .notEa sz ea => BitVec.ofNat 16 (0x4600 + sz.code * 64 + ea.field)
  | .eaToReg o sz dn ea => BitVec.ofNat 16 (o.lineBase + dn.val * 512 + sz.code * 64 + ea.field)
  | .regToEa o sz dn ea => BitVec.ofNat 16 (o.lineBase + dn.val * 512 + 256 + sz.code * 64 + ea.field)

/-- The extension words of each shape, in the order of R81. -/
def Shape.extension : Shape → List Word
  | .toCcr _ data => [data.setWidth 16]
  | .toSr _ data => [data]
  | .immToEa _ sz data ea => wordsOfImm sz data ++ ea.extension sz
  | .notEa sz ea => ea.extension sz
  | .eaToReg _ sz _ ea => ea.extension sz
  | .regToEa _ sz _ ea => ea.extension sz

/-- The operation word of an instruction. -/
def opWord (i : Instr) : Word := i.shape.opWord

/-- The words of an instruction. -/
def encode (i : Instr) : List Word := i.shape.opWord :: i.shape.extension

/-- `eaext` of R95, in bytes. -/
def Ea.extBytes (sz : Size) : Ea → Nat
  | .dreg _ => 0
  | .ind _ => 0
  | .postinc _ => 0
  | .predec _ => 0
  | .disp _ _ => 2
  | .index _ _ => 2
  | .absShort _ => 2
  | .absLong _ => 4
  | .pcDisp _ => 2
  | .pcIndex _ => 2
  | .imm _ => if sz = .long then 4 else 2

/-- Bytes of the immediate of ANDI, EORI and ORI to an `<ea>` (R95). -/
def immBytes (sz : Size) : Nat := if sz = .long then 4 else 2

/-- The length of an instruction in bytes, by the table of R95. -/
def Shape.length : Shape → Nat
  | .toCcr _ _ => 4
  | .toSr _ _ => 4
  | .immToEa _ sz _ ea => 2 + immBytes sz + ea.extBytes sz
  | .notEa sz ea => 2 + ea.extBytes sz
  | .eaToReg _ sz _ ea => 2 + ea.extBytes sz
  | .regToEa _ sz _ ea => 2 + ea.extBytes sz

/-- The length of an instruction in bytes (R95). -/
def instrLength (i : Instr) : Nat := i.shape.length

/-! ### Rows of the opcode table -/

/-- Word `k` of an instruction numbered as spec/opcode_table.json numbers bits: the first word is bits 15:0. -/
def tableWord (nbits w k : Nat) : Word := BitVec.ofNat 16 (w % 2 ^ nbits / 2 ^ (16 * k))

/-- The five words of the longest instruction (R80); what lies above `nbits` is zero. -/
def tableWords (nbits w : Nat) : List Word :=
  [tableWord nbits w 0, tableWord nbits w 1, tableWord nbits w 2, tableWord nbits w 3, tableWord nbits w 4]

/-- What the decoder reads from an instruction whose bits are `w`, laid out as the hardware stores it. -/
def decodeTableWord (nbits w : Nat) : Option Instr :=
  match decode (bytesOfWords (tableWords nbits w)) with
  | .ok (i, _) => some i
  | .error _ => none

end Sys2Proof
end

