-- ==== Sys2Proof/Machine/State.lean ====
section
/-! DEFINITION. The state of the machine (10_state.md), the platform's inputs as plain data (R6 of 00_scope.md, log 6), the
reasons a step stops, and the state right after reset (R33, R270). -/

namespace Sys2Proof.Machine

/-- Memory: the bytes that differ from what an unlisted address reads as, by physical address, strictly rising
(R31, R50). Operations and the canonical form: Machine/Ops.lean. -/
abbrev Memory := List Host.Cell

/-- The run state of the processor (R32(a)). -/
inductive RunState
  | running
  /-- after a double fault; only a reset leaves it (R232) -/
  | halted
  /-- entered only by STOP, which is out of scope (R240) -/
  | stopped
  deriving DecidableEq, Repr

/-- Whether an access is to data or to the instruction stream (R54). -/
inductive Space
  | data
  | prog
  deriving DecidableEq, Repr

/-- What `MemMap` answers for a byte (R54, D10). -/
inductive MapAnswer
  /-- plain storage -/
  | ram
  /-- storage a write leaves as it is -/
  | rom
  /-- a device: the value read is the platform's, a write stores nothing in memory (log 8) -/
  | device
  /-- nothing is there and the platform does not fault (log 8) -/
  | nothing
  /-- the access raises BusError (R59) -/
  | fault
  deriving DecidableEq, Repr

/-- One entry of `MemMap`: an address range, the accesses it speaks about, and its answer. -/
structure Region where
  base : Nat
  size : Nat
  reads : Bool
  writes : Bool
  data : Bool
  prog : Bool
  user : Bool
  supervisor : Bool
  answer : MapAnswer
  deriving DecidableEq, Repr

/-- Where the vector number of an interrupt comes from (R228, U21). -/
inductive VectorSource
  /-- the device's own number -/
  | device (v : BitVec 8)
  /-- the autovector, 24 + level -/
  | auto
  /-- the acknowledge cycle ended in a bus error: vector 24 -/
  | spurious
  deriving DecidableEq, Repr

/-- What the platform presents at one instruction boundary: the reset line and `IrqOracle` (R228, R229, R270). -/
structure Sample where
  /-- reset is asserted at the boundary -/
  reset : Bool
  level : BitVec 3
  vector : VectorSource
  /-- reset is asserted in the course of the step that this boundary begins, and aborts it (R229) -/
  abort : Bool := false
  deriving DecidableEq, Repr

/-- The machine. The first block is the registers of R20 to R24, then memory (R31), then the hidden state of R32, then
the platform's inputs (R34, log 6), then the model's own counter of free values (log 7). -/
structure State where
  /-- D0 to D7 (R20) -/
  d : Vector Long 8
  /-- A0 to A6 (R21) -/
  a : Vector Long 7
  /-- the user stack pointer (R22) -/
  usp : Long
  /-- the supervisor stack pointer (R22) -/
  ssp : Long
  /-- the program counter (R23) -/
  pc : Addr
  /-- the status register (R24) -/
  sr : Word
  /-- memory by physical address (R31, R58) -/
  mem : Memory
  /-- R32(a) -/
  run : RunState
  /-- the request level at the previous boundary, for the level 7 edge (R32(c), R228); after an external reset, the level
  of the sample that asserts it, which is the model's choice (log 33) -/
  irqLevel : BitVec 3
  /-- bytes of the instruction stream that the next execution sees as they were before a store (R32(b), R274) -/
  held : List Host.Cell
  /-- a traced instruction has completed and its trace exception is due (R227, R284); between steps, only at a boundary
  where a reset comes first (R229, log 19) -/
  tracePending : Bool
  /-- `PHYS_ADDR_BITS` is 24 plus this (R58) -/
  addrBits : Fin 9
  /-- `MemMap`: the first region that covers an access answers, and with none the answer is Ram (R54) -/
  memMap : List Region
  /-- one sample for each coming boundary; after the last, nothing is requested (R228) -/
  inputs : List Sample
  /-- `BusMasterOracle`: the writes made before each coming bus cycle (R60) -/
  busWrites : List (List Host.Cell)
  /-- how many free values have been drawn -/
  draws : Nat
  deriving DecidableEq, Repr

/-- Why the machine stops with a fault. -/
inductive Fault
  /-- Raised by step: the processor is Halted and no reset is to come ("no step", R232, R241). Safe. -/
  | halted
  /-- Raised by step: the processor is Stopped and no reset or interrupt is to come (R240). Safe. -/
  | stopped
  deriving DecidableEq, Repr

/-- Why the machine has no meaning for what it is asked to run. -/
inductive Refusal
  /-- Raised by exec's arm of an instruction without a meaning. Safe. -/
  | notModelled (mnemonic : String)
  /-- Raised by step: the operation word is an instruction outside the spec's seven mnemonics (R94). Safe. -/
  | outOfScope (op : Word)
  deriving DecidableEq, Repr

/-- The outcome of a step of this machine. -/
abbrev Outcome := Host.Outcome State Fault Refusal

/-- The machine right after reset, memory with nothing listed (R33, R270). SR is 0x2700. The pc and SSP are the longs
at addresses 4 and 0 of that memory. Values the spec leaves open: logs 1 to 4, 6, 7. -/
def State.reset : State where
  d := Vector.replicate 8 0#32
  a := Vector.replicate 7 0#32
  usp := 0#32
  ssp := 0#32
  pc := 0#32
  sr := 0x2700#16
  mem := []
  run := .running
  irqLevel := 0#3
  held := []
  tracePending := false
  addrBits := 0
  memMap := []
  inputs := []
  busWrites := []
  draws := 0

end Sys2Proof.Machine
end

