-- ==== Sys2Proof/Machine/Ops.lean ====
section
/-! DEFINITION. The named operations: lists of cells, the status register, the register file, memory access (R50 to R66 of
20_memory.md), taking an exception and the reset sequence (60_exceptions.md, R270), and the boundary samples. -/

namespace Sys2Proof.Machine

/-! ### Lists of cells and memory -/

/-- What an address that memory does not list reads as. The spec gives memory no contents at reset (R33). Log 3. -/
def unlistedByte : Byte := 0x00#8

/-- The byte a list of cells holds for an address. -/
def findCell : List Host.Cell → Nat → Option Byte
  | [], _ => none
  | (k, v) :: m, p => if p = k then some v else findCell m p

/-- A list of cells with one cell set, the order kept. -/
def putCell : List Host.Cell → Nat → Byte → List Host.Cell
  | [], p, v => [(p, v)]
  | (k, w) :: m, p, v =>
    if p < k then (p, v) :: (k, w) :: m
    else if p = k then (p, v) :: m
    else (k, w) :: putCell m p v

/-- A list of cells without an address. -/
def dropCell : List Host.Cell → Nat → List Host.Cell
  | [], _ => []
  | (k, w) :: m, p => if p = k then dropCell m p else (k, w) :: dropCell m p

/-- One byte of memory. -/
def Memory.read (m : Memory) (p : Nat) : Byte := (findCell m p).getD unlistedByte

/-- Memory with one byte written; the canonical form is kept. -/
def Memory.write (m : Memory) (p : Nat) (v : Byte) : Memory :=
  if v = unlistedByte then dropCell m p else putCell m p v

/-- Strictly rising addresses, all above `lo`. -/
def risingFrom : Nat → List Host.Cell → Bool
  | _, [] => true
  | lo, (k, _) :: m => lo ≤ k && risingFrom (k + 1) m

/-- The canonical form of memory: addresses strictly rising, no cell that an unlisted address would read as. -/
def Memory.wf (m : Memory) : Bool := risingFrom 0 m && m.all (fun c => c.2 != unlistedByte)

/-! ### The status register -/

/-- `SR_IMPL_MASK` (R27). -/
def srImplMask : Word := 0xA71F#16

/-- T (R24). -/
def State.traceBit (s : State) : Bool := s.sr.getLsbD 15

/-- S (R24, R28). -/
def State.super (s : State) : Bool := s.sr.getLsbD 13

/-- I (R24). -/
def State.mask (s : State) : BitVec 3 := s.sr.extractLsb' 8 3

/-- SR as it is read: the not-implemented bits are 0 (R27). -/
def State.srValue (s : State) : Word := s.sr &&& srImplMask

/-- A write of SR (R27). -/
def State.writeSr (s : State) (v : Word) : State := { s with sr := v &&& srImplMask }

/-- A write of the CCR: SR[4:0] and nothing else (R25, R27). -/
def State.writeCcr (s : State) (v : Byte) : State :=
  { s with sr := (s.sr &&& 0xFFE0#16) ||| (v.setWidth 16 &&& 0x001F#16) }

/-- `SR.S <- 1; SR.T <- 0` (R221, R222). -/
def State.enterSupervisor (s : State) : State := { s with sr := (s.sr &&& 0x7FFF#16) ||| 0x2000#16 }

/-- `SR.I <- level` (R221). -/
def State.setMask (s : State) (level : BitVec 3) : State :=
  { s with sr := (s.sr &&& 0xF8FF#16) ||| (level.setWidth 16 <<< 8) }

/-! ### Registers -/

/-- `D[n]`, all 32 bits (R10). -/
def State.dReg (s : State) (n : Fin 8) : Long := s.d[n]

/-- `D[n][msb(sz):0] <- v`, the bits above kept (R20, R135). -/
def State.setD (s : State) (sz : Size) (n : Fin 8) (v : Long) : State :=
  { s with d := s.d.set n ((s.d[n] &&& ~~~sz.mask) ||| (v &&& sz.mask)) }

/-- The stack pointer that A7 names now (R22). -/
def State.sp (s : State) : Long := if s.super then s.ssp else s.usp

/-- `A[n]`; A7 is the stack pointer of the current mode (R10, R22). -/
def State.aReg (s : State) (n : Fin 8) : Long := if h : n.val < 7 then s.a[n.val] else s.sp

/-- `A[n] <- v`, under the same selection (R10, R22). -/
def State.setA (s : State) (n : Fin 8) (v : Long) : State :=
  if h : n.val < 7 then { s with a := s.a.set n.val v }
  else if s.super then { s with ssp := v }
  else { s with usp := v }

/-! ### Free values -/

/-- One more free value has been drawn. -/
def State.drawn (s : State) : State := { s with draws := s.draws + 1 }

/-- A list in a free order: each next element is a free choice among those left. -/
def freeOrder {α : Type} : Nat → List α → State → List α × State
  | 0, xs, s => (xs, s)
  | n + 1, xs, s =>
    let k := Config.freePick s.draws % xs.length
    match xs[k]? with
    | none => (xs, s)
    | some x =>
      let (ys, s') := freeOrder n (xs.eraseIdx k) s.drawn
      (x :: ys, s')

/-! ### The address map -/

/-- `PHYS_ADDR_BITS` (R58). -/
def State.physBits (s : State) : Nat := 24 + s.addrBits.val

/-- `phys(a) = a mod 2^PHYS_ADDR_BITS` (R54). -/
def State.phys (s : State) (a : Addr) : Nat := a.toNat % 2 ^ s.physBits

/-- Whether a region speaks about an access. -/
def Region.covers (r : Region) (p : Nat) (write : Bool) (sp : Space) (super : Bool) : Bool :=
  r.base ≤ p && p < r.base + r.size
    && (if write then r.writes else r.reads)
    && (match sp with
        | .data => r.data
        | .prog => r.prog)
    && (if super then r.supervisor else r.user)

/-- The answer of the first region that speaks about an access; Ram where none does. -/
def lookupMap : List Region → Nat → Bool → Space → Bool → MapAnswer
  | [], _, _, _, _ => .ram
  | r :: rs, p, write, sp, super => if r.covers p write sp super then r.answer else lookupMap rs p write sp super

/-- `MemMap(phys(a), direction, kind, mode)` (R54); the mode is SR.S at the time of the access. -/
def State.mapAt (s : State) (a : Addr) (write : Bool) (sp : Space) : MapAnswer :=
  lookupMap s.memMap (s.phys a) write sp s.super

/-- Whether `MemMap` answers Fault for one of `n` bytes at `a` (R54). -/
def State.anyFault (s : State) (a : Addr) (write : Bool) (sp : Space) : Nat → Bool
  | 0 => false
  | n + 1 => s.anyFault a write sp n || s.mapAt (a + BitVec.ofNat 32 n) write sp == .fault

/-! ### Access -/

/-- An access that was not made: AddressError or BusError (R11, R54), with what the long frame records (R222). -/
structure AccessFault where
  /-- AddressError (true) or BusError (false) -/
  misaligned : Bool
  /-- the address of the access -/
  addr : Addr
  write : Bool
  space : Space
  /-- the mode of the access -/
  super : Bool
  deriving DecidableEq, Repr

/-- The result of an access: a value, or a fault; and the state it leaves. -/
inductive Access (α : Type) where
  | ok (v : α) (s : State)
  | abort (e : AccessFault) (s : State)

/-- AddressError of an access (R53). -/
def State.misalignedAt (s : State) (a : Addr) (write : Bool) (sp : Space) : AccessFault :=
  { misaligned := true, addr := a, write := write, space := sp, super := s.super }

/-- BusError of an access (R59). -/
def State.busErrorAt (s : State) (a : Addr) (write : Bool) (sp : Space) : AccessFault :=
  { misaligned := false, addr := a, write := write, space := sp, super := s.super }

/-- The other bus masters' writes before a bus cycle (R60). Log 29. -/
def State.busTurn (s : State) : State :=
  match s.busWrites with
  | [] => s
  | ws :: rest =>
    { s with busWrites := rest, mem := ws.foldl (fun m c => Memory.write m (c.1 % 2 ^ s.physBits) c.2) s.mem }

/-- One byte read: storage, or the platform's value for a device and for nothing (R54). Log 8. -/
def State.readByte (s : State) (a : Addr) (sp : Space) : Byte × State :=
  match s.mapAt a false sp with
  | .ram => (s.mem.read (s.phys a), s)
  | .rom => (s.mem.read (s.phys a), s)
  | .device => (Config.freeByte s.draws, s.drawn)
  | .nothing => (Config.freeByte s.draws, s.drawn)
  | .fault => (Config.freeByte s.draws, s.drawn)

/-- One byte of memory, at an address as the processor gives it. -/
def State.byteAt (s : State) (a : Addr) : Byte := s.mem.read (s.phys a)

/-- A byte cycle that reads (R55). -/
def State.readByteCycle (s : State) (a : Addr) (sp : Space) : Byte × State := s.busTurn.readByte a sp

/-- A word cycle that reads, big-endian (R51, R55). -/
def State.readWordCycle (s : State) (a : Addr) (sp : Space) : Word × State :=
  let (hi, s1) := s.busTurn.readByte a sp
  let (lo, s2) := s1.readByte (a + 1#32) sp
  (wordOfBytes hi lo, s2)

/-- A long read as two word cycles, the high word first (R55). -/
def State.readHighFirst (s : State) (a : Addr) (sp : Space) : Long × State :=
  let (hi, s1) := s.readWordCycle a sp
  let (lo, s2) := s1.readWordCycle (a + 2#32) sp
  (longOfWords hi lo, s2)

/-- A long read as two word cycles, the low word first (R55). -/
def State.readLowFirst (s : State) (a : Addr) (sp : Space) : Long × State :=
  let (lo, s1) := s.readWordCycle (a + 2#32) sp
  let (hi, s2) := s1.readWordCycle a sp
  (longOfWords hi lo, s2)

/-- A long read. The order of the cycles is free (R55, U7); it can be seen only while another master writes. Log 10. -/
def State.readLongCycles (s : State) (a : Addr) (sp : Space) : Long × State :=
  if s.busWrites.isEmpty then s.readHighFirst a sp
  else if Config.freeFlag s.draws then s.drawn.readHighFirst a sp
  else s.drawn.readLowFirst a sp

/-- Whether an access of a size must be even (R53). -/
def oddFor (sz : Size) (a : Addr) : Bool :=
  match sz with
  | .byte => false
  | .word => a.getLsbD 0
  | .long => a.getLsbD 0

/-- `MemRead(a, bytes(sz))` (R54); the value is zero above the size. Which half of a long read has been done when a bus
error stops it is left open (R55); that neither has, and no entry of `busWrites` is taken, is the model's choice
(DESIGN CHOICE, log 34). -/
def State.memRead (s : State) (a : Addr) (sz : Size) (sp : Space) : Access Long :=
  if oddFor sz a then .abort (s.misalignedAt a false sp) s
  else if s.anyFault a false sp sz.bytes then .abort (s.busErrorAt a false sp) s
  else
    match sz with
    | .byte => .ok ((s.readByteCycle a sp).1.setWidth 32) (s.readByteCycle a sp).2
    | .word => .ok ((s.readWordCycle a sp).1.setWidth 32) (s.readWordCycle a sp).2
    | .long => .ok (s.readLongCycles a sp).1 (s.readLongCycles a sp).2

/-- One byte stored. Rom, Device and Nothing leave memory as it is (R54). A store is seen by every later fetch of the
byte (R62), so it ends what is held of it; for a store into the prefetch window see `holdPrefetched`. -/
def State.storeByte (s : State) (a : Addr) (v : Byte) : State :=
  match s.mapAt a true .data with
  | .ram => { s with mem := s.mem.write (s.phys a) v, held := dropCell s.held (s.phys a) }
  | .rom => s
  | .device => s
  | .nothing => s
  | .fault => s

/-- A byte cycle that writes. -/
def State.storeByteCycle (s : State) (a : Addr) (v : Byte) : State := s.busTurn.storeByte a v

/-- A word cycle that writes, big-endian (R51). -/
def State.storeWordCycle (s : State) (a : Addr) (v : Word) : State :=
  (s.busTurn.storeByte a (hiByte v)).storeByte (a + 1#32) (loByte v)

/-- A word that an access of one or two words is going to write. -/
structure PendingWord where
  /-- where the word goes -/
  addr : Addr
  /-- the address of the access it is part of, which is what a fault of it reports -/
  access : Addr
  value : Word
  deriving DecidableEq, Repr

/-- Words written one after the other. -/
def State.storeWords (s : State) : List PendingWord → State
  | [] => s
  | w :: ws => (s.storeWordCycle w.addr w.value).storeWords ws

/-- Whether a word cannot be written (R59). -/
def State.wordFaults (s : State) (w : PendingWord) : Bool := s.anyFault w.addr true .data 2

/-- Words in the order they are written: free (R55, U7, U8), which can be seen only while another master writes.
Log 10. -/
def State.writeOrder (s : State) (ws : List PendingWord) : List PendingWord × State :=
  if s.busWrites.isEmpty then (ws, s) else freeOrder ws.length ws s

/-- The two words of a long (R51). -/
def longWords (a : Addr) (v : Long) : List PendingWord :=
  [{ addr := a, access := a, value := hiWord v }, { addr := a + 2#32, access := a, value := loWord v }]

/-- What a write that ends in a bus error has done: each word that does not fault has been written or not (R55, U7,
U8). Log 9. Whether the cycle of a word that has not been written was begun, so that other masters had its turn, is left
open too; that the turn is taken either way is the model's choice (DESIGN CHOICE, log 35). -/
def State.storeSome (s : State) : List PendingWord → State
  | [] => s
  | w :: ws =>
    if s.wordFaults w then s.storeSome ws
    else
      { s.busTurn with
        mem := bif Config.freeFlag s.draws then (s.storeWordCycle w.addr w.value).mem else s.busTurn.mem
        held := bif Config.freeFlag s.draws then (s.storeWordCycle w.addr w.value).held else s.busTurn.held
        draws := s.draws + 1 : State }.storeSome ws

/-- Words some of which have been written before a bus error, in a free order. -/
def State.storeSomeFree (s : State) (ws : List PendingWord) : State :=
  (s.writeOrder ws).2.storeSome (s.writeOrder ws).1

/-- Words written in a free order. -/
def State.storeWordsFree (s : State) (ws : List PendingWord) : State :=
  (s.writeOrder ws).2.storeWords (s.writeOrder ws).1

/-- `MemWrite(a, bytes(sz), v)` (R54); bits of `v` above the size are not stored. -/
def State.memWrite (s : State) (a : Addr) (sz : Size) (v : Long) : Access Unit :=
  if oddFor sz a then .abort (s.misalignedAt a true .data) s
  else if s.anyFault a true .data sz.bytes then
    .abort (s.busErrorAt a true .data)
      (match sz with
       | .byte => s
       | .word => s
       | .long => s.storeSomeFree (longWords a v))
  else
    match sz with
    | .byte => .ok () (s.storeByteCycle a (v.setWidth 8))
    | .word => .ok () (s.storeWordCycle a (v.setWidth 16))
    | .long => .ok () (s.storeWordsFree (longWords a v))

/-! ### Exception frames -/

/-- The fault of a frame some word of which cannot be written: the first of them in a free order (R221, U8). -/
def State.frameFault (s : State) (bad : List PendingWord) : AccessFault :=
  match bad with
  | [] => s.busErrorAt s.ssp true .data
  | [w] => s.busErrorAt w.access true .data
  | w :: ws => s.busErrorAt ((w :: ws).getD (Config.freePick s.draws % (w :: ws).length) w).access true .data

/-- The words of a frame written on the supervisor stack, in a free order (R221, R222, U8). -/
def State.writeFrame (s : State) (ws : List PendingWord) : Access Unit :=
  if s.ssp.getLsbD 0 then .abort (s.misalignedAt s.ssp true .data) s
  else if ws.any s.wordFaults then .abort (s.frameFault (ws.filter s.wordFaults)) (s.drawn.storeSomeFree ws)
  else .ok () (s.storeWordsFree ws)

/-- The three words of the short frame at `sp` (R221). -/
def shortFrame (sp : Addr) (sr : Word) (pc : Addr) : List PendingWord :=
  { addr := sp, access := sp, value := sr } :: longWords (sp + 2#32) pc

/-- The seven words of the long frame at `sp` (R222). -/
def longFrame (sp : Addr) (info : Word) (faultAddr : Addr) (ir sr : Word) (pc : Addr) : List PendingWord :=
  { addr := sp, access := sp, value := info } :: (longWords (sp + 2#32) faultAddr
    ++ { addr := sp + 6#32, access := sp + 6#32, value := ir }
    :: { addr := sp + 8#32, access := sp + 8#32, value := sr } :: longWords (sp + 10#32) pc)

/-- The function code of an access (R222). -/
def AccessFault.functionCode (e : AccessFault) : BitVec 3 :=
  match e.super, e.space with
  | false, .data => 1#3
  | false, .prog => 2#3
  | true, .data => 5#3
  | true, .prog => 6#3

/-- The first word of a long frame (R222): function code, I/N, R/W, and bits 15:5 free. Log 11. -/
def infoWord (e : AccessFault) (inEntry : Bool) (free : Word) : Word :=
  (free &&& 0xFFE0#16) ||| (BitVec.ofBool (!e.write) ++ BitVec.ofBool inEntry ++ e.functionCode).setWidth 16

/-- The saved program counter of a long frame: a free even value in `[pc0 + 2, pc0 + 10]` (R222, U9). Log 11. -/
def groupZeroPc (pc0 : Addr) (k : Nat) : Addr :=
  if pc0.getLsbD 0 then pc0 + 3#32 + BitVec.ofNat 32 (2 * (k % 4))
  else pc0 + 2#32 + BitVec.ofNat 32 (2 * (k % 5))

/-- A double fault: the processor is Halted (R232). -/
def State.halt (s : State) : State := { s with run := .halted, tracePending := false }

/-- The handler's address is read, as supervisor data, and the pc goes there (R57, R221, R222). -/
def State.readVector (s : State) (v : BitVec 8) : Access Long := s.memRead (v.setWidth 32 <<< 2) .long .data

/-- The vector of a group 0 exception (R220). -/
def AccessFault.vector (e : AccessFault) : BitVec 8 := if e.misaligned then 3#8 else 2#8

/-- Entry of a bus error or an address error (R222). `pc0` is the address of the instruction in progress and `ir` its
operation word, `none` where the spec leaves it open; `inEntry` says that the fault came while a short-frame entry was
made. A fault in here is a double fault (R232). Logs 11, 12. -/
def State.takeGroupZero (s : State) (e : AccessFault) (inEntry : Bool) (pc0 : Addr) (ir : Option Word) : State :=
  let s1 := { s.enterSupervisor with ssp := s.ssp - 14#32, draws := s.draws + 3, tracePending := false }
  let frame := longFrame s1.ssp (infoWord e inEntry (Config.freeWord s.draws)) e.addr
    (ir.getD (Config.freeWord (s.draws + 1))) s.srValue (groupZeroPc pc0 (Config.freePick (s.draws + 2)))
  match s1.writeFrame frame with
  | .abort _ s2 => s2.halt
  | .ok _ s2 =>
    match s2.readVector e.vector with
    | .abort _ s3 => s3.halt
    | .ok handler s3 => { s3 with pc := handler }

/-- What a short-frame entry sets before it writes the frame (R221). -/
def State.beginShort (s : State) (level : Option (BitVec 3)) : State :=
  let s1 := { s.enterSupervisor with ssp := s.ssp - 6#32, tracePending := false }
  match level with
  | none => s1
  | some l => s1.setMask l

/-- Entry of an exception with the short frame (R221): the old SR and `pcSaved` are pushed, S is set, T is cleared, the
mask goes to the level of an interrupt, and the pc comes from the vector. A fault in here is taken as that group 0
exception (R232). Log 12. -/
def State.takeShort (s : State) (v : BitVec 8) (level : Option (BitVec 3)) (pcSaved pc0 : Addr) (ir : Option Word) :
    State :=
  let s1 := s.beginShort level
  match s1.writeFrame (shortFrame s1.ssp s.srValue pcSaved) with
  | .abort e s2 => s2.takeGroupZero e true pc0 ir
  | .ok _ s2 =>
    match s2.readVector v with
    | .abort e s3 => s3.takeGroupZero e true pc0 ir
    | .ok handler s3 => { s3 with pc := handler }

/-- Illegal instruction, vector 4 (R224). -/
def State.takeIllegal (s : State) (op : Word) : State := s.takeShort 4#8 none s.pc s.pc (some op)

/-- Privilege violation, vector 8 (R223). -/
def State.takePrivilege (s : State) (op : Word) : State := s.takeShort 8#8 none s.pc s.pc (some op)

/-- Trace, vector 9 (R227): the saved pc is that of the next instruction. `pc0` is the traced instruction's. -/
def State.takeTrace (s : State) (pc0 : Addr) : State := s.takeShort 9#8 none s.pc pc0 none

/-- The vector number of an interrupt (R228). -/
def VectorSource.number (v : VectorSource) (level : BitVec 3) : BitVec 8 :=
  match v with
  | .device n => n
  | .auto => 24#8 + level.setWidth 8
  | .spurious => 24#8

/-- An interrupt (R228): a processor that was Stopped runs again (R240). -/
def State.takeInterrupt (s : State) (level : BitVec 3) (v : VectorSource) : State :=
  { s with run := .running }.takeShort (v.number level) (some level) s.pc s.pc none

/-- Return from exception as R231 describes it: what the frame of R221 is for. RTE itself is outside the spec's opcode
table and its word is refused (R94), so no instruction calls this. -/
def State.returnFromShort (s : State) : Access Unit :=
  match s.memRead s.ssp .word .data with
  | .abort e s1 => .abort e s1
  | .ok sr s1 =>
    match s1.memRead (s1.ssp + 2#32) .long .data with
    | .abort e s2 => .abort e s2
    | .ok pc s2 => .ok () { s2 with ssp := s2.ssp + 6#32, pc := pc, sr := sr.setWidth 16 &&& srImplMask }

/-! ### Reset -/

/-- What the reset sequence sets before it reads the vectors: SR = 0x27xx, the flags unspecified (R270). Log 17. -/
def State.beginReset (s : State) : State :=
  { s with
    run := .running
    sr := 0x2700#16 ||| (Config.freeWord s.draws &&& 0x001F#16)
    tracePending := false
    draws := s.draws + 1 }

/-- The reset sequence (R270). SSP and pc come from vectors 0 and 1, read as supervisor program; D0 to D7, A0 to A6
and USP are not touched. A fault in here halts (R232). -/
def State.resetSequence (s : State) : State :=
  match s.beginReset.memRead 0#32 .long .prog with
  | .abort _ s1 => s1.halt
  | .ok ssp s1 =>
    match { s1 with ssp := ssp }.memRead 4#32 .long .prog with
    | .abort _ s2 => s2.halt
    | .ok pc s2 => { s2 with pc := pc }

/-! ### Boundary samples -/

/-- What is presented when the list of samples has ended: nothing (the default of R228). -/
def quietSample : Sample := { reset := false, level := 0#3, vector := .auto, abort := false }

/-- The sample of this boundary. -/
def State.sample (s : State) : Sample := s.inputs.headD quietSample

/-- The state once the sample of this boundary has been looked at; its level is what the next one's edge is seen
against (R228). Where the sample asserts reset the spec does not say what that level is: a level 7 presented with the
reset is not new at the boundary after it (DESIGN CHOICE, log 33). -/
def State.afterSample (s : State) : State := { s with inputs := s.inputs.drop 1, irqLevel := s.sample.level }

/-- Whether a request is accepted: above the mask, or a new level 7 (R228). -/
def State.accepts (s : State) (level : BitVec 3) : Bool :=
  s.mask < level || (level == 7#3 && s.irqLevel < 7#3)

/-- The samples from the first reset on (R232: while Halted nothing else is looked at). -/
def fromReset : List Sample → List Sample
  | [] => []
  | x :: xs => if x.reset || x.abort then x :: xs else fromReset xs

/-! ### A reset in the course of a step -/

/-- Memory after a step from `old` to `new` that a reset cut short: each word is the old one or the new one, a free
choice, number `k + w` for the word at `2 * w`. -/
def mixMemory (k : Nat) (old new : Memory) : Memory :=
  (old ++ new).foldl
    (fun m c => bif Config.freeFlag (k + c.1 / 2) then m else m.write c.1 (old.read c.1)) new

/-- What is held of the instruction stream after such a step: of each word, what goes with the memory chosen for it. -/
def mixHeld (k : Nat) (old new : List Host.Cell) : List Host.Cell :=
  (old.filter (fun c => !Config.freeFlag (k + c.1 / 2))).foldr (fun c h => putCell h c.1 c.2)
    (new.filter (fun c => Config.freeFlag (k + c.1 / 2)))

/-- `n` turns of the other bus masters, with nothing done by the processor between them (R60). -/
def State.busTurns (s : State) : Nat → State
  | 0 => s
  | n + 1 => s.busTurn.busTurns n

/-- `s` with the turns that the other bus masters have had in a step from `s` to `t`, and nothing of the step itself. -/
def State.turnsOf (s t : State) : State := s.busTurns (s.busWrites.length - t.busWrites.length)

/-- What a step from `s` to `t` has done when a reset aborts it (R229). The spec does not say how far it has come: the data
register, the address register and each word of memory that it changes is the old one or the new one, a free choice. With
an old word go the bytes held of it before the step and with a new one those held after it, so that a store that has been
made is seen by a later fetch as after the whole step (R62, R274). What other bus masters have written stays (R60). SR, SSP
and the pc are the reset sequence's. Logs 17, 33. -/
def State.cutShort (s t : State) : State :=
  { t with
    d := bif Config.freeFlag t.draws then t.d else s.d
    a := bif Config.freeFlag (t.draws + 1) then t.a else s.a
    usp := bif Config.freeFlag (t.draws + 1) then t.usp else s.usp
    mem := mixMemory (t.draws + 2) (s.turnsOf t).mem t.mem
    held := mixHeld (t.draws + 2) (s.turnsOf t).held t.held
    inputs := s.afterSample.inputs
    irqLevel := s.afterSample.irqLevel
    draws := t.draws + 2 + 2 ^ s.physBits }

/-- Whether a reset aborts the step of this boundary: one at the boundary itself comes first and cannot be interrupted
(R270), and a Halted processor is in no step. -/
def State.abortsStep (s : State) : Bool := s.run != .halted && !s.sample.reset && s.sample.abort

end Sys2Proof.Machine
end

