-- ==== Sys2Proof/Machine/Operands.lean ====
section
/-! DEFINITION. Operands (40_operands.md R120 to R137, R140): where an effective address points, what it does to its
register, how an operand is read and written, the prefetch window of a store (R274), and what a fault leaves. -/

namespace Sys2Proof.Machine

/-- An operand location (R12). `space` says how a memory operand is read: PC-relative operands are instruction-stream
accesses (R130, R131). -/
inductive Loc
  | dreg (n : Fin 8)
  | mem (a : Addr) (space : Space)
  | imm (v : Long)
  deriving DecidableEq, Repr

/-- `Index(x)`: the register, or its sign-extended low word (R133). -/
def State.indexValue (s : State) (x : IndexWord) : Long :=
  let v := if x.isAddr then s.aReg x.reg else s.dReg x.reg
  if x.isLong then v else sext16 (v.setWidth 16)

/-- `step(n, sz)`: the operand's size in bytes, but 2 for a byte through A7 (R136). -/
def stepSize (n : Fin 8) (sz : Size) : Long :=
  if n = 7 && sz == .byte then 2#32 else BitVec.ofNat 32 sz.bytes

/-- The location an effective address denotes (R121 to R132), in the state before its side effect. `cur` is the address
of its first extension word. -/
def eaLoc (ea : Ea) (sz : Size) (cur : Addr) (s : State) : Loc :=
  match ea with
  | .dreg n => .dreg n
  | .ind n => .mem (s.aReg n) .data
  | .postinc n => .mem (s.aReg n) .data
  | .predec n => .mem (s.aReg n - stepSize n sz) .data
  | .disp n d => .mem (s.aReg n + sext16 d) .data
  | .index n x => .mem (s.aReg n + s.indexValue x + sext8 x.disp) .data
  | .absShort w => .mem (sext16 w) .data
  | .absLong a => .mem a .data
  | .pcDisp d => .mem (cur + sext16 d) .prog
  | .pcIndex x => .mem (cur + s.indexValue x + sext8 x.disp) .prog
  | .imm v => .imm v

/-- The side effect of an effective address: postincrement and predecrement, done before the operand is read
(R124, R125, R137 step 3). -/
def eaStep (ea : Ea) (sz : Size) (s : State) : State :=
  match ea with
  | .postinc n => s.setA n (s.aReg n + stepSize n sz)
  | .predec n => s.setA n (s.aReg n - stepSize n sz)
  | _ => s

/-- `ReadLoc(loc, sz)` (R134); the value is zero above the size. -/
def readLoc (loc : Loc) (sz : Size) (s : State) : Access Long :=
  match loc with
  | .dreg n => .ok (s.dReg n &&& sz.mask) s
  | .mem a sp => s.memRead a sz sp
  | .imm v => .ok (v &&& sz.mask) s

/-! ### The prefetch window -/

/-- Whether a byte address lies in `[pc0, pc0 + len + 4)` of the instruction at `pc0` (R62, R274), as the memory sees
it. -/
def State.inWindow (s : State) (pc0 : Addr) (len : Nat) (a : Addr) : Bool :=
  (s.phys a + 2 ^ s.physBits - s.phys pc0) % 2 ^ s.physBits < len + 4

/-- The byte an instruction fetch would see now: what is held of it, else memory (R62). -/
def State.fetchView (s : State) (p : Nat) : Byte := (findCell s.held p).getD (s.mem.read p)

/-- The bytes of the instruction stream as they were, for the part of a store of `n` bytes at `a` that lies in the
window and in storage. -/
def State.windowCells (s : State) (pc0 : Addr) (len : Nat) (a : Addr) : Nat → List Host.Cell
  | 0 => []
  | n + 1 =>
    let b := a + BitVec.ofNat 32 n
    let cells := s.windowCells pc0 len a n
    if s.inWindow pc0 len b && s.mapAt b true .data == .ram then
      (s.phys b, s.fetchView (s.phys b)) :: cells
    else cells

/-- The prefetch hazard (R274, U10): of a store into the window of the storing instruction, the next execution sees the
old bytes or the new bytes, a free choice; what it sees of old ones that differ is kept in `held`. Log 15. Where another
master writes such a byte in the turn of the same store, the old byte is the one from before that write; and where a bus
error stops a long store, a byte of it in the window that the store has not written, but another master has in its turn,
may be held at its old value too. The spec leaves both open (DESIGN CHOICE, log 36). -/
def holdPrefetched (before after : State) (pc0 : Addr) (len : Nat) (a : Addr) (n : Nat) : State :=
  let cells := (before.windowCells pc0 len a n).filter (fun c => after.fetchView c.1 != c.2)
  if cells.isEmpty then after
  else
    { after with
      held := bif Config.freeFlag after.draws then cells.foldl (fun h c => putCell h c.1 c.2) after.held else after.held
      draws := after.draws + 1 }

/-- `WriteLoc(loc, sz, v)` (R135) by the instruction at `pc0` of `len` bytes. An immediate is never written. -/
def writeLoc (loc : Loc) (sz : Size) (v : Long) (pc0 : Addr) (len : Nat) (s : State) : Access Unit :=
  match loc with
  | .dreg n => .ok () (s.setD sz n v)
  | .mem a _ =>
    match s.memWrite a sz v with
    | .ok _ s1 => .ok () (holdPrefetched s s1 pc0 len a sz.bytes)
    | .abort e s1 => .abort e (holdPrefetched s s1 pc0 len a sz.bytes)
  | .imm _ => .ok () s

/-! ### What a fault leaves behind -/

/-- After a fault, the register of `(An)+` or `-(An)` has its old value or the stepped one (R140, U5). Log 13. -/
def keepOrUndoStep (ea : Ea) (before after : State) : State :=
  match ea with
  | .postinc n =>
    (after.setA n (bif Config.freeFlag after.draws then after.aReg n else before.aReg n)).drawn
  | .predec n =>
    (after.setA n (bif Config.freeFlag after.draws then after.aReg n else before.aReg n)).drawn
  | _ => after

/-- After a fault at the write, the flags are the old ones or the new ones (R140, U6). Log 14. -/
def keepOrUndoFlags (before after : State) : State :=
  { after with
    sr := (after.sr &&& 0xFFF0#16)
      ||| (bif Config.freeFlag after.draws then after.sr &&& 0x000F#16 else before.sr &&& 0x000F#16)
    draws := after.draws + 1 }

end Sys2Proof.Machine
end

