-- ==== Sys2Proof/Machine/Flags.lean ====
section
/-! DEFINITION. The four operations (R138) and the flag rule (R139) of 40_operands.md. -/

namespace Sys2Proof.Machine

/-- AndOp, OrOp and EorOp (R138). Values are zero above the size, and so is the result. -/
def logicOp (o : LogicOp) (x y : Long) : Long :=
  match o with
  | .or => x ||| y
  | .and => x &&& y
  | .eor => x ^^^ y

/-- `NotOp(a, sz) = mask(sz) - a` (R138). -/
def notOp (sz : Size) (x : Long) : Long := sz.mask - x

/-- N and Z of a result of a size, as bits 3 and 2 (R139). -/
def flagsNZ (sz : Size) (r : Long) : Word :=
  (if r.getLsbD sz.msb then 0x0008#16 else 0#16) ||| (if r = 0#32 then 0x0004#16 else 0#16)

/-- `LogicFlags(r, sz)`: N and Z from the result, V and C cleared, X and the rest of SR unchanged (R139). -/
def logicFlags (sz : Size) (r : Long) (s : State) : State :=
  { s with sr := (s.sr &&& 0xFFF0#16) ||| flagsNZ sz r }

end Sys2Proof.Machine
end

