-- ==== Sys2Proof/Machine/Logic.lean ====
section
/-! DEFINITION. What the instructions share: completion, abandonment, and the four ways an instruction runs. Each takes the
instruction itself, for its length (R95) and its operation word (R222). -/

namespace Sys2Proof.Machine

/-- Completion (R23, R137 step 8): the pc moves past the instruction, and a trace exception is due if T was 1 at the
start (R227). `start` is the state the instruction began in. -/
def complete (i : Instr) (start s : State) : Outcome :=
  .next { s with pc := start.pc + BitVec.ofNat 32 (instrLength i), tracePending := start.traceBit }

/-- Abandonment by a fault at the operand (R140): entry of the group 0 exception (R222). -/
def abandon (i : Instr) (ea : Ea) (start : State) (e : AccessFault) (s : State) : Outcome :=
  .next ((keepOrUndoStep ea start s).takeGroupZero e false start.pc (some (opWord i)))

/-- `<ea>,Dn` (R150, R200). -/
def runEaToReg (i : Instr) (o : LogicOp) (sz : Size) (dn : Fin 8) (ea : Ea) (s : State) : Outcome :=
  match readLoc (eaLoc ea sz (s.pc + 2#32) s) sz (eaStep ea sz s) with
  | .abort e s1 => abandon i ea s e s1
  | .ok x s1 =>
    let r := logicOp o (s.dReg dn &&& sz.mask) x
    complete i s ((logicFlags sz r s1).setD sz dn r)

/-- Read, compute, write back (R151, R152, R170, R171, R190, R201, R202): `f` is the operation on the destination and
`cur` the address of the operand's first extension word. -/
def runModify (i : Instr) (sz : Size) (f : Long → Long) (cur : Addr) (ea : Ea) (s : State) : Outcome :=
  match readLoc (eaLoc ea sz cur s) sz (eaStep ea sz s) with
  | .abort e s1 => abandon i ea s e s1
  | .ok x s1 =>
    match writeLoc (eaLoc ea sz cur s) sz (f x) s.pc (instrLength i) (logicFlags sz (f x) s1) with
    | .abort e s2 => abandon i ea s e (keepOrUndoFlags s s2)
    | .ok _ s2 => complete i s s2

/-- `Dn,<ea>` (R151, R170, R201). -/
def runRegToEa (i : Instr) (o : LogicOp) (sz : Size) (dn : Fin 8) (ea : Ea) (s : State) : Outcome :=
  runModify i sz (fun x => logicOp o x (s.dReg dn &&& sz.mask)) (s.pc + 2#32) ea s

/-- `#<data>,<ea>` (R152, R171, R202): the operand's extension words follow the immediate (R81). -/
def runImmToEa (i : Instr) (o : LogicOp) (sz : Size) (data : Long) (ea : Ea) (s : State) : Outcome :=
  runModify i sz (fun x => logicOp o x data) (s.pc + 2#32 + BitVec.ofNat 32 (immBytes sz)) ea s

/-- NOT `<ea>` (R190). -/
def runNot (i : Instr) (sz : Size) (ea : Ea) (s : State) : Outcome :=
  runModify i sz (notOp sz) (s.pc + 2#32) ea s

/-- `#<data>,CCR` (R153, R172, R203): LogicFlags is not applied. -/
def runToCcr (i : Instr) (o : LogicOp) (data : Byte) (s : State) : Outcome :=
  complete i s (s.writeCcr ((logicOp o (s.sr.setWidth 32) (data.setWidth 32)).setWidth 8))

/-- `#<data>,SR` (R154, R173, R204): a privilege violation in user mode (R223). -/
def runToSr (i : Instr) (o : LogicOp) (data : Word) (s : State) : Outcome :=
  if s.super then
    complete i s (s.writeSr ((logicOp o (s.sr.setWidth 32) (data.setWidth 32)).setWidth 16))
  else .next (s.takePrivilege (opWord i))

end Sys2Proof.Machine
end

