-- ==== Sys2Proof/Machine/And.lean ====
section
/-! DEFINITION. The meanings of AND and ANDI (41_and.md). -/

namespace Sys2Proof.Machine

/-- ANDI `#<data>,CCR` (R153). -/
def execAndiCcr (data : Byte) (s : State) : Outcome := runToCcr (.andiCcr data) .and data s

/-- ANDI `#<data>,SR` (R154), privileged. -/
def execAndiSr (data : Word) (s : State) : Outcome := runToSr (.andiSr data) .and data s

/-- ANDI.B `#<data>,<ea>` (R152). -/
def execAndiB (data : Byte) (ea : Ea) (s : State) : Outcome :=
  runImmToEa (.andiB data ea) .and .byte (data.setWidth 32) ea s

/-- ANDI.W `#<data>,<ea>` (R152). -/
def execAndiW (data : Word) (ea : Ea) (s : State) : Outcome :=
  runImmToEa (.andiW data ea) .and .word (data.setWidth 32) ea s

/-- ANDI.L `#<data>,<ea>` (R152). -/
def execAndiL (data : Long) (ea : Ea) (s : State) : Outcome :=
  runImmToEa (.andiL data ea) .and .long data ea s

/-- AND.B `<ea>,Dn` (R150). -/
def execAndBToReg (dn : Fin 8) (ea : Ea) (s : State) : Outcome :=
  runEaToReg (.andBToReg dn ea) .and .byte dn ea s

/-- AND.W `<ea>,Dn` (R150). -/
def execAndWToReg (dn : Fin 8) (ea : Ea) (s : State) : Outcome :=
  runEaToReg (.andWToReg dn ea) .and .word dn ea s

/-- AND.L `<ea>,Dn` (R150). -/
def execAndLToReg (dn : Fin 8) (ea : Ea) (s : State) : Outcome :=
  runEaToReg (.andLToReg dn ea) .and .long dn ea s

/-- AND.B `Dn,<ea>` (R151). -/
def execAndBToEa (dn : Fin 8) (ea : Ea) (s : State) : Outcome :=
  runRegToEa (.andBToEa dn ea) .and .byte dn ea s

/-- AND.W `Dn,<ea>` (R151). -/
def execAndWToEa (dn : Fin 8) (ea : Ea) (s : State) : Outcome :=
  runRegToEa (.andWToEa dn ea) .and .word dn ea s

/-- AND.L `Dn,<ea>` (R151). -/
def execAndLToEa (dn : Fin 8) (ea : Ea) (s : State) : Outcome :=
  runRegToEa (.andLToEa dn ea) .and .long dn ea s

end Sys2Proof.Machine
end

