-- ==== Sys2Proof/Machine/Eor.lean ====
section
/-! DEFINITION. The meanings of EOR and EORI (42_eor.md). -/

namespace Sys2Proof.Machine

/-- EORI `#<data>,CCR` (R172). -/
def execEoriCcr (data : Byte) (s : State) : Outcome := runToCcr (.eoriCcr data) .eor data s

/-- EORI `#<data>,SR` (R173), privileged. -/
def execEoriSr (data : Word) (s : State) : Outcome := runToSr (.eoriSr data) .eor data s

/-- EORI.B `#<data>,<ea>` (R171). -/
def execEoriB (data : Byte) (ea : Ea) (s : State) : Outcome :=
  runImmToEa (.eoriB data ea) .eor .byte (data.setWidth 32) ea s

/-- EORI.W `#<data>,<ea>` (R171). -/
def execEoriW (data : Word) (ea : Ea) (s : State) : Outcome :=
  runImmToEa (.eoriW data ea) .eor .word (data.setWidth 32) ea s

/-- EORI.L `#<data>,<ea>` (R171). -/
def execEoriL (data : Long) (ea : Ea) (s : State) : Outcome :=
  runImmToEa (.eoriL data ea) .eor .long data ea s

/-- EOR.B `Dn,<ea>` (R170). -/
def execEorBToEa (dn : Fin 8) (ea : Ea) (s : State) : Outcome :=
  runRegToEa (.eorBToEa dn ea) .eor .byte dn ea s

/-- EOR.W `Dn,<ea>` (R170). -/
def execEorWToEa (dn : Fin 8) (ea : Ea) (s : State) : Outcome :=
  runRegToEa (.eorWToEa dn ea) .eor .word dn ea s

/-- EOR.L `Dn,<ea>` (R170). -/
def execEorLToEa (dn : Fin 8) (ea : Ea) (s : State) : Outcome :=
  runRegToEa (.eorLToEa dn ea) .eor .long dn ea s

end Sys2Proof.Machine
end

