-- ==== Sys2Proof/Machine/Not.lean ====
section
/-! DEFINITION. The meanings of NOT (43_not.md). -/

namespace Sys2Proof.Machine

/-- NOT.B `<ea>` (R190). -/
def execNotB (ea : Ea) (s : State) : Outcome := runNot (.notB ea) .byte ea s

/-- NOT.W `<ea>` (R190). -/
def execNotW (ea : Ea) (s : State) : Outcome := runNot (.notW ea) .word ea s

/-- NOT.L `<ea>` (R190). -/
def execNotL (ea : Ea) (s : State) : Outcome := runNot (.notL ea) .long ea s

end Sys2Proof.Machine
end

