-- ==== Sys2Proof/Machine/Or.lean ====
section
/-! DEFINITION. The meanings of OR and ORI (44_or.md). -/

namespace Sys2Proof.Machine

/-- ORI `#<data>,CCR` (R203). -/
def execOriCcr (data : Byte) (s : State) : Outcome := runToCcr (.oriCcr data) .or data s

/-- ORI `#<data>,SR` (R204), privileged. -/
def execOriSr (data : Word) (s : State) : Outcome := runToSr (.oriSr data) .or data s

/-- ORI.B `#<data>,<ea>` (R202). -/
def execOriB (data : Byte) (ea : Ea) (s : State) : Outcome :=
  runImmToEa (.oriB data ea) .or .byte (data.setWidth 32) ea s

/-- ORI.W `#<data>,<ea>` (R202). -/
def execOriW (data : Word) (ea : Ea) (s : State) : Outcome :=
  runImmToEa (.oriW data ea) .or .word (data.setWidth 32) ea s

/-- ORI.L `#<data>,<ea>` (R202). -/
def execOriL (data : Long) (ea : Ea) (s : State) : Outcome :=
  runImmToEa (.oriL data ea) .or .long data ea s

/-- OR.B `<ea>,Dn` (R200). -/
def execOrBToReg (dn : Fin 8) (ea : Ea) (s : State) : Outcome :=
  runEaToReg (.orBToReg dn ea) .or .byte dn ea s

/-- OR.W `<ea>,Dn` (R200). -/
def execOrWToReg (dn : Fin 8) (ea : Ea) (s : State) : Outcome :=
  runEaToReg (.orWToReg dn ea) .or .word dn ea s

/-- OR.L `<ea>,Dn` (R200). -/
def execOrLToReg (dn : Fin 8) (ea : Ea) (s : State) : Outcome :=
  runEaToReg (.orLToReg dn ea) .or .long dn ea s

/-- OR.B `Dn,<ea>` (R201). -/
def execOrBToEa (dn : Fin 8) (ea : Ea) (s : State) : Outcome :=
  runRegToEa (.orBToEa dn ea) .or .byte dn ea s

/-- OR.W `Dn,<ea>` (R201). -/
def execOrWToEa (dn : Fin 8) (ea : Ea) (s : State) : Outcome :=
  runRegToEa (.orWToEa dn ea) .or .word dn ea s

/-- OR.L `Dn,<ea>` (R201). -/
def execOrLToEa (dn : Fin 8) (ea : Ea) (s : State) : Outcome :=
  runRegToEa (.orLToEa dn ea) .or .long dn ea s

end Sys2Proof.Machine
end

