-- ==== Sys2Proof/Machine/Dispatch.lean ====
section
/-! DEFINITION. The dispatch: one arm for each instruction, each a direct call of its meaning. -/

namespace Sys2Proof.Machine

def exec (i : Instr) (s : State) : Host.Outcome State Fault Refusal :=
  match i with
  | .oriCcr data => Sys2Proof.Machine.execOriCcr data s
  | .oriSr data => Sys2Proof.Machine.execOriSr data s
  | .oriB data ea => Sys2Proof.Machine.execOriB data ea s
  | .oriW data ea => Sys2Proof.Machine.execOriW data ea s
  | .oriL data ea => Sys2Proof.Machine.execOriL data ea s
  | .andiCcr data => Sys2Proof.Machine.execAndiCcr data s
  | .andiSr data => Sys2Proof.Machine.execAndiSr data s
  | .andiB data ea => Sys2Proof.Machine.execAndiB data ea s
  | .andiW data ea => Sys2Proof.Machine.execAndiW data ea s
  | .andiL data ea => Sys2Proof.Machine.execAndiL data ea s
  | .eoriCcr data => Sys2Proof.Machine.execEoriCcr data s
  | .eoriSr data => Sys2Proof.Machine.execEoriSr data s
  | .eoriB data ea => Sys2Proof.Machine.execEoriB data ea s
  | .eoriW data ea => Sys2Proof.Machine.execEoriW data ea s
  | .eoriL data ea => Sys2Proof.Machine.execEoriL data ea s
  | .notB ea => Sys2Proof.Machine.execNotB ea s
  | .notW ea => Sys2Proof.Machine.execNotW ea s
  | .notL ea => Sys2Proof.Machine.execNotL ea s
  | .orBToReg dn ea => Sys2Proof.Machine.execOrBToReg dn ea s
  | .orWToReg dn ea => Sys2Proof.Machine.execOrWToReg dn ea s
  | .orLToReg dn ea => Sys2Proof.Machine.execOrLToReg dn ea s
  | .orBToEa dn ea => Sys2Proof.Machine.execOrBToEa dn ea s
  | .orWToEa dn ea => Sys2Proof.Machine.execOrWToEa dn ea s
  | .orLToEa dn ea => Sys2Proof.Machine.execOrLToEa dn ea s
  | .andBToReg dn ea => Sys2Proof.Machine.execAndBToReg dn ea s
  | .andWToReg dn ea => Sys2Proof.Machine.execAndWToReg dn ea s
  | .andLToReg dn ea => Sys2Proof.Machine.execAndLToReg dn ea s
  | .andBToEa dn ea => Sys2Proof.Machine.execAndBToEa dn ea s
  | .andWToEa dn ea => Sys2Proof.Machine.execAndWToEa dn ea s
  | .andLToEa dn ea => Sys2Proof.Machine.execAndLToEa dn ea s
  | .eorBToEa dn ea => Sys2Proof.Machine.execEorBToEa dn ea s
  | .eorWToEa dn ea => Sys2Proof.Machine.execEorWToEa dn ea s
  | .eorLToEa dn ea => Sys2Proof.Machine.execEorLToEa dn ea s

end Sys2Proof.Machine
end

