-- ==== Sys2Proof/Machine/Fetch.lean ====
section
/-! DEFINITION. Instruction fetch (R54, R62), the events of an instruction boundary (R228, R229, R232, R240), and the two
halves of a step around exec (R241 of 60_exceptions.md). -/

namespace Sys2Proof.Machine

/-! ### Fetch -/

/-- One byte of the instruction stream: what is held of it from before a store, else memory; executed, it is held no
more (R62, R274, log 16). -/
def State.fetchByte (s : State) (a : Addr) : Byte × State :=
  match s.mapAt a false .prog with
  | .ram => (s.fetchView (s.phys a), { s with held := dropCell s.held (s.phys a) })
  | .rom => (s.fetchView (s.phys a), { s with held := dropCell s.held (s.phys a) })
  | .device => (Config.freeByte s.draws, s.drawn)
  | .nothing => (Config.freeByte s.draws, s.drawn)
  | .fault => (Config.freeByte s.draws, s.drawn)

/-- A word cycle of the instruction stream, big-endian (R51). -/
def State.fetchCycle (s : State) (a : Addr) : Word × State :=
  let (hi, s1) := s.busTurn.fetchByte a
  let (lo, s2) := s1.fetchByte (a + 1#32)
  (wordOfBytes hi lo, s2)

/-- `Fetch16(a)` (R54). -/
def State.fetch16 (s : State) (a : Addr) : Access Word :=
  if a.getLsbD 0 then .abort (s.misalignedAt a false .prog) s
  else if s.anyFault a false .prog 2 then .abort (s.busErrorAt a false .prog) s
  else .ok (s.fetchCycle a).1 (s.fetchCycle a).2

/-- The `n` extension words from `a` on, in order of increasing address (R60, R81). -/
def State.fetchWords (s : State) (a : Addr) : Nat → Access (List Word)
  | 0 => .ok [] s
  | n + 1 =>
    match s.fetch16 a with
    | .abort e s1 => .abort e s1
    | .ok w s1 =>
      match s1.fetchWords (a + 2#32) n with
      | .abort e s2 => .abort e s2
      | .ok ws s2 => .ok (w :: ws) s2

/-! ### A step around exec -/

/-- What comes before exec: the step is over, or an instruction is to run. -/
inductive Begun where
  | ended (o : Outcome)
  | run (i : Instr) (s : State)

/-- Fetch and decode (R241): the operation word; an illegal pattern, an out-of-scope word and a privilege violation are
decided on it alone (R223, R224); then the extension words. The operation word that a
fault of any of these fetches saves is free (R222). Logs 11, 20, 21. -/
def State.fetchInstr (s : State) : Begun :=
  match s.fetch16 s.pc with
  | .abort e s1 => .ended (.next (s1.takeGroupZero e false s.pc none))
  | .ok op s1 =>
    match classify op with
    | .outOfScope => .ended (.refused (.outOfScope op))
    | .illegal => .ended (.next (s1.takeIllegal op))
    | .form f =>
      if f.privileged && !s1.super then .ended (.next (s1.takePrivilege op))
      else
        match s1.fetchWords (s.pc + 2#32) f.extWords with
        | .abort e s2 => .ended (.next (s2.takeGroupZero e false s.pc none))
        | .ok ws s2 => .run (f.build ws) s2

/-- The boundary of a running processor (R229, R241): a reset, then a pending trace, then an interrupt, then the next
instruction. A step leaves a trace pending only where a reset comes first, and the reset drops it (log 19). The level the
reset's sample presents is the previous level at the next boundary (DESIGN CHOICE, log 33). -/
def State.beginRunning (s : State) : Begun :=
  if s.sample.reset then .ended (.next s.afterSample.resetSequence)
  else if s.tracePending then .ended (.next (s.takeTrace s.pc))
  else if s.accepts s.sample.level then
    .ended (.next (s.afterSample.takeInterrupt s.sample.level s.sample.vector))
  else s.afterSample.fetchInstr

/-- A Halted processor: only a reset leaves it (R232). Log 17. The level that the reset's sample presents, not that of a
sample passed over, is the previous level at the next boundary (DESIGN CHOICE, log 33). -/
def State.beginHalted (s : State) : Begun :=
  match fromReset s.inputs with
  | [] => .ended (.fault .halted)
  | x :: xs => .ended (.next { s with inputs := xs, irqLevel := x.level }.resetSequence)

/-- A Stopped processor: a reset or an interrupt leaves it (R240). Log 18. After a reset the previous level is that of
the reset's sample (DESIGN CHOICE, log 33). -/
def State.beginStopped (s : State) : Begun :=
  if s.inputs.isEmpty then .ended (.fault .stopped)
  else if s.sample.reset then .ended (.next s.afterSample.resetSequence)
  else if s.accepts s.sample.level then
    .ended (.next (s.afterSample.takeInterrupt s.sample.level s.sample.vector))
  else .ended (.next s.afterSample)

/-- The first half of a step. -/
def State.beginStep (s : State) : Begun :=
  match s.run with
  | .running => s.beginRunning
  | .halted => s.beginHalted
  | .stopped => s.beginStopped

/-- The second half: the trace exception of an instruction that completed with T set at its start (R227, R241). `pc0` is
the address of the instruction. A reset at the boundary reached is above the trace (R229): no frame is pushed, and the
next step is that reset. -/
def finishStep (pc0 : Addr) (o : Outcome) : Outcome :=
  match o with
  | .next s => if s.tracePending && !s.sample.reset then .next (s.takeTrace pc0) else .next s
  | .fault f => .fault f
  | .refused r => .refused r

/-- The end of a step begun in `s` that would have the outcome `o`: where a reset comes in the course of it, the step is
cut short and the reset sequence follows (R229, R270). Log 17. -/
def State.endStep (s : State) (o : Outcome) : Outcome :=
  if s.abortsStep then
    match o with
    | .next t => .next (s.cutShort t).resetSequence
    | .fault f => .fault f
    | .refused r => .refused r
  else o

/-- `s` with ten bytes, the longest instruction, stored from an address on, and nothing held of them. -/
def placeBytes (a : Addr) : List Byte → State → State
  | [], s => s
  | b :: bs, s =>
    placeBytes (a + 1#32) bs
      { s with mem := s.mem.write (s.phys a) b, held := dropCell s.held (s.phys a) }

end Sys2Proof.Machine
end

