-- ==== Sys2Proof/Machine/Step.lean ====
section
/-! DEFINITION. One step of the machine (R241 of 60_exceptions.md), and where the next instruction is fetched from. -/

namespace Sys2Proof.Machine

/-- One step: a boundary event, or one instruction with the exceptions it ends in (R241), unless a reset cuts it short
(R229). -/
def step (s : State) : Host.Outcome State Fault Refusal :=
  s.endStep
    (match s.beginStep with
     | .ended o => o
     | .run i s1 => finishStep s1.pc (exec i s1))

/-- `s` with an instruction, numbered as spec/opcode_table.json numbers bits, stored at the pc, so that the next step
runs it: the processor is running and the platform asks for nothing first. Log 5. -/
def State.withFetchWord (s : State) (nbits w : Nat) : State :=
  placeBytes s.pc (bytesOfWords (tableWords nbits w))
    { s with run := .running, inputs := [], busWrites := [], tracePending := false }

end Sys2Proof.Machine
end

