-- ==== Sys2Proof/Safety.lean ====
section
/-! DEFINITION. The terms claims use: plain storage, what an operand holds, what an instruction or an exception entry leaves,
the invariant of the machine, and the end of a run (R284). Nothing here is used by the machine. -/

namespace Sys2Proof.Machine

/-! ### Plain storage -/

/-- The `n` bytes at `a` answer a read with what memory holds (R54). -/
abbrev State.readsPlain (s : State) (a : Addr) (n : Nat) (sp : Space) : Prop :=
  ∀ k < n, s.mapAt (a + BitVec.ofNat 32 k) false sp = .ram ∨ s.mapAt (a + BitVec.ofNat 32 k) false sp = .rom

/-- The `n` bytes at `a` store what is written to them (R54). -/
abbrev State.writesPlain (s : State) (a : Addr) (n : Nat) : Prop :=
  ∀ k < n, s.mapAt (a + BitVec.ofNat 32 k) true .data = .ram

/-- An access of a size may be at `a` (R53). -/
abbrev alignedFor (sz : Size) (a : Addr) : Prop := sz = .byte ∨ a.getLsbD 0 = false

/-- The big-endian value of a size at an address (R51), zero above the size. -/
def State.valueAt (s : State) (a : Addr) (sz : Size) : Long :=
  match sz with
  | .byte => (s.byteAt a).setWidth 32
  | .word => (s.byteAt a ++ s.byteAt (a + 1#32)).setWidth 32
  | .long => s.byteAt a ++ s.byteAt (a + 1#32) ++ s.byteAt (a + 2#32) ++ s.byteAt (a + 3#32)

/-- The byte at `b` is none of the `n` bytes at `a`. -/
abbrev State.outside (s : State) (a : Addr) (n : Nat) (b : Addr) : Prop :=
  ∀ k < n, s.phys b ≠ s.phys (a + BitVec.ofNat 32 k)

/-- The byte that an instruction fetch at an address as the processor gives it would see (R62). -/
def State.streamAt (s : State) (a : Addr) : Byte := s.fetchView (s.phys a)

/-- The byte at an address is as it was, in memory and for an instruction fetch (R62, R274). -/
abbrev State.sameAt (s t : State) (b : Addr) : Prop := t.byteAt b = s.byteAt b ∧ t.streamAt b = s.streamAt b

/-- The words of the instruction stream from an address on, as memory holds them. -/
def State.wordsAt (s : State) (a : Addr) : Nat → List Word
  | 0 => []
  | n + 1 => wordOfBytes (s.byteAt a) (s.byteAt (a + 1#32)) :: s.wordsAt (a + 2#32) n

/-! ### Operands -/

/-- What an operand holds (R134). -/
def locValue (s : State) (loc : Loc) (sz : Size) : Long :=
  match loc with
  | .dreg n => s.dReg n &&& sz.mask
  | .mem a _ => s.valueAt a sz
  | .imm v => v &&& sz.mask

/-- An operand can be read: a memory operand is aligned and lies in plain storage. -/
def locReadable (s : State) (loc : Loc) (sz : Size) : Prop :=
  match loc with
  | .dreg _ => True
  | .mem a sp => alignedFor sz a ∧ s.readsPlain a sz.bytes sp
  | .imm _ => True

/-- The `<ea>` operand of an instruction: its size, and how far its extension words are from the operation word. -/
def operandOf (i : Instr) : Option (Size × Ea × Nat) :=
  match i.shape with
  | .toCcr _ _ => none
  | .toSr _ _ => none
  | .immToEa _ sz _ ea => some (sz, ea, 2 + immBytes sz)
  | .notEa sz ea => some (sz, ea, 2)
  | .eaToReg _ sz _ ea => some (sz, ea, 2)
  | .regToEa _ sz _ ea => some (sz, ea, 2)

/-- The data register an instruction writes, if it writes one (R135, R150, R200). -/
def destReg (i : Instr) : Option (Fin 8) :=
  match i.shape with
  | .immToEa _ _ _ (.dreg n) => some n
  | .notEa _ (.dreg n) => some n
  | .eaToReg _ _ dn _ => some dn
  | .regToEa _ _ _ (.dreg n) => some n
  | _ => none

/-- What a read-modify-write instruction makes of the operand value `x` (R151, R152, R170, R171, R190, R201, R202). -/
def modifiedValue (i : Instr) (s : State) (x : Long) : Long :=
  match i.shape with
  | .immToEa o _ data _ => logicOp o x data
  | .notEa sz _ => notOp sz x
  | .regToEa o sz dn _ => logicOp o x (s.dReg dn &&& sz.mask)
  | _ => x

/-- The address register an operand steps, if it steps one (R124, R125). -/
def steppedReg : Ea → Option (Fin 8)
  | .postinc n => some n
  | .predec n => some n
  | _ => none

/-- `A[n]` has become `v` and nothing else has changed (R22, R124, R125): no data register, no other address register, not
the stack pointer that A7 does not name, not memory. -/
def AddressRegisterSet (s t : State) (n : Fin 8) (v : Long) : Prop :=
  t.aReg n = v ∧ (∀ m, m ≠ n → t.aReg m = s.aReg m)
  ∧ (s.super = true → t.usp = s.usp) ∧ (s.super = false → t.ssp = s.ssp)
  ∧ t = { s with a := t.a, usp := t.usp, ssp := t.ssp }

/-- SR with the flags of a result (R139): X and SR[15:5] kept, V and C cleared. -/
def flaggedSr (sr : Word) (sz : Size) (r : Long) : Word :=
  (sr &&& 0xFFF0#16) ||| (if r.getLsbD sz.msb then 0x0008#16 else 0#16) ||| (if r = 0#32 then 0x0004#16 else 0#16)

/-! ### What an instruction leaves -/

/-- An instruction of `len` bytes has completed with result `r` in the data register `n`: the register's part of the size,
the address registers as the operand's side effect leaves them, the flags and the pc; everything else, memory included,
is as before. -/
def RegWritten (s t : State) (ea : Ea) (sz : Size) (n : Fin 8) (r : Long) (len : Nat) : Prop :=
  t = { s with
        a := (eaStep ea sz s).a
        usp := (eaStep ea sz s).usp
        ssp := (eaStep ea sz s).ssp
        d := s.d.set n ((s.d[n] &&& ~~~sz.mask) ||| r)
        sr := flaggedSr s.sr sz r
        pc := s.pc + BitVec.ofNat 32 len
        tracePending := s.traceBit }

/-- An instruction of `len` bytes has completed with result `r` stored at `a`: the stored bytes, the address registers as
the operand's side effect leaves them, the flags and the pc; every other byte, in memory and for an instruction fetch, and
everything else is as before, but for the counter of free values. A fetch of a stored byte sees the new byte or what it saw
before (R274). -/
def MemWritten (s t : State) (ea : Ea) (sz : Size) (a : Addr) (r : Long) (len : Nat) : Prop :=
  (∃ m h k, t = { s with
                  a := (eaStep ea sz s).a
                  usp := (eaStep ea sz s).usp
                  ssp := (eaStep ea sz s).ssp
                  mem := m
                  held := h
                  draws := k
                  sr := flaggedSr s.sr sz r
                  pc := s.pc + BitVec.ofNat 32 len
                  tracePending := s.traceBit })
  ∧ t.valueAt a sz = r
  ∧ (∀ b, s.outside a sz.bytes b → s.sameAt t b)
  ∧ ∀ b, t.streamAt b = t.byteAt b ∨ t.streamAt b = s.streamAt b

/-- What a long store of `r` at `a` that a bus error stopped has done (R55, U7): nothing outside the four bytes, and each
of the two words is as before, or it is one that the map does not fault and has been written (its RAM bytes, R54). A fetch
of any of the bytes sees what it saw before or what is in memory now (R274). -/
def PartlyStored (s u : State) (a : Addr) (r : Long) : Prop :=
  (∀ b, s.outside a 4 b → s.sameAt u b)
  ∧ (∀ b, u.streamAt b = u.byteAt b ∨ u.streamAt b = s.streamAt b)
  ∧ ∀ j < 2,
    (∀ k < 2, u.byteAt (a + BitVec.ofNat 32 (2 * j + k)) = s.byteAt (a + BitVec.ofNat 32 (2 * j + k)))
    ∨ (∀ k < 2, s.mapAt (a + BitVec.ofNat 32 (2 * j + k)) true .data ≠ .fault
      ∧ u.byteAt (a + BitVec.ofNat 32 (2 * j + k))
        = if s.mapAt (a + BitVec.ofNat 32 (2 * j + k)) true .data = .ram then r.extractLsb' (24 - 8 * (2 * j + k)) 8
          else s.byteAt (a + BitVec.ofNat 32 (2 * j + k)))

/-! ### What an exception entry leaves -/

/-- The `n` bytes of a frame can be stacked and vector `v` read (R221, R222), with no other bus master at work. -/
def State.canEnter (s : State) (n : Nat) (v : BitVec 8) : Prop :=
  s.busWrites = [] ∧ s.ssp.getLsbD 0 = false
  ∧ s.enterSupervisor.writesPlain (s.ssp - BitVec.ofNat 32 n) n
  ∧ s.enterSupervisor.readsPlain (v.setWidth 32 <<< 2) 4 .data

/-- SR after an exception entry: S set, T cleared, the mask at the level of an interrupt, the other bits kept
(R221, R222). -/
def EnteredSr (sr sr' : Word) (level : Option (BitVec 3)) : Prop :=
  sr'.getLsbD 15 = false ∧ sr'.getLsbD 13 = true
  ∧ sr'.extractLsb' 8 3 = level.getD (sr.extractLsb' 8 3)
  ∧ ∀ k, k ≠ 15 → k ≠ 13 → ¬ (8 ≤ k ∧ k ≤ 10) → sr'.getLsbD k = sr.getLsbD k

/-- Entry with the short frame (R221): the frame is the old SR at SSP and the saved pc above it, also for an instruction
fetch of its bytes (R62); the pc is the vector's long, and everything else is as before. -/
def ShortEntered (s t : State) (v : BitVec 8) (level : Option (BitVec 3)) (pcSaved : Addr) : Prop :=
  (∃ m h sr', EnteredSr s.sr sr' level
    ∧ t = { s with
            mem := m
            held := h
            sr := sr'
            ssp := s.ssp - 6#32
            pc := t.valueAt (v.setWidth 32 <<< 2) .long
            tracePending := false })
  ∧ t.valueAt (s.ssp - 6#32) .word = s.srValue.setWidth 32
  ∧ t.valueAt (s.ssp - 4#32) .long = pcSaved
  ∧ ∀ b, (s.outside (s.ssp - 6#32) 6 b → s.sameAt t b) ∧ (¬ s.outside (s.ssp - 6#32) 6 b → t.streamAt b = t.byteAt b)

/-- Entry with the long frame (R222). `low` is bits 4:0 of the first word; `ir` the operation word where the spec fixes
it; the saved pc is an even address in `[pc0 + 2, pc0 + 10]`. Every byte outside the frame is as before, in memory and for
an instruction fetch, and a fetch of one inside sees what memory holds (R62). -/
def LongEntered (s t : State) (v : BitVec 8) (low : BitVec 5) (faultAddr pc0 : Addr) (ir : Option Word) : Prop :=
  (∃ m h k sr', EnteredSr s.sr sr' none
    ∧ t = { s with
            mem := m
            held := h
            draws := k
            sr := sr'
            ssp := s.ssp - 14#32
            pc := t.valueAt (v.setWidth 32 <<< 2) .long
            tracePending := false })
  ∧ (t.valueAt (s.ssp - 14#32) .word).setWidth 5 = low
  ∧ t.valueAt (s.ssp - 12#32) .long = faultAddr
  ∧ (∀ w, ir = some w → t.valueAt (s.ssp - 8#32) .word = w.setWidth 32)
  ∧ t.valueAt (s.ssp - 6#32) .word = s.srValue.setWidth 32
  ∧ (∃ p, t.valueAt (s.ssp - 4#32) .long = p ∧ p.getLsbD 0 = false
      ∧ 2 ≤ (p - pc0).toNat ∧ (p - pc0).toNat ≤ 10)
  ∧ ∀ b, (s.outside (s.ssp - 14#32) 14 b → s.sameAt t b)
    ∧ (¬ s.outside (s.ssp - 14#32) 14 b → t.streamAt b = t.byteAt b)

/-! ### Fetching -/

/-- No reset comes at this boundary or in the course of the step it begins (R229, R270). -/
abbrev State.noReset (s : State) : Prop := s.sample.reset = false ∧ s.sample.abort = false

/-- At this boundary the processor goes on to fetch: it is running, and no reset, trace exception or interrupt comes first
(R229, R241). -/
abbrev State.undisturbed (s : State) : Prop :=
  s.run = .running ∧ s.tracePending = false ∧ s.noReset
  ∧ ¬ (s.mask < s.sample.level ∨ (s.sample.level = 7#3 ∧ s.irqLevel < 7#3))

/-- At this boundary the processor fetches its next instruction: nothing comes first, no other master is at work, nothing
is held of the instruction stream, and the pc is even (R53). -/
def State.readyToFetch (s : State) : Prop :=
  s.undisturbed ∧ s.busWrites = [] ∧ s.held = [] ∧ s.pc.getLsbD 0 = false

/-- The operation words of the ORI, ANDI and EORI group (R86, R90 item 1). -/
def immediateGroup (w : Nat) : Prop :=
  w / 4096 = 0 ∧ w / 256 % 2 = 0 ∧ (w / 512 % 8 = 0 ∨ w / 512 % 8 = 1 ∨ w / 512 % 8 = 5)

/-- The operation words of AND and OR, direction `<ea>,Dn` (R89). -/
def toRegGroup (w : Nat) : Prop :=
  (w / 4096 = 8 ∨ w / 4096 = 12) ∧ w / 256 % 2 = 0 ∧ w / 64 % 4 ≠ 3

/-- The operation words of AND, OR and EOR, direction `Dn,<ea>` (R89). -/
def toEaGroup (w : Nat) : Prop :=
  (w / 4096 = 8 ∨ w / 4096 = 11 ∨ w / 4096 = 12) ∧ w / 256 % 2 = 1 ∧ w / 64 % 4 ≠ 3

/-- The operation words of NOT (R88). -/
def notGroup (w : Nat) : Prop := w / 256 = 0x46 ∧ w / 64 % 4 ≠ 3

/-- The table of illegal patterns, row by row (R93). -/
def illegalPattern (op : Word) : Prop :=
  let w := op.toNat
  let mode := w / 8 % 8
  let reg := w % 8
  (immediateGroup w ∧ w / 64 % 4 = 3)
  ∨ (immediateGroup w ∧ mode = 1)
  ∨ (immediateGroup w ∧ mode = 7 ∧ (reg = 2 ∨ reg = 3))
  ∨ (immediateGroup w ∧ mode = 7 ∧ reg = 4 ∧ w / 64 % 4 = 2)
  ∨ ((immediateGroup w ∨ notGroup w ∨ toRegGroup w ∨ toEaGroup w) ∧ mode = 7 ∧ 5 ≤ reg)
  ∨ (notGroup w ∧ mode = 1)
  ∨ (notGroup w ∧ mode = 7 ∧ 2 ≤ reg ∧ reg ≤ 4)
  ∨ (toRegGroup w ∧ mode = 1)
  ∨ (toEaGroup w ∧ mode = 7 ∧ 2 ≤ reg ∧ reg ≤ 4)
  ∨ (toEaGroup w ∧ w / 4096 = 8 ∧ 1 ≤ w / 64 % 4 ∧ mode ≤ 1)
  ∨ (toEaGroup w ∧ w / 4096 = 12 ∧ w / 64 % 4 = 2 ∧ mode = 0)

/-! ### Invariant -/

/-- What every step keeps: memory in canonical form and within the physical address space, the not-implemented bits of SR
zero (R27), what is held of the instruction stream in order, and no trace exception left over but at a boundary where a
reset comes first (R227, R229). -/
structure State.Inv (s : State) : Prop where
  memWf : s.mem.wf = true
  memBound : ∀ c ∈ s.mem, c.1 < 2 ^ s.physBits
  reserved : s.sr &&& srImplMask = s.sr
  heldRising : risingFrom 0 s.held = true
  heldBound : ∀ c ∈ s.held, c.1 < 2 ^ s.physBits
  noTraceDue : s.tracePending = true → s.sample.reset = true

/-! ### Runs -/

/-- A run is over: the pc is at `END_PC` at a boundary, with no trace exception due (R284). -/
def State.final (endPc : Addr) (s : State) : Bool := s.run == .running && s.pc == endPc && !s.tracePending

/-- How a run of at most so many steps ends (R284). -/
inductive RunEnd
  /-- the final state -/
  | final (s : State)
  /-- still under way -/
  | going (s : State)
  /-- Halted or Stopped: no final state -/
  | stuck (f : Fault)
  /-- an instruction outside the spec: no final state -/
  | refused (r : Refusal)
  deriving DecidableEq, Repr

/-- A run (R284): it ends before the fetch at `END_PC` and before the interrupt check there, and it is stuck as soon as it
reaches Halted, whatever the platform does after. -/
def runUntil (endPc : Addr) : Nat → State → RunEnd
  | 0, s => if s.run = .halted then .stuck .halted else if s.final endPc then .final s else .going s
  | n + 1, s =>
    if s.run = .halted then .stuck .halted
    else if s.final endPc then .final s
    else
      match step s with
      | .next s' => runUntil endPc n s'
      | .fault f => .stuck f
      | .refused r => .refused r

end Sys2Proof.Machine
end

