-- ==== Sys2Proof/Certificates/Slice0/Obligations.lean ====
section
/-! DEFINITION. The statements about the machine, each formalising or resting on rules of spec/. -/

open Sys2Proof Sys2Proof.Machine

/-! ### Operations, flags, operands -/

/-- R138 of 40_operands.md: the operations bit by bit, NotOp as subtraction and as exclusive or, and the laws. -/
def Obligations.LogicOperationsAreBitwise : Prop :=
  (∀ (x y : Long) (k : Nat),
    (logicOp .and x y).getLsbD k = (x.getLsbD k && y.getLsbD k)
    ∧ (logicOp .or x y).getLsbD k = (x.getLsbD k || y.getLsbD k)
    ∧ (logicOp .eor x y).getLsbD k = (x.getLsbD k ^^ y.getLsbD k))
  ∧ (∀ (sz : Size) (x : Long), x &&& sz.mask = x →
    notOp sz x = sz.mask - x ∧ notOp sz x = logicOp .eor x sz.mask
    ∧ (∀ k, k ≤ sz.msb → (notOp sz x).getLsbD k = !x.getLsbD k)
    ∧ notOp sz (notOp sz x) = x
    ∧ logicOp .and x sz.mask = x ∧ logicOp .or x sz.mask = sz.mask)
  ∧ (∀ (x y : Long),
    logicOp .and x x = x ∧ logicOp .or x x = x ∧ logicOp .eor x x = 0#32
    ∧ logicOp .and x 0#32 = 0#32 ∧ logicOp .or x 0#32 = x ∧ logicOp .eor x 0#32 = x
    ∧ ∀ o, logicOp o x y = logicOp o y x)

/-- R139 of 40_operands.md: N is the result's top bit in the operation's size, Z says that it is zero, V and C are
cleared, X and SR[15:5] are kept, nothing but SR changes, and N and Z are never both set. -/
def Obligations.LogicFlagsSetNZClearVC : Prop :=
  ∀ (sz : Size) (r : Long) (s : State),
    (logicFlags sz r s).sr.getLsbD 3 = r.getLsbD sz.msb
    ∧ (logicFlags sz r s).sr.getLsbD 2 = decide (r = 0#32)
    ∧ (logicFlags sz r s).sr.getLsbD 1 = false
    ∧ (logicFlags sz r s).sr.getLsbD 0 = false
    ∧ (∀ k, 4 ≤ k → (logicFlags sz r s).sr.getLsbD k = s.sr.getLsbD k)
    ∧ logicFlags sz r s = { s with sr := (logicFlags sz r s).sr }
    ∧ ¬ ((logicFlags sz r s).sr.getLsbD 3 = true ∧ (logicFlags sz r s).sr.getLsbD 2 = true)

/-- R136 of 40_operands.md: the step of postincrement and predecrement, 2 for a byte through A7; a byte through -(A7) is
accessed at A7 - 2. -/
def Obligations.ByteStepThroughStackPointerIsTwo : Prop :=
  (∀ (n : Fin 8) (sz : Size), ¬ (n = 7 ∧ sz = .byte) → stepSize n sz = BitVec.ofNat 32 sz.bytes)
  ∧ stepSize 7 .byte = 2#32
  ∧ (∀ (s : State) (cur : Addr), eaLoc (.predec 7) .byte cur s = .mem (s.aReg 7 - 2#32) .data
    ∧ eaLoc (.postinc 7) .byte cur s = .mem (s.aReg 7) .data
    ∧ (eaStep (.predec 7) .byte s).aReg 7 = s.aReg 7 - 2#32
    ∧ (eaStep (.postinc 7) .byte s).aReg 7 = s.aReg 7 + 2#32)

/-- R121, R123 and R125 to R132 of 40_operands.md: for each addressing mode its code, its number of extension words, the
operand they make, where it lies and what it does: nothing, or for (An)+ and -(An) a new value of `A[n]` and nothing
else (R124). -/
def Obligations.AddressingModesLocateOperands : Prop :=
  ∀ (n : Fin 8) (sz : Size) (s : State) (cur : Addr) (hi lo : Word),
    (eaField 0 n.val = some (.dreg n) ∧ EaField.words sz (.dreg n) = 0
      ∧ eaLoc (.dreg n) sz cur s = .dreg n ∧ eaStep (.dreg n) sz s = s)
    ∧ (eaField 2 n.val = some (.ind n) ∧ EaField.words sz (.ind n) = 0
      ∧ eaLoc (.ind n) sz cur s = .mem (s.aReg n) .data ∧ eaStep (.ind n) sz s = s)
    ∧ (eaField 3 n.val = some (.postinc n) ∧ EaField.words sz (.postinc n) = 0
      ∧ eaLoc (.postinc n) sz cur s = .mem (s.aReg n) .data
      ∧ AddressRegisterSet s (eaStep (.postinc n) sz s) n (s.aReg n + stepSize n sz))
    ∧ (eaField 4 n.val = some (.predec n) ∧ EaField.words sz (.predec n) = 0
      ∧ eaLoc (.predec n) sz cur s = .mem (s.aReg n - stepSize n sz) .data
      ∧ AddressRegisterSet s (eaStep (.predec n) sz s) n (s.aReg n - stepSize n sz))
    ∧ (eaField 5 n.val = some (.disp n) ∧ EaField.words sz (.disp n) = 1
      ∧ eaLoc (eaOfWords sz [hi] (.disp n)) sz cur s = .mem (s.aReg n + hi.signExtend 32) .data
      ∧ eaStep (eaOfWords sz [hi] (.disp n)) sz s = s)
    ∧ (eaField 6 n.val = some (.index n) ∧ EaField.words sz (.index n) = 1
      ∧ eaLoc (eaOfWords sz [hi] (.index n)) sz cur s
          = .mem (s.aReg n + s.indexValue (indexOfWord hi) + (hi.setWidth 8).signExtend 32) .data
      ∧ eaStep (eaOfWords sz [hi] (.index n)) sz s = s)
    ∧ (eaField 7 0 = some .absShort ∧ EaField.words sz .absShort = 1
      ∧ eaLoc (eaOfWords sz [hi] .absShort) sz cur s = .mem (hi.signExtend 32) .data
      ∧ eaStep (eaOfWords sz [hi] .absShort) sz s = s)
    ∧ (eaField 7 1 = some .absLong ∧ EaField.words sz .absLong = 2
      ∧ eaLoc (eaOfWords sz [hi, lo] .absLong) sz cur s = .mem (hi ++ lo) .data
      ∧ eaStep (eaOfWords sz [hi, lo] .absLong) sz s = s)
    ∧ (eaField 7 2 = some .pcDisp ∧ EaField.words sz .pcDisp = 1
      ∧ eaLoc (eaOfWords sz [hi] .pcDisp) sz cur s = .mem (cur + hi.signExtend 32) .prog
      ∧ eaStep (eaOfWords sz [hi] .pcDisp) sz s = s)
    ∧ (eaField 7 3 = some .pcIndex ∧ EaField.words sz .pcIndex = 1
      ∧ eaLoc (eaOfWords sz [hi] .pcIndex) sz cur s
          = .mem (cur + s.indexValue (indexOfWord hi) + (hi.setWidth 8).signExtend 32) .prog
      ∧ eaStep (eaOfWords sz [hi] .pcIndex) sz s = s)
    ∧ (eaField 7 4 = some .imm
      ∧ EaField.words .byte .imm = 1 ∧ EaField.words .word .imm = 1 ∧ EaField.words .long .imm = 2
      ∧ eaOfWords .byte [hi] .imm = .imm ((hi.setWidth 8).setWidth 32)
      ∧ eaOfWords .word [hi] .imm = .imm (hi.setWidth 32)
      ∧ eaOfWords .long [hi, lo] .imm = .imm (hi ++ lo)
      ∧ ∀ v, eaLoc (.imm v) sz cur s = .imm v ∧ eaStep (.imm v) sz s = s)

/-- R133 of 40_operands.md: the index is a data or an address register, whole or its sign-extended low word; bits 10:8
of the extension word are ignored. -/
def Obligations.IndexRegisterAndSize : Prop :=
  ∀ (s : State) (w : Word),
    s.indexValue (indexOfWord w)
      = (if w.getLsbD 11 then
          (if w.getLsbD 15 then s.aReg (regNumber (w.toNat / 4096)) else s.dReg (regNumber (w.toNat / 4096)))
        else
          ((if w.getLsbD 15 then s.aReg (regNumber (w.toNat / 4096))
            else s.dReg (regNumber (w.toNat / 4096))).setWidth 16).signExtend 32)
    ∧ (regNumber (w.toNat / 4096)).val = (w.extractLsb' 12 3).toNat
    ∧ ∀ w', w' &&& 0xF8FF#16 = w &&& 0xF8FF#16 → indexOfWord w' = indexOfWord w

/-- R134 of 40_operands.md: ReadLoc of a data register gives its low part, of memory what MemRead gives, of an immediate
its value; and the value is below 2^bits of the size. -/
def Obligations.ReadLocGivesValueOfSize : Prop :=
  ∀ (sz : Size) (s : State),
    (∀ n, readLoc (.dreg n) sz s = .ok (s.dReg n &&& sz.mask) s)
    ∧ (∀ a sp, readLoc (.mem a sp) sz s = s.memRead a sz sp)
    ∧ (∀ v, v &&& sz.mask = v → readLoc (.imm v) sz s = .ok v s)
    ∧ (∀ loc v t, readLoc loc sz s = .ok v t → v.toNat < 2 ^ sz.bits)

/-- R135 of 40_operands.md: WriteLoc to a data register changes the low part and no other register, to memory it is
MemWrite, and an immediate is never written. That a store into the prefetch window completes, and touches beyond MemWrite
only what is held of the instruction stream and the counter of free values, is the model's choice (log 15) among those
R274 allows; R274's default is to refuse. -/
def Obligations.WriteLocKeepsUpperBits : Prop :=
  ∀ (sz : Size) (s : State) (v : Long) (pc0 : Addr) (len : Nat),
    (∀ n, ∃ t, writeLoc (.dreg n) sz v pc0 len s = .ok () t
      ∧ t.dReg n &&& sz.mask = v &&& sz.mask ∧ t.dReg n &&& ~~~sz.mask = s.dReg n &&& ~~~sz.mask
      ∧ (∀ m, m ≠ n → t.dReg m = s.dReg m) ∧ t = { s with d := t.d })
    ∧ (∀ a sp t, s.memWrite a sz v = .ok () t → ∃ h k,
        writeLoc (.mem a sp) sz v pc0 len s = .ok () { t with held := h, draws := k })
    ∧ (∀ a sp e t, s.memWrite a sz v = .abort e t → ∃ h k,
        writeLoc (.mem a sp) sz v pc0 len s = .abort e { t with held := h, draws := k })
    ∧ (∀ w, writeLoc (.imm w) sz v pc0 len s = .ok () s)

/-! ### Memory -/

/-- R51 of 20_memory.md: big-endian, for data and for instruction fetch, with mixed widths seeing the same bytes; and
every long immediate and every Absolute Long operand is encoded, and read, with its high word first. -/
def Obligations.MemoryIsBigEndian : Prop :=
  (∀ (s : State) (a : Addr) (v : Long), s.busWrites = [] → a.getLsbD 0 = false →
    s.writesPlain a 4 → s.readsPlain a 4 .data → s.readsPlain a 4 .prog →
    ∃ t, s.memWrite a .long v = .ok () t
      ∧ t.memRead a .byte .data = .ok ((v.extractLsb' 24 8).setWidth 32) t
      ∧ t.memRead (a + 3#32) .byte .data = .ok ((v.extractLsb' 0 8).setWidth 32) t
      ∧ t.memRead a .word .data = .ok ((v.extractLsb' 16 16).setWidth 32) t
      ∧ t.memRead (a + 2#32) .word .data = .ok ((v.extractLsb' 0 16).setWidth 32) t
      ∧ t.memRead a .long .data = .ok v t
      ∧ (∃ u, t.fetch16 a = .ok (v.extractLsb' 16 16) u)
      ∧ (∃ u, t.fetch16 (a + 2#32) = .ok (v.extractLsb' 0 16) u))
  ∧ (∀ (v : Long) (ea : Ea) (i : Instr), i ∈ [Instr.oriL v ea, .andiL v ea, .eoriL v ea] →
    encode i = opWord i :: v.extractLsb' 16 16 :: v.extractLsb' 0 16 :: ea.extension .long)
  ∧ (∀ (v : Long) (n : Fin 8) (i : Instr), i ∈ [Instr.orLToReg n (.imm v), .andLToReg n (.imm v)] →
    encode i = [opWord i, v.extractLsb' 16 16, v.extractLsb' 0 16])
  ∧ (∀ (v : Long) (i : Instr) (sz : Size) (off : Nat), operandOf i = some (sz, .absLong v, off) →
    (encode i).drop (off / 2) = [v.extractLsb' 16 16, v.extractLsb' 0 16])
  ∧ (∀ (hi lo : Word) (ws : List Word) (sz : Size), immOfWords .long (hi :: lo :: ws) = hi ++ lo
    ∧ eaOfWords .long (hi :: lo :: ws) .imm = .imm (hi ++ lo)
    ∧ eaOfWords sz (hi :: lo :: ws) .absLong = .absLong (hi ++ lo))
  ∧ (∀ (w : Word) (ws : List Word), bytesOfWords (w :: ws) = w.extractLsb' 8 8 :: w.extractLsb' 0 8 :: bytesOfWords ws)

/-- R53 of 20_memory.md: a word or long access and every fetch at an odd address is not made and raises AddressError;
a byte access never does, nor an even one. -/
def Obligations.OddAddressRaisesAddressError : Prop :=
  ∀ (s : State) (a : Addr) (sp : Space) (v : Long),
    (∀ sz, sz ≠ .byte → a.getLsbD 0 = true →
      s.memRead a sz sp = .abort (s.misalignedAt a false sp) s
      ∧ s.memWrite a sz v = .abort (s.misalignedAt a true .data) s)
    ∧ (a.getLsbD 0 = true → s.fetch16 a = .abort (s.misalignedAt a false .prog) s)
    ∧ (∀ sz, (sz = .byte ∨ a.getLsbD 0 = false) →
      (∀ e t, s.memRead a sz sp = .abort e t → e.misaligned = false)
      ∧ (∀ e t, s.memWrite a sz v = .abort e t → e.misaligned = false))
    ∧ (a.getLsbD 0 = false → ∀ e t, s.fetch16 a = .abort e t → e.misaligned = false)

/-- R54 and R59 of 20_memory.md: an aligned access one of whose bytes the map answers with Fault raises BusError with the
address of the access; a read leaves the state as it was, a byte or word write too. That a faulted read leaves even the
coming turns of other bus masters as they were is the model's choice: for a long, neither of whose halves then counts as
done (R55, U7), DESIGN CHOICE, log 34; and a cycle that is not made takes no turn, DESIGN CHOICE, log 29. -/
def Obligations.MapFaultRaisesBusError : Prop :=
  ∀ (s : State) (a : Addr) (sz : Size) (sp : Space) (v : Long) (k : Nat), alignedFor sz a → k < sz.bytes →
    (s.mapAt (a + BitVec.ofNat 32 k) false sp = .fault →
      s.memRead a sz sp = .abort (s.busErrorAt a false sp) s)
    ∧ (s.mapAt (a + BitVec.ofNat 32 k) true .data = .fault →
      ∃ t, s.memWrite a sz v = .abort (s.busErrorAt a true .data) t ∧ (sz ≠ .long → t = s))

/-- A write to Rom, Device or Nothing completes and leaves the state as it was. R54 of 20_memory.md says so of Rom; of
Device and Nothing it says that the effect of a write is the platform's, and that it is nothing is the model's choice
(log 8). -/
def Obligations.RomAndDeviceWritesStoreNothing : Prop :=
  ∀ (s : State) (a : Addr) (sz : Size) (v : Long), s.busWrites = [] → alignedFor sz a →
    (∀ k < sz.bytes, s.mapAt (a + BitVec.ofNat 32 k) true .data = .rom
      ∨ s.mapAt (a + BitVec.ofNat 32 k) true .data = .device
      ∨ s.mapAt (a + BitVec.ofNat 32 k) true .data = .nothing) →
    s.memWrite a sz v = .ok () s

/-- What another bus master writes before a bus cycle is in memory when the cycle is made, here one byte and a byte read.
R60 of 20_memory.md lets other masters write between any two cycles; that the turn comes before the cycle and reaches
memory whatever the map answers, Rom included, is the model's choice (log 29). -/
def Obligations.BusMasterWritesAreSeenByTheNextCycle : Prop :=
  ∀ (s : State) (a : Addr) (b : Byte) (sp : Space) (rest : List (List Host.Cell)),
    s.busWrites = [(s.phys a, b)] :: rest → s.readsPlain a 1 sp →
    ∃ t, s.memRead a .byte sp = .ok (b.setWidth 32) t ∧ t.byteAt a = b ∧ t.busWrites = rest

/-- R62 and R274: of a store by the instruction at `pc0`, every byte outside the prefetch window is fetched as stored;
of the bytes in it, either all are fetched as stored or all as they were fetched before; a byte that is not stored to is
fetched as before. That such a store gives a
result, where R274's default is to refuse, is the model's choice (log 15). -/
def Obligations.PrefetchWindowShowsOldOrNewBytes : Prop :=
  ∀ (s t : State) (a : Addr) (sp : Space) (sz : Size) (v : Long) (pc0 : Addr) (len : Nat),
    s.busWrites = [] → alignedFor sz a → s.writesPlain a sz.bytes →
    writeLoc (.mem a sp) sz v pc0 len s = .ok () t →
    (∀ k < sz.bytes, s.inWindow pc0 len (a + BitVec.ofNat 32 k) = false →
      t.fetchView (s.phys (a + BitVec.ofNat 32 k)) = t.byteAt (a + BitVec.ofNat 32 k))
    ∧ ((∀ k < sz.bytes, t.fetchView (s.phys (a + BitVec.ofNat 32 k)) = t.byteAt (a + BitVec.ofNat 32 k))
      ∨ (∀ k < sz.bytes, s.inWindow pc0 len (a + BitVec.ofNat 32 k) = true →
        t.fetchView (s.phys (a + BitVec.ofNat 32 k)) = s.fetchView (s.phys (a + BitVec.ofNat 32 k))))
    ∧ (∀ b, s.outside a sz.bytes b → s.sameAt t b)

/-! ### The status register forms -/

/-- R27 of 10_state.md: what a write of SR and of the CCR stores, and its consequences for ORI to SR, ORI to CCR and the
SR word that an exception entry pushes, in the short frame and in the long one. -/
def Obligations.NotImplementedSrBitsStayZero : Prop :=
  (∀ s : State, s.srValue &&& 0x58E0#16 = 0#16)
  ∧ (∀ (s : State) (v : Word), (s.writeSr v).sr = v &&& 0xA71F#16)
  ∧ (∀ (s : State) (v : Byte), (s.writeCcr v).sr &&& 0x001F#16 = v.setWidth 16 &&& 0x001F#16
    ∧ (s.writeCcr v).sr &&& 0xFFE0#16 = s.sr &&& 0xFFE0#16)
  ∧ (∀ s : State, s.super = true → ∃ t, exec (.oriSr 0xFFFF#16) s = .next t ∧ t.sr = 0xA71F#16)
  ∧ (∀ s : State, s.sr &&& srImplMask = s.sr →
    ∃ t, exec (.oriCcr 0xFF#8) s = .next t ∧ t.sr.setWidth 8 = 0x1F#8)
  ∧ (∀ (s : State) (v : BitVec 8) (level : Option (BitVec 3)) (pcSaved pc0 : Addr) (ir : Option Word),
    s.canEnter 6 v →
    (s.takeShort v level pcSaved pc0 ir).valueAt (s.ssp - 6#32) .word &&& 0xFFFF58E0#32 = 0#32)
  ∧ (∀ (s : State) (e : AccessFault) (inEntry : Bool) (pc0 : Addr) (ir : Option Word),
    s.canEnter 14 (if e.misaligned then 3#8 else 2#8) →
    (s.takeGroupZero e inEntry pc0 ir).valueAt (s.ssp - 6#32) .word &&& 0xFFFF58E0#32 = 0#32)

/-- R25 of 10_state.md with R153, R172 and R203: the to-CCR forms write SR[4:0] by the operation on bits 4:0 of the data,
in either mode, and nothing else but the pc. -/
def Obligations.ToCcrFormsWriteFiveFlags : Prop :=
  ∀ (s : State) (data : Byte) (i : Instr) (v : Word),
    (i, v) ∈ [(Instr.oriCcr data, s.sr ||| data.setWidth 16), (.andiCcr data, s.sr &&& data.setWidth 16),
      (.eoriCcr data, s.sr ^^^ data.setWidth 16)] →
    exec i s = .next { s with
      sr := (s.sr &&& 0xFFE0#16) ||| (v &&& 0x001F#16)
      pc := s.pc + 4#32
      tracePending := s.traceBit }

/-- R154, R173 and R204: in supervisor mode the to-SR forms write SR by the operation, masked, and nothing else but the
pc. -/
def Obligations.ToSrFormsInSupervisorMode : Prop :=
  ∀ (s : State) (data : Word) (i : Instr) (v : Word), s.super = true →
    (i, v) ∈ [(Instr.oriSr data, s.sr ||| data), (.andiSr data, s.sr &&& data), (.eoriSr data, s.sr ^^^ data)] →
    exec i s = .next { s with sr := v &&& 0xA71F#16, pc := s.pc + 4#32, tracePending := s.traceBit }

/-- R223 of 60_exceptions.md: in user mode the to-SR forms raise PrivilegeViolation: vector 8, the pc of the instruction
itself saved, nothing else changed and no trace. -/
def Obligations.ToSrFormsInUserModeTrap : Prop :=
  ∀ (s : State) (data : Word) (i : Instr), s.super = false → s.canEnter 6 8#8 →
    i ∈ [Instr.oriSr data, .andiSr data, .eoriSr data] →
    ∃ t, exec i s = .next t ∧ ShortEntered s t 8#8 none s.pc

/-! ### Results of the operand forms -/

/-- R150: AND `<ea>,Dn`. -/
def Obligations.AndToRegisterResult : Prop :=
  ∀ (dn : Fin 8) (ea : Ea) (s : State) (sz : Size) (i : Instr),
    (sz, i) ∈ [(Size.byte, Instr.andBToReg dn ea), (.word, .andWToReg dn ea), (.long, .andLToReg dn ea)] →
    s.busWrites = [] → locReadable s (eaLoc ea sz (s.pc + 2#32) s) sz →
    ∃ t, exec i s = .next t
      ∧ RegWritten s t ea sz dn ((s.dReg dn &&& sz.mask) &&& locValue s (eaLoc ea sz (s.pc + 2#32) s) sz)
        (2 + ea.extBytes sz)

/-- R200: OR `<ea>,Dn`. -/
def Obligations.OrToRegisterResult : Prop :=
  ∀ (dn : Fin 8) (ea : Ea) (s : State) (sz : Size) (i : Instr),
    (sz, i) ∈ [(Size.byte, Instr.orBToReg dn ea), (.word, .orWToReg dn ea), (.long, .orLToReg dn ea)] →
    s.busWrites = [] → locReadable s (eaLoc ea sz (s.pc + 2#32) s) sz →
    ∃ t, exec i s = .next t
      ∧ RegWritten s t ea sz dn ((s.dReg dn &&& sz.mask) ||| locValue s (eaLoc ea sz (s.pc + 2#32) s) sz)
        (2 + ea.extBytes sz)

/-- R151: AND `Dn,<ea>`. -/
def Obligations.AndToMemoryResult : Prop :=
  ∀ (dn : Fin 8) (ea : Ea) (s : State) (a : Addr) (sp : Space) (sz : Size) (i : Instr),
    (sz, i) ∈ [(Size.byte, Instr.andBToEa dn ea), (.word, .andWToEa dn ea), (.long, .andLToEa dn ea)] →
    eaLoc ea sz (s.pc + 2#32) s = .mem a sp →
    s.busWrites = [] → alignedFor sz a → s.readsPlain a sz.bytes sp → s.writesPlain a sz.bytes →
    ∃ t, exec i s = .next t
      ∧ MemWritten s t ea sz a (s.valueAt a sz &&& (s.dReg dn &&& sz.mask)) (2 + ea.extBytes sz)

/-- R201: OR `Dn,<ea>`. -/
def Obligations.OrToMemoryResult : Prop :=
  ∀ (dn : Fin 8) (ea : Ea) (s : State) (a : Addr) (sp : Space) (sz : Size) (i : Instr),
    (sz, i) ∈ [(Size.byte, Instr.orBToEa dn ea), (.word, .orWToEa dn ea), (.long, .orLToEa dn ea)] →
    eaLoc ea sz (s.pc + 2#32) s = .mem a sp →
    s.busWrites = [] → alignedFor sz a → s.readsPlain a sz.bytes sp → s.writesPlain a sz.bytes →
    ∃ t, exec i s = .next t
      ∧ MemWritten s t ea sz a (s.valueAt a sz ||| (s.dReg dn &&& sz.mask)) (2 + ea.extBytes sz)

/-- R170: EOR `Dn,<ea>`, with a memory operand and with a data register. -/
def Obligations.EorResult : Prop :=
  (∀ (dn : Fin 8) (ea : Ea) (s : State) (a : Addr) (sp : Space) (sz : Size) (i : Instr),
    (sz, i) ∈ [(Size.byte, Instr.eorBToEa dn ea), (.word, .eorWToEa dn ea), (.long, .eorLToEa dn ea)] →
    eaLoc ea sz (s.pc + 2#32) s = .mem a sp →
    s.busWrites = [] → alignedFor sz a → s.readsPlain a sz.bytes sp → s.writesPlain a sz.bytes →
    ∃ t, exec i s = .next t
      ∧ MemWritten s t ea sz a (s.valueAt a sz ^^^ (s.dReg dn &&& sz.mask)) (2 + ea.extBytes sz))
  ∧ (∀ (dn n : Fin 8) (s : State) (sz : Size) (i : Instr),
    (sz, i) ∈ [(Size.byte, Instr.eorBToEa dn (.dreg n)), (.word, .eorWToEa dn (.dreg n)),
      (.long, .eorLToEa dn (.dreg n))] →
    ∃ t, exec i s = .next t ∧ RegWritten s t (.dreg n) sz n ((s.dReg n ^^^ s.dReg dn) &&& sz.mask) 2)

/-- R152: ANDI `#<data>,<ea>`, with a memory operand and with a data register. -/
def Obligations.AndiResult : Prop :=
  (∀ (x : Byte) (y : Word) (z : Long) (ea : Ea) (s : State) (a : Addr) (sp : Space) (sz : Size) (i : Instr)
      (data : Long),
    (sz, i, data) ∈ [(Size.byte, Instr.andiB x ea, x.setWidth 32), (.word, .andiW y ea, y.setWidth 32),
      (.long, .andiL z ea, z)] →
    eaLoc ea sz (s.pc + 2#32 + BitVec.ofNat 32 (immBytes sz)) s = .mem a sp →
    s.busWrites = [] → alignedFor sz a → s.readsPlain a sz.bytes sp → s.writesPlain a sz.bytes →
    ∃ t, exec i s = .next t
      ∧ MemWritten s t ea sz a (s.valueAt a sz &&& data) (2 + immBytes sz + ea.extBytes sz))
  ∧ (∀ (x : Byte) (y : Word) (z : Long) (n : Fin 8) (s : State) (sz : Size) (i : Instr) (data : Long),
    (sz, i, data) ∈ [(Size.byte, Instr.andiB x (.dreg n), x.setWidth 32), (.word, .andiW y (.dreg n), y.setWidth 32),
      (.long, .andiL z (.dreg n), z)] →
    ∃ t, exec i s = .next t
      ∧ RegWritten s t (.dreg n) sz n ((s.dReg n &&& sz.mask) &&& data) (2 + immBytes sz))

/-- R171: EORI `#<data>,<ea>`, with a memory operand and with a data register. -/
def Obligations.EoriResult : Prop :=
  (∀ (x : Byte) (y : Word) (z : Long) (ea : Ea) (s : State) (a : Addr) (sp : Space) (sz : Size) (i : Instr)
      (data : Long),
    (sz, i, data) ∈ [(Size.byte, Instr.eoriB x ea, x.setWidth 32), (.word, .eoriW y ea, y.setWidth 32),
      (.long, .eoriL z ea, z)] →
    eaLoc ea sz (s.pc + 2#32 + BitVec.ofNat 32 (immBytes sz)) s = .mem a sp →
    s.busWrites = [] → alignedFor sz a → s.readsPlain a sz.bytes sp → s.writesPlain a sz.bytes →
    ∃ t, exec i s = .next t
      ∧ MemWritten s t ea sz a (s.valueAt a sz ^^^ data) (2 + immBytes sz + ea.extBytes sz))
  ∧ (∀ (x : Byte) (y : Word) (z : Long) (n : Fin 8) (s : State) (sz : Size) (i : Instr) (data : Long),
    (sz, i, data) ∈ [(Size.byte, Instr.eoriB x (.dreg n), x.setWidth 32), (.word, .eoriW y (.dreg n), y.setWidth 32),
      (.long, .eoriL z (.dreg n), z)] →
    ∃ t, exec i s = .next t
      ∧ RegWritten s t (.dreg n) sz n ((s.dReg n &&& sz.mask) ^^^ data) (2 + immBytes sz))

/-- R202: ORI `#<data>,<ea>`, with a memory operand and with a data register. -/
def Obligations.OriResult : Prop :=
  (∀ (x : Byte) (y : Word) (z : Long) (ea : Ea) (s : State) (a : Addr) (sp : Space) (sz : Size) (i : Instr)
      (data : Long),
    (sz, i, data) ∈ [(Size.byte, Instr.oriB x ea, x.setWidth 32), (.word, .oriW y ea, y.setWidth 32),
      (.long, .oriL z ea, z)] →
    eaLoc ea sz (s.pc + 2#32 + BitVec.ofNat 32 (immBytes sz)) s = .mem a sp →
    s.busWrites = [] → alignedFor sz a → s.readsPlain a sz.bytes sp → s.writesPlain a sz.bytes →
    ∃ t, exec i s = .next t
      ∧ MemWritten s t ea sz a (s.valueAt a sz ||| data) (2 + immBytes sz + ea.extBytes sz))
  ∧ (∀ (x : Byte) (y : Word) (z : Long) (n : Fin 8) (s : State) (sz : Size) (i : Instr) (data : Long),
    (sz, i, data) ∈ [(Size.byte, Instr.oriB x (.dreg n), x.setWidth 32), (.word, .oriW y (.dreg n), y.setWidth 32),
      (.long, .oriL z (.dreg n), z)] →
    ∃ t, exec i s = .next t
      ∧ RegWritten s t (.dreg n) sz n ((s.dReg n &&& sz.mask) ||| data) (2 + immBytes sz))

/-- R190: NOT `<ea>`, with a memory operand and with a data register. -/
def Obligations.NotResult : Prop :=
  (∀ (ea : Ea) (s : State) (a : Addr) (sp : Space) (sz : Size) (i : Instr),
    (sz, i) ∈ [(Size.byte, Instr.notB ea), (.word, .notW ea), (.long, .notL ea)] →
    eaLoc ea sz (s.pc + 2#32) s = .mem a sp →
    s.busWrites = [] → alignedFor sz a → s.readsPlain a sz.bytes sp → s.writesPlain a sz.bytes →
    ∃ t, exec i s = .next t ∧ MemWritten s t ea sz a (~~~ s.valueAt a sz &&& sz.mask) (2 + ea.extBytes sz))
  ∧ (∀ (n : Fin 8) (s : State) (sz : Size) (i : Instr),
    (sz, i) ∈ [(Size.byte, Instr.notB (.dreg n)), (.word, .notW (.dreg n)), (.long, .notL (.dreg n))] →
    ∃ t, exec i s = .next t ∧ RegWritten s t (.dreg n) sz n (~~~ s.dReg n &&& sz.mask) 2)

/-- R100 of 30_encoding.md: the two encodings of AND and OR of an immediate to a data register have the same length and
the same effect. -/
def Obligations.ImmediateSourceEqualsImmediateForm : Prop :=
  ∀ (x : Byte) (y : Word) (z : Long) (n : Fin 8) (i j : Instr),
    (i, j) ∈ [(Instr.andBToReg n (.imm (x.setWidth 32)), Instr.andiB x (.dreg n)),
      (.andWToReg n (.imm (y.setWidth 32)), .andiW y (.dreg n)), (.andLToReg n (.imm z), .andiL z (.dreg n)),
      (.orBToReg n (.imm (x.setWidth 32)), .oriB x (.dreg n)),
      (.orWToReg n (.imm (y.setWidth 32)), .oriW y (.dreg n)), (.orLToReg n (.imm z), .oriL z (.dreg n))] →
    instrLength i = instrLength j ∧ opWord i ≠ opWord j ∧ ∀ s, exec i s = exec j s

/-- R141(e) and R190: EORI of all ones to a data register leaves what NOT of the size leaves, but for the pc. -/
def Obligations.EoriOfOnesIsNot : Prop :=
  ∀ (n : Fin 8) (i j : Instr) (s t u : State),
    (i, j) ∈ [(Instr.eoriB 0xFF#8 (.dreg n), Instr.notB (.dreg n)), (.eoriW 0xFFFF#16 (.dreg n), .notW (.dreg n)),
      (.eoriL 0xFFFFFFFF#32 (.dreg n), .notL (.dreg n))] →
    exec i s = .next t → exec j s = .next u → { t with pc := u.pc } = u

/-! ### Exceptions -/

/-- R221 of 60_exceptions.md: entry with the short frame. -/
def Obligations.ShortFrameEntry : Prop :=
  ∀ (s : State) (v : BitVec 8) (level : Option (BitVec 3)) (pcSaved pc0 : Addr) (ir : Option Word),
    s.canEnter 6 v → ShortEntered s (s.takeShort v level pcSaved pc0 ir) v level pcSaved

/-- R222 of 60_exceptions.md: entry with the long frame: R/W is bit 4, I/N bit 3 and the function code bits 2:0 of its
first word. -/
def Obligations.LongFrameEntry : Prop :=
  ∀ (s : State) (e : AccessFault) (inEntry : Bool) (pc0 : Addr) (ir : Option Word),
    s.canEnter 14 (if e.misaligned then 3#8 else 2#8) →
    LongEntered s (s.takeGroupZero e inEntry pc0 ir) (if e.misaligned then 3#8 else 2#8)
      (BitVec.ofBool (!e.write) ++ BitVec.ofBool inEntry ++
        (match e.super, e.space with
         | false, .data => 1#3
         | false, .prog => 2#3
         | true, .data => 5#3
         | true, .prog => 6#3))
      e.addr pc0 ir

/-- R225 and R140: a word or long operand at an odd address ends the instruction in an address error: nothing is written
but the frame, and the register of (An)+ or -(An) is the old one or the stepped one. -/
def Obligations.OddOperandTakesAddressError : Prop :=
  ∀ (i : Instr) (sz : Size) (ea : Ea) (off : Nat) (s : State) (a : Addr) (sp : Space),
    operandOf i = some (sz, ea, off) → sz ≠ .byte →
    eaLoc ea sz (s.pc + BitVec.ofNat 32 off) s = .mem a sp → a.getLsbD 0 = true →
    s.canEnter 14 3#8 → (eaStep ea sz s).canEnter 14 3#8 →
    ∃ s' t, (s' = s ∨ s' = eaStep ea sz s) ∧ exec i s = .next t
      ∧ LongEntered s' t 3#8
          (1#1 ++ 0#1 ++
            (match s.super, sp with
             | false, .data => 1#3
             | false, .prog => 2#3
             | true, .data => 5#3
             | true, .prog => 6#3))
          a s.pc (some (opWord i))

/-- R226 and R140: an operand the map faults at the read ends the instruction in a bus error: nothing is written but the
frame, and the register of (An)+ or -(An) is the old one or the stepped one. -/
def Obligations.FaultingOperandTakesBusError : Prop :=
  ∀ (i : Instr) (sz : Size) (ea : Ea) (off k : Nat) (s : State) (a : Addr) (sp : Space),
    operandOf i = some (sz, ea, off) → alignedFor sz a → k < sz.bytes →
    eaLoc ea sz (s.pc + BitVec.ofNat 32 off) s = .mem a sp → s.mapAt (a + BitVec.ofNat 32 k) false sp = .fault →
    s.canEnter 14 2#8 → (eaStep ea sz s).canEnter 14 2#8 →
    ∃ s' t, (s' = s ∨ s' = eaStep ea sz s) ∧ exec i s = .next t
      ∧ LongEntered s' t 2#8
          (1#1 ++ 0#1 ++
            (match s.super, sp with
             | false, .data => 1#3
             | false, .prog => 2#3
             | true, .data => 5#3
             | true, .prog => 6#3))
          a s.pc (some (opWord i))

/-- R140, R55 and U6: an operand the map faults at the write, the read having been made, ends the instruction in a bus
error: a byte or word is not written, and of a long each word that does not fault has been written or not; nothing else is
written but the frame, the register of (An)+ or -(An) is the old one or the stepped one, and the flags saved and left are
the old ones or the result's. -/
def Obligations.FaultingWriteTakesBusError : Prop :=
  ∀ (i : Instr) (sz : Size) (ea : Ea) (off k : Nat) (s : State) (a : Addr) (sp : Space),
    operandOf i = some (sz, ea, off) → destReg i = none → alignedFor sz a → k < sz.bytes →
    eaLoc ea sz (s.pc + BitVec.ofNat 32 off) s = .mem a sp → s.readsPlain a sz.bytes sp →
    s.mapAt (a + BitVec.ofNat 32 k) true .data = .fault →
    s.canEnter 14 2#8 → (eaStep ea sz s).canEnter 14 2#8 →
    ∃ s' sr' m h t, (s' = s ∨ s' = eaStep ea sz s)
      ∧ (sr' = s.sr ∨ sr' = flaggedSr s.sr sz (modifiedValue i s (s.valueAt a sz)))
      ∧ (sz ≠ .long → m = s.mem ∧ h = s.held)
      ∧ (sz = .long → PartlyStored s { s with mem := m, held := h } a (modifiedValue i s (s.valueAt a sz)))
      ∧ exec i s = .next t
      ∧ LongEntered { s' with sr := sr', mem := m, held := h } t 2#8 (if s.super then 0x05#5 else 0x01#5) a s.pc
          (some (opWord i))

/-- R232 of 60_exceptions.md: a bus error at the vector read of a short-frame entry, the short frame written, is taken as
that group 0 exception, with bit 3 of its first word set. R232 does not say which SR is saved nor where the long frame
lies: that it saves SR as the short entry has set it (S set, T clear, an interrupt's mask) and lies below the short frame
is the model's choice (DESIGN CHOICE, log 12). -/
def Obligations.FaultInShortEntryBecomesBusError : Prop :=
  ∀ (s : State) (v : BitVec 8) (level : Option (BitVec 3)) (pcSaved pc0 : Addr) (ir : Option Word) (k : Nat),
    s.busWrites = [] → s.ssp.getLsbD 0 = false → s.enterSupervisor.writesPlain (s.ssp - 20#32) 20 →
    k < 4 → s.enterSupervisor.mapAt ((v.setWidth 32 <<< 2) + BitVec.ofNat 32 k) false .data = .fault →
    s.enterSupervisor.readsPlain 8#32 4 .data →
    ∃ m h sr' s1, EnteredSr s.sr sr' level
      ∧ s1 = { s with mem := m, held := h, sr := sr', ssp := s.ssp - 6#32, tracePending := false }
      ∧ s1.valueAt (s.ssp - 6#32) .word = s.srValue.setWidth 32
      ∧ s1.valueAt (s.ssp - 4#32) .long = pcSaved
      ∧ (∀ b, (s.outside (s.ssp - 6#32) 6 b → s.sameAt s1 b)
        ∧ (¬ s.outside (s.ssp - 6#32) 6 b → s1.streamAt b = s1.byteAt b))
      ∧ LongEntered s1 (s.takeShort v level pcSaved pc0 ir) 2#8 0x1D#5 (v.setWidth 32 <<< 2) pc0 ir

/-- R232 of 60_exceptions.md and R270 of 70_reset_and_hazards.md: a double fault halts. With an odd supervisor stack
pointer every exception entry ends Halted; a group 0 entry ends Halted too where the map faults a byte of its frame or of
its vector, and the reset sequence where the map faults a byte of the two vectors it reads. -/
def Obligations.DoubleFaultHalts : Prop :=
  (∀ (s : State), s.ssp.getLsbD 0 = true →
    (∀ e inEntry pc0 ir, (s.takeGroupZero e inEntry pc0 ir).run = .halted)
    ∧ (∀ v level pcSaved pc0 ir, (s.takeShort v level pcSaved pc0 ir).run = .halted))
  ∧ (∀ (s : State) (e : AccessFault) (inEntry : Bool) (pc0 : Addr) (ir : Option Word) (k : Nat),
    (k < 14 ∧ s.enterSupervisor.mapAt (s.ssp - 14#32 + BitVec.ofNat 32 k) true .data = .fault
      ∨ k < 4 ∧ s.enterSupervisor.mapAt
          (((if e.misaligned then 3#8 else 2#8).setWidth 32 <<< 2) + BitVec.ofNat 32 k) false .data = .fault) →
    (s.takeGroupZero e inEntry pc0 ir).run = .halted)
  ∧ (∀ (s : State) (k : Nat), k < 8 → s.enterSupervisor.mapAt (BitVec.ofNat 32 k) false .prog = .fault →
    s.resetSequence.run = .halted)

/-- R232 and R241: a halted processor takes no step, and only a reset leaves it, which it takes when one comes. That the reset is a step of the model,
which passes over the samples before it, where R241 counts no step while Halted, is the model's choice (DESIGN CHOICE,
log 17); so is the request level it leaves (log 33). -/
def Obligations.OnlyResetLeavesHalted : Prop :=
  ∀ (s : State), s.run = .halted →
    ((∀ x ∈ s.inputs, x.reset = false ∧ x.abort = false) → step s = .fault .halted)
    ∧ (∀ t, step s = .next t → ∃ pre x post, s.inputs = pre ++ x :: post
        ∧ (∀ y ∈ pre, y.reset = false ∧ y.abort = false) ∧ (x.reset = true ∨ x.abort = true)
        ∧ t = { s with inputs := post, irqLevel := x.level }.resetSequence)
    ∧ (∀ pre x post, s.inputs = pre ++ x :: post → (∀ y ∈ pre, y.reset = false ∧ y.abort = false) →
      (x.reset = true ∨ x.abort = true) →
      step s = .next { s with inputs := post, irqLevel := x.level }.resetSequence)

/-- R227 and R229 of 60_exceptions.md: a traced instruction that completes is followed by the trace exception, the pc of
the next instruction saved, unless a reset is due at the same boundary, which comes first; without T there is none; and an
instruction that did not begin with T set leaves none due. -/
def Obligations.TraceFollowsTracedInstruction : Prop :=
  (∀ (s t : State) (i : Instr) (rest : List Word), s.readyToFetch →
    decodeWords (s.wordsAt s.pc 5) = .ok (i, rest) → s.readsPlain s.pc (instrLength i) .prog →
    exec i s.afterSample = .next t →
    (t.tracePending = true → t.sample.reset = false → t.canEnter 6 9#8 →
      ∃ u, step s = .next u ∧ ShortEntered t u 9#8 none t.pc)
    ∧ (t.tracePending = true → t.sample.reset = true →
      step s = .next t ∧ step t = .next t.afterSample.resetSequence)
    ∧ (t.tracePending = false → step s = .next t))
  ∧ (∀ (s t : State) (i : Instr), exec i s = .next t → t.tracePending = true → s.traceBit = true)

/-- R228 of 60_exceptions.md: a request above the mask, or a new level 7, is taken at the boundary: short frame with the
pc of the next instruction, the mask at its level, and the vector from the device, the autovector or 24. -/
def Obligations.InterruptIsTakenAtBoundary : Prop :=
  (∀ (s : State), s.run = .running → s.tracePending = false → s.noReset →
    (s.mask < s.sample.level ∨ (s.sample.level = 7#3 ∧ s.irqLevel < 7#3)) →
    s.canEnter 6 (s.sample.vector.number s.sample.level) →
    ∃ t, step s = .next t
      ∧ ShortEntered s.afterSample t (s.sample.vector.number s.sample.level) (some s.sample.level) s.pc)
  ∧ (∀ (n : BitVec 8) (l : BitVec 3), (VectorSource.device n).number l = n
    ∧ (VectorSource.auto.number l).toNat = 24 + l.toNat ∧ VectorSource.spurious.number l = 24#8)

/-- R231 of 60_exceptions.md: what the return from a short frame pops is what the entry pushed: SR, pc and SSP. -/
def Obligations.ReturnUndoesShortEntry : Prop :=
  ∀ (s : State) (v : BitVec 8) (level : Option (BitVec 3)) (pcSaved pc0 : Addr) (ir : Option Word),
    s.canEnter 6 v → s.enterSupervisor.readsPlain (s.ssp - 6#32) 6 .data →
    ∃ t, (s.takeShort v level pcSaved pc0 ir).returnFromShort = .ok () t
      ∧ t.sr = s.srValue ∧ t.pc = pcSaved ∧ t.ssp = s.ssp ∧ t.usp = s.usp ∧ t.d = s.d ∧ t.a = s.a

/-! ### Reset -/

/-- R270 of 70_reset_and_hazards.md: the reset sequence, from any state, with the two vectors in plain storage; and R229:
a processor that is not halted, at a boundary whose sample asserts reset, takes it before a trace, an interrupt and the
fetch. The request level it leaves, that of the reset's own sample, is the model's choice (DESIGN CHOICE, log 33). -/
def Obligations.ResetSequenceLoadsVectors : Prop :=
  (∀ (s : State), s.busWrites = [] → s.enterSupervisor.readsPlain 0#32 8 .prog →
    ∃ sr' k, sr' &&& 0xFFE0#16 = 0x2700#16
      ∧ s.resetSequence = { s with
          run := .running
          sr := sr'
          ssp := s.valueAt 0#32 .long
          pc := s.valueAt 4#32 .long
          tracePending := false
          draws := k })
  ∧ (∀ (s : State), s.run ≠ .halted → s.sample.reset = true → step s = .next s.afterSample.resetSequence)

/-- R229 of 60_exceptions.md: a reset in the course of a step aborts it, and the reset sequence follows. How much of the
step, an instruction or an exception entry, has been done the spec does not say: the model leaves every data register,
the address registers and each word of memory, together with what an instruction fetch sees of it (R62), as they were or as
the whole step leaves them, a free choice (DESIGN CHOICE, log 17). `t` is what the step would leave without the reset; a
word as it was is that but for the turns the other bus masters have had in the step (R60). -/
def Obligations.ResetAbortsStep : Prop :=
  ∀ (s t : State), s.run ≠ .halted → s.tracePending = false → s.sample.reset = false → s.sample.abort = true →
    step { s with inputs := { s.sample with abort := false } :: s.inputs.drop 1 } = .next t →
    ∃ u : State, step s = .next u.resetSequence
      ∧ (u.d = s.d ∨ u.d = t.d)
      ∧ ((u.a = s.a ∧ u.usp = s.usp) ∨ (u.a = t.a ∧ u.usp = t.usp))
      ∧ (∀ w, (∀ p, p / 2 = w → u.mem.read p = (s.turnsOf t).mem.read p ∧ u.fetchView p = (s.turnsOf t).fetchView p)
        ∨ (∀ p, p / 2 = w → u.mem.read p = t.mem.read p ∧ u.fetchView p = t.fetchView p))
      ∧ (s.busWrites = [] → s.turnsOf t = s)
      ∧ u.inputs = s.inputs.drop 1 ∧ u.irqLevel = s.sample.level

/-- R33 of 10_state.md: the values the spec states for reset; SSP and pc are the longs at 0 and 4. -/
def Obligations.ResetHasStatedValues : Prop :=
  State.reset.super = true ∧ State.reset.traceBit = false ∧ State.reset.mask = 7#3
  ∧ State.reset.sr &&& 0x58E0#16 = 0#16 ∧ State.reset.run = .running
  ∧ State.reset.ssp = State.reset.valueAt 0#32 .long ∧ State.reset.pc = State.reset.valueAt 4#32 .long

/-! ### Fetch, decode, encode -/

/-- R241 of 60_exceptions.md: when the words at the pc decode to an instruction, the step is exec of it, then its trace
exception if one is due. -/
def Obligations.StepRunsDecodedInstruction : Prop :=
  ∀ (s : State) (i : Instr) (rest : List Word), s.readyToFetch →
    decodeWords (s.wordsAt s.pc 5) = .ok (i, rest) → s.readsPlain s.pc (instrLength i) .prog →
    step s = finishStep s.pc (exec i s.afterSample)

/-- R93 of 30_encoding.md: the operation words the decoder calls illegal are those of the table of illegal patterns. -/
def Obligations.IllegalPatternsAreTheTable : Prop := ∀ op : Word, classify op = .illegal ↔ illegalPattern op

/-- R224 of 60_exceptions.md: an illegal operation word at the pc raises IllegalInstruction: vector 4, its own address
saved, nothing else changed. -/
def Obligations.IllegalWordTakesVectorFour : Prop :=
  ∀ (s : State), s.readyToFetch → s.readsPlain s.pc 2 .prog →
    illegalPattern (wordOfBytes (s.byteAt s.pc) (s.byteAt (s.pc + 1#32))) → s.canEnter 6 4#8 →
    ∃ t, step s = .next t ∧ ShortEntered s.afterSample t 4#8 none s.pc

/-- R90 and R94 of 30_encoding.md: a word at the pc that is no illegal pattern and the operation word of none of the
spec's instructions is refused. -/
def Obligations.OutOfScopeWordIsRefused : Prop :=
  ∀ (s : State), s.readyToFetch → s.readsPlain s.pc 2 .prog →
    ¬ illegalPattern (wordOfBytes (s.byteAt s.pc) (s.byteAt (s.pc + 1#32))) →
    (∀ i : Instr, i.wf = true → opWord i ≠ wordOfBytes (s.byteAt s.pc) (s.byteAt (s.pc + 1#32))) →
    step s = .refused (.outOfScope (wordOfBytes (s.byteAt s.pc) (s.byteAt (s.pc + 1#32))))

/-- R225 and R226: with an odd pc the fetch takes an address error before the operation word is looked at; where the map
faults the operation word or an extension word, the fetch takes a bus error at that word's address. -/
def Obligations.FetchFaultsTakeGroupZero : Prop :=
  (∀ (s : State), s.undisturbed → s.pc.getLsbD 0 = true → s.canEnter 14 3#8 →
    ∃ t, step s = .next t
      ∧ LongEntered s.afterSample t 3#8 (if s.super then 0x16#5 else 0x12#5) s.pc s.pc none)
  ∧ (∀ (s : State) (k : Nat), s.readyToFetch → k < 2 →
    s.mapAt (s.pc + BitVec.ofNat 32 k) false .prog = .fault → s.canEnter 14 2#8 →
    ∃ t, step s = .next t
      ∧ LongEntered s.afterSample t 2#8 (if s.super then 0x16#5 else 0x12#5) s.pc s.pc none)
  ∧ (∀ (s : State) (i : Instr) (j k : Nat), s.readyToFetch → i.wf = true →
    (∀ o data, i.shape = .toSr o data → s.super = true) →
    wordOfBytes (s.byteAt s.pc) (s.byteAt (s.pc + 1#32)) = opWord i →
    1 ≤ j → 2 * j < instrLength i → s.readsPlain s.pc (2 * j) .prog → k < 2 →
    s.mapAt (s.pc + BitVec.ofNat 32 (2 * j + k)) false .prog = .fault → s.canEnter 14 2#8 →
    ∃ t, step s = .next t
      ∧ LongEntered s.afterSample t 2#8 (if s.super then 0x16#5 else 0x12#5) (s.pc + BitVec.ofNat 32 (2 * j)) s.pc none)

/-- R82 to R89: decoding the words of a well-formed instruction gives it back, with the words after it. -/
def Obligations.DecodeOfEncode : Prop :=
  ∀ (i : Instr) (rest : List Word), i.wf = true → decodeWords (encode i ++ rest) = .ok (i, rest)

/-- R90: what decodes is well-formed, has the operation word it was decoded from, and takes as many words as its
length says. -/
def Obligations.DecodedInstructionIsWellFormed : Prop :=
  ∀ (op : Word) (ws rest : List Word) (i : Instr), decodeWords (op :: ws) = .ok (i, rest) →
    i.wf = true ∧ opWord i = op ∧ rest = ws.drop (instrLength i / 2 - 1) ∧ instrLength i ≤ 2 + 2 * ws.length

/-- R80 of 30_encoding.md: the length is 2, 4, 6, 8 or 10 bytes and a function of the operation word alone; it is two
bytes for each word of the encoding. -/
def Obligations.LengthFromOperationWord : Prop :=
  (∀ i : Instr, i.wf = true → instrLength i ∈ [2, 4, 6, 8, 10] ∧ instrLength i = 2 * (encode i).length)
  ∧ (∀ i j : Instr, i.wf = true → j.wf = true → opWord i = opWord j → instrLength i = instrLength j)

/-- R91 of 30_encoding.md: the worked encodings, decoded, with the length each row gives. -/
def Obligations.WorkedEncodingsDecode : Prop :=
  ∀ p ∈ [([0xC041#16], Instr.andWToReg 0 (.dreg 1), 2),
    ([0xC4A9#16, 0xFFFC#16], .andLToReg 2 (.disp 1 0xFFFC#16), 4),
    ([0xC718#16], .andBToEa 3 (.postinc 0), 2),
    ([0x0240#16, 0x00FF#16], .andiW 0x00FF#16 (.dreg 0), 4),
    ([0x02B9#16, 0x0000#16, 0xFFFF#16, 0x1234#16, 0x5678#16], .andiL 0x0000FFFF#32 (.absLong 0x12345678#32), 10),
    ([0x023C#16, 0x00EF#16], .andiCcr 0xEF#8, 4),
    ([0xB71F#16], .eorBToEa 3 (.postinc 7), 2),
    ([0x0A30#16, 0x0080#16, 0x1805#16],
      .eoriB 0x80#8 (.index 0 { isAddr := false, reg := 1, isLong := true, disp := 0x05#8 }), 6),
    ([0x46B9#16, 0x1234#16, 0x5678#16], .notL (.absLong 0x12345678#32), 6),
    ([0x8372#16, 0x30FE#16],
      .orWToEa 1 (.index 2 { isAddr := false, reg := 3, isLong := false, disp := 0xFE#8 }), 4),
    ([0x8EBC#16, 0x8000#16, 0x0000#16], .orLToReg 7 (.imm 0x80000000#32), 6),
    ([0x007C#16, 0x0700#16], .oriSr 0x0700#16, 4)],
    decodeWords p.1 = .ok (p.2.1, []) ∧ encode p.2.1 = p.1 ∧ instrLength p.2.1 = p.2.2

/-! ### Frames and invariants -/

/-- No instruction stops: exec answers a next state for every instruction in every state (R241 of 60_exceptions.md). That
a store into the prefetch window runs, where R274's default is to refuse, is the model's choice (DESIGN CHOICE, log 15);
so is what a term that no word encodes does (DESIGN CHOICE, log 27). -/
def Obligations.EveryInstructionAnswersNext : Prop := ∀ (i : Instr) (s : State), ∃ t, exec i s = .next t

/-- R20, R137: whatever an instruction ends in, it changes no data register but its destination. -/
def Obligations.OnlyDestinationDataRegisterChanges : Prop :=
  ∀ (i : Instr) (s t : State) (n : Fin 8), exec i s = .next t → destReg i ≠ some n → t.dReg n = s.dReg n

/-- R21, R124, R125, R140: whatever an instruction ends in, A0 to A6 keep their values but for the register its operand
steps, which has the old value or the stepped one. -/
def Obligations.OnlySteppedAddressRegisterChanges : Prop :=
  ∀ (i : Instr) (s t : State) (n : Fin 8), exec i s = .next t → n.val < 7 →
    t.aReg n = s.aReg n
    ∨ ∃ sz ea off, operandOf i = some (sz, ea, off) ∧ steppedReg ea = some n ∧ t.aReg n = (eaStep ea sz s).aReg n

/-- R22, R234: the stack pointer that A7 does not name is left alone, but for the frames of an exception; and user mode
is left only by an exception entry, which moves SSP by a frame, or by two: R232 takes a fault in a short-frame entry as a
group 0 exception, and that its frame lies below the short one, SSP 20 lower, is the model's choice (DESIGN CHOICE,
log 12). -/
def Obligations.BankedStackPointerIsKept : Prop :=
  ∀ (i : Instr) (s t : State), exec i s = .next t →
    (s.super = true → t.usp = s.usp)
    ∧ (s.super = false → t.super = false → t.ssp = s.ssp)
    ∧ (s.super = false → t.super = true →
      t.ssp = s.ssp - 6#32 ∨ t.ssp = s.ssp - 14#32 ∨ t.ssp = s.ssp - 20#32)

/-- R34: an instruction leaves the platform's inputs as they are, and the run state but for a double fault. -/
def Obligations.PlatformInputsAreKept : Prop :=
  ∀ (i : Instr) (s t : State), exec i s = .next t →
    t.memMap = s.memMap ∧ t.addrBits = s.addrBits ∧ t.inputs = s.inputs ∧ t.irqLevel = s.irqLevel
    ∧ (t.run = s.run ∨ t.run = .halted)

/-- R28, R233: in user mode no instruction that stays in user mode changes T, the mask or a not-implemented bit of SR. -/
def Obligations.UserModeKeepsSystemByte : Prop :=
  ∀ (i : Instr) (s t : State), exec i s = .next t → s.super = false → t.super = false →
    t.sr &&& 0xFFE0#16 = s.sr &&& 0xFFE0#16

/-- Every step keeps the invariant: memory canonical and in the physical space (R31, R58), the not-implemented bits of SR
zero (R27), and no trace exception left due but where a reset comes first (R227, R229, R241). -/
def Obligations.StepKeepsInvariant : Prop := ∀ (s t : State), s.Inv → step s = .next t → t.Inv

/-- The state after reset meets the invariant. -/
def Obligations.ResetMeetsInvariant : Prop := State.reset.Inv

/-- R284 of 70_reset_and_hazards.md: a run ends at END_PC before anything more is fetched; a run that reaches Halted or
Refused has no final state, whatever comes after; and more steps do not change how it ended: in a final state, stuck, or
refused. -/
def Obligations.RunEndsAtEndPc : Prop :=
  ∀ (endPc : Addr) (n m : Nat) (s t : State),
    (s.final endPc = true → runUntil endPc n s = .final s)
    ∧ (runUntil endPc n s = .final t → t.pc = endPc ∧ runUntil endPc (n + m) s = .final t)
    ∧ (s.run = .halted → runUntil endPc n s = .stuck .halted)
    ∧ (s.run ≠ .halted → s.final endPc = false → step s = .next t → t.run = .halted →
      runUntil endPc (n + 1) s = .stuck .halted)
    ∧ (∀ r, s.run ≠ .halted → s.final endPc = false → step s = .refused r → runUntil endPc (n + 1) s = .refused r)
    ∧ (∀ f, runUntil endPc n s = .stuck f → runUntil endPc (n + m) s = .stuck f)
    ∧ (∀ r, runUntil endPc n s = .refused r → runUntil endPc (n + m) s = .refused r)
end

