-- ==== Sys2Proof/Laws/Bytes.lean ====
section
/-! SUPPORT. The byte order helpers undo each other (R51). -/

namespace Sys2Proof

@[simp] theorem hiByte_wordOfBytes (x y : Byte) : hiByte (wordOfBytes x y) = x := by
  apply BitVec.eq_of_getLsbD_eq
  intro i hi
  simp only [hiByte, BitVec.getLsbD_extractLsb', hi, decide_true, Bool.true_and]
  exact (BitVec.getLsbD_append).trans (by simp)

@[simp] theorem loByte_wordOfBytes (x y : Byte) : loByte (wordOfBytes x y) = y := by
  apply BitVec.eq_of_getLsbD_eq
  intro i hi
  simp only [loByte, BitVec.getLsbD_extractLsb', hi, decide_true, Bool.true_and, Nat.zero_add]
  exact (BitVec.getLsbD_append).trans (by simp [hi])

@[simp] theorem wordOfBytes_hi_lo (w : Word) : wordOfBytes (hiByte w) (loByte w) = w := by
  apply BitVec.eq_of_getLsbD_eq
  intro i hi
  refine (BitVec.getLsbD_append).trans ?_
  by_cases h : i < 8
  · simp [loByte, h]
  · have : i - 8 < 8 := by omega
    simp [hiByte, h, this]
    congr 1
    omega

@[simp] theorem longOfWords_hi_lo (w : Long) : longOfWords (hiWord w) (loWord w) = w := by
  apply BitVec.eq_of_getLsbD_eq
  intro i hi
  refine (BitVec.getLsbD_append).trans ?_
  by_cases h : i < 16
  · simp [loWord, h]
  · have : i - 16 < 16 := by omega
    simp [hiWord, h, this]
    congr 1
    omega

end Sys2Proof
end

