-- ==== Sys2Proof/Laws/Memory.lean ====
section
/-! SUPPORT. The laws of lists of cells and of memory: read after write, and the canonical form. -/

namespace Sys2Proof.Machine

/-! ### Reading -/

theorem findCell_putCell (m : List Host.Cell) (p q : Nat) (v : Byte) :
    findCell (putCell m p v) q = if q = p then some v else findCell m q := by
  induction m with
  | nil => simp [putCell, findCell]
  | cons c m ih =>
    obtain ⟨k, w⟩ := c
    unfold putCell
    split
    · simp [findCell]
    · split
      · subst_vars
        by_cases h : q = k <;> simp [findCell, h]
      · simp only [findCell, ih]
        by_cases h : q = k
        · have : q ≠ p := fun e => by omega
          simp [h]
          omega
        · simp [h]

theorem findCell_dropCell (m : List Host.Cell) (p q : Nat) :
    findCell (dropCell m p) q = if q = p then none else findCell m q := by
  induction m with
  | nil => simp [dropCell, findCell]
  | cons c m ih =>
    obtain ⟨k, w⟩ := c
    unfold dropCell
    split
    · subst_vars
      rw [ih]
      by_cases h : q = k <;> simp [findCell, h]
    · simp only [findCell, ih]
      by_cases h : q = k
      · have : q ≠ p := fun e => by omega
        simp [h]
        omega
      · simp [h]

/-- Reading a byte after writing one: the byte written where the addresses agree, else what was there. -/
theorem Memory.read_write (m : Memory) (p q : Nat) (v : Byte) :
    (m.write p v).read q = if q = p then v else m.read q := by
  unfold Memory.read Memory.write
  split
  · subst_vars
    rw [findCell_dropCell]
    split <;> simp
  · rw [findCell_putCell]
    split <;> simp

@[simp] theorem Memory.read_write_self (m : Memory) (p : Nat) (v : Byte) : (m.write p v).read p = v := by
  simp [Memory.read_write]

theorem Memory.read_write_other (m : Memory) (p q : Nat) (v : Byte) (h : q ≠ p) :
    (m.write p v).read q = m.read q := by
  simp [Memory.read_write, h]

/-! ### Order -/

theorem risingFrom_weaken {lo lo' : Nat} {m : List Host.Cell} (h : risingFrom lo m = true) (hl : lo' ≤ lo) :
    risingFrom lo' m = true := by
  cases m with
  | nil => rfl
  | cons c m =>
    simp only [risingFrom, Bool.and_eq_true, decide_eq_true_eq] at h ⊢
    exact ⟨by omega, h.2⟩

theorem risingFrom_putCell (m : List Host.Cell) (lo p : Nat) (v : Byte) (h : risingFrom lo m = true) (hp : lo ≤ p) :
    risingFrom lo (putCell m p v) = true := by
  induction m generalizing lo with
  | nil => simp [putCell, risingFrom, hp]
  | cons c m ih =>
    obtain ⟨k, w⟩ := c
    simp only [risingFrom, Bool.and_eq_true, decide_eq_true_eq] at h
    unfold putCell
    split
    · simp only [risingFrom, Bool.and_eq_true, decide_eq_true_eq]
      exact ⟨hp, by omega, h.2⟩
    · split
      · subst_vars
        simp only [risingFrom, Bool.and_eq_true, decide_eq_true_eq]
        exact ⟨hp, h.2⟩
      · simp only [risingFrom, Bool.and_eq_true, decide_eq_true_eq]
        exact ⟨h.1, ih (k + 1) h.2 (by omega)⟩

theorem risingFrom_dropCell (m : List Host.Cell) (lo p : Nat) (h : risingFrom lo m = true) :
    risingFrom lo (dropCell m p) = true := by
  induction m generalizing lo with
  | nil => rfl
  | cons c m ih =>
    obtain ⟨k, w⟩ := c
    simp only [risingFrom, Bool.and_eq_true, decide_eq_true_eq] at h
    unfold dropCell
    split
    · exact ih lo (risingFrom_weaken h.2 (by omega))
    · simp only [risingFrom, Bool.and_eq_true, decide_eq_true_eq]
      exact ⟨h.1, ih (k + 1) h.2⟩

theorem risingFrom_filter (q : Host.Cell → Bool) (m : List Host.Cell) (lo : Nat) (h : risingFrom lo m = true) :
    risingFrom lo (m.filter q) = true := by
  induction m generalizing lo with
  | nil => rfl
  | cons c m ih =>
    simp only [risingFrom, Bool.and_eq_true, decide_eq_true_eq] at h
    rw [List.filter_cons]
    split
    · simp only [risingFrom, Bool.and_eq_true, decide_eq_true_eq]
      exact ⟨h.1, ih (c.1 + 1) h.2⟩
    · exact ih lo (risingFrom_weaken h.2 (by omega))

/-! ### Members -/

theorem mem_putCell {m : List Host.Cell} {p : Nat} {v : Byte} {c : Host.Cell} (h : c ∈ putCell m p v) :
    c = (p, v) ∨ c ∈ m := by
  induction m with
  | nil => simpa [putCell] using h
  | cons x m ih =>
    obtain ⟨k, w⟩ := x
    unfold putCell at h
    split at h
    · simpa using h
    · split at h
      · rcases List.mem_cons.1 h with h | h
        · exact .inl h
        · exact .inr (List.mem_cons_of_mem _ h)
      · rcases List.mem_cons.1 h with h | h
        · exact .inr (h ▸ List.mem_cons_self)
        · rcases ih h with h | h
          · exact .inl h
          · exact .inr (List.mem_cons_of_mem _ h)

theorem mem_dropCell {m : List Host.Cell} {p : Nat} {c : Host.Cell} (h : c ∈ dropCell m p) : c ∈ m := by
  induction m with
  | nil => simp [dropCell] at h
  | cons x m ih =>
    obtain ⟨k, w⟩ := x
    unfold dropCell at h
    split at h
    · exact List.mem_cons_of_mem _ (ih h)
    · rcases List.mem_cons.1 h with h | h
      · exact h ▸ List.mem_cons_self
      · exact List.mem_cons_of_mem _ (ih h)

/-! ### The canonical form -/

/-- A write keeps the canonical form of memory. -/
theorem Memory.wf_write (m : Memory) (p : Nat) (v : Byte) (h : m.wf = true) : (m.write p v).wf = true := by
  unfold Memory.wf at h ⊢
  simp only [Bool.and_eq_true, List.all_eq_true, bne_iff_ne, ne_eq] at h ⊢
  unfold Memory.write
  split
  · exact ⟨risingFrom_dropCell _ _ _ h.1, fun c hc => h.2 c (mem_dropCell hc)⟩
  · refine ⟨risingFrom_putCell _ _ _ _ h.1 (Nat.zero_le _), fun c hc => ?_⟩
    rcases mem_putCell hc with rfl | hc
    · assumption
    · exact h.2 c hc

/-- A write puts in no address but its own. -/
theorem Memory.mem_write {m : Memory} {p : Nat} {v : Byte} {c : Host.Cell} (h : c ∈ m.write p v) :
    c.1 = p ∨ c ∈ m := by
  unfold Memory.write at h
  split at h
  · exact .inr (mem_dropCell h)
  · rcases mem_putCell h with rfl | h
    · exact .inl rfl
    · exact .inr h

/-- Memory at reset is in canonical form. -/
theorem Memory.wf_reset : State.reset.mem.wf = true := rfl

end Sys2Proof.Machine
end

