-- ==== Sys2Proof/Laws/State.lean ====
section
/-! SUPPORT. What each update of State leaves alone, one lemma for each field, and what the accessors read after it. -/

namespace Sys2Proof.Machine

variable (s : State)

/-! State.setD -/

@[simp] theorem State.setD_a (sz : Size) (n : Fin 8) (v : Long) : (s.setD sz n v).a = s.a := rfl
@[simp] theorem State.setD_usp (sz : Size) (n : Fin 8) (v : Long) : (s.setD sz n v).usp = s.usp := rfl
@[simp] theorem State.setD_ssp (sz : Size) (n : Fin 8) (v : Long) : (s.setD sz n v).ssp = s.ssp := rfl
@[simp] theorem State.setD_pc (sz : Size) (n : Fin 8) (v : Long) : (s.setD sz n v).pc = s.pc := rfl
@[simp] theorem State.setD_sr (sz : Size) (n : Fin 8) (v : Long) : (s.setD sz n v).sr = s.sr := rfl
@[simp] theorem State.setD_mem (sz : Size) (n : Fin 8) (v : Long) : (s.setD sz n v).mem = s.mem := rfl
@[simp] theorem State.setD_run (sz : Size) (n : Fin 8) (v : Long) : (s.setD sz n v).run = s.run := rfl
@[simp] theorem State.setD_irqLevel (sz : Size) (n : Fin 8) (v : Long) : (s.setD sz n v).irqLevel = s.irqLevel := rfl
@[simp] theorem State.setD_held (sz : Size) (n : Fin 8) (v : Long) : (s.setD sz n v).held = s.held := rfl
@[simp] theorem State.setD_tracePending (sz : Size) (n : Fin 8) (v : Long) : (s.setD sz n v).tracePending = s.tracePending := rfl
@[simp] theorem State.setD_addrBits (sz : Size) (n : Fin 8) (v : Long) : (s.setD sz n v).addrBits = s.addrBits := rfl
@[simp] theorem State.setD_memMap (sz : Size) (n : Fin 8) (v : Long) : (s.setD sz n v).memMap = s.memMap := rfl
@[simp] theorem State.setD_inputs (sz : Size) (n : Fin 8) (v : Long) : (s.setD sz n v).inputs = s.inputs := rfl
@[simp] theorem State.setD_busWrites (sz : Size) (n : Fin 8) (v : Long) : (s.setD sz n v).busWrites = s.busWrites := rfl
@[simp] theorem State.setD_draws (sz : Size) (n : Fin 8) (v : Long) : (s.setD sz n v).draws = s.draws := rfl

/-! State.writeSr -/

@[simp] theorem State.writeSr_d (v : Word) : (s.writeSr v).d = s.d := rfl
@[simp] theorem State.writeSr_a (v : Word) : (s.writeSr v).a = s.a := rfl
@[simp] theorem State.writeSr_usp (v : Word) : (s.writeSr v).usp = s.usp := rfl
@[simp] theorem State.writeSr_ssp (v : Word) : (s.writeSr v).ssp = s.ssp := rfl
@[simp] theorem State.writeSr_pc (v : Word) : (s.writeSr v).pc = s.pc := rfl
@[simp] theorem State.writeSr_mem (v : Word) : (s.writeSr v).mem = s.mem := rfl
@[simp] theorem State.writeSr_run (v : Word) : (s.writeSr v).run = s.run := rfl
@[simp] theorem State.writeSr_irqLevel (v : Word) : (s.writeSr v).irqLevel = s.irqLevel := rfl
@[simp] theorem State.writeSr_held (v : Word) : (s.writeSr v).held = s.held := rfl
@[simp] theorem State.writeSr_tracePending (v : Word) : (s.writeSr v).tracePending = s.tracePending := rfl
@[simp] theorem State.writeSr_addrBits (v : Word) : (s.writeSr v).addrBits = s.addrBits := rfl
@[simp] theorem State.writeSr_memMap (v : Word) : (s.writeSr v).memMap = s.memMap := rfl
@[simp] theorem State.writeSr_inputs (v : Word) : (s.writeSr v).inputs = s.inputs := rfl
@[simp] theorem State.writeSr_busWrites (v : Word) : (s.writeSr v).busWrites = s.busWrites := rfl
@[simp] theorem State.writeSr_draws (v : Word) : (s.writeSr v).draws = s.draws := rfl

/-! State.writeCcr -/

@[simp] theorem State.writeCcr_d (v : Byte) : (s.writeCcr v).d = s.d := rfl
@[simp] theorem State.writeCcr_a (v : Byte) : (s.writeCcr v).a = s.a := rfl
@[simp] theorem State.writeCcr_usp (v : Byte) : (s.writeCcr v).usp = s.usp := rfl
@[simp] theorem State.writeCcr_ssp (v : Byte) : (s.writeCcr v).ssp = s.ssp := rfl
@[simp] theorem State.writeCcr_pc (v : Byte) : (s.writeCcr v).pc = s.pc := rfl
@[simp] theorem State.writeCcr_mem (v : Byte) : (s.writeCcr v).mem = s.mem := rfl
@[simp] theorem State.writeCcr_run (v : Byte) : (s.writeCcr v).run = s.run := rfl
@[simp] theorem State.writeCcr_irqLevel (v : Byte) : (s.writeCcr v).irqLevel = s.irqLevel := rfl
@[simp] theorem State.writeCcr_held (v : Byte) : (s.writeCcr v).held = s.held := rfl
@[simp] theorem State.writeCcr_tracePending (v : Byte) : (s.writeCcr v).tracePending = s.tracePending := rfl
@[simp] theorem State.writeCcr_addrBits (v : Byte) : (s.writeCcr v).addrBits = s.addrBits := rfl
@[simp] theorem State.writeCcr_memMap (v : Byte) : (s.writeCcr v).memMap = s.memMap := rfl
@[simp] theorem State.writeCcr_inputs (v : Byte) : (s.writeCcr v).inputs = s.inputs := rfl
@[simp] theorem State.writeCcr_busWrites (v : Byte) : (s.writeCcr v).busWrites = s.busWrites := rfl
@[simp] theorem State.writeCcr_draws (v : Byte) : (s.writeCcr v).draws = s.draws := rfl

/-! State.enterSupervisor -/

@[simp] theorem State.enterSupervisor_d : (s.enterSupervisor).d = s.d := rfl
@[simp] theorem State.enterSupervisor_a : (s.enterSupervisor).a = s.a := rfl
@[simp] theorem State.enterSupervisor_usp : (s.enterSupervisor).usp = s.usp := rfl
@[simp] theorem State.enterSupervisor_ssp : (s.enterSupervisor).ssp = s.ssp := rfl
@[simp] theorem State.enterSupervisor_pc : (s.enterSupervisor).pc = s.pc := rfl
@[simp] theorem State.enterSupervisor_mem : (s.enterSupervisor).mem = s.mem := rfl
@[simp] theorem State.enterSupervisor_run : (s.enterSupervisor).run = s.run := rfl
@[simp] theorem State.enterSupervisor_irqLevel : (s.enterSupervisor).irqLevel = s.irqLevel := rfl
@[simp] theorem State.enterSupervisor_held : (s.enterSupervisor).held = s.held := rfl
@[simp] theorem State.enterSupervisor_tracePending : (s.enterSupervisor).tracePending = s.tracePending := rfl
@[simp] theorem State.enterSupervisor_addrBits : (s.enterSupervisor).addrBits = s.addrBits := rfl
@[simp] theorem State.enterSupervisor_memMap : (s.enterSupervisor).memMap = s.memMap := rfl
@[simp] theorem State.enterSupervisor_inputs : (s.enterSupervisor).inputs = s.inputs := rfl
@[simp] theorem State.enterSupervisor_busWrites : (s.enterSupervisor).busWrites = s.busWrites := rfl
@[simp] theorem State.enterSupervisor_draws : (s.enterSupervisor).draws = s.draws := rfl

/-! State.setMask -/

@[simp] theorem State.setMask_d (level : BitVec 3) : (s.setMask level).d = s.d := rfl
@[simp] theorem State.setMask_a (level : BitVec 3) : (s.setMask level).a = s.a := rfl
@[simp] theorem State.setMask_usp (level : BitVec 3) : (s.setMask level).usp = s.usp := rfl
@[simp] theorem State.setMask_ssp (level : BitVec 3) : (s.setMask level).ssp = s.ssp := rfl
@[simp] theorem State.setMask_pc (level : BitVec 3) : (s.setMask level).pc = s.pc := rfl
@[simp] theorem State.setMask_mem (level : BitVec 3) : (s.setMask level).mem = s.mem := rfl
@[simp] theorem State.setMask_run (level : BitVec 3) : (s.setMask level).run = s.run := rfl
@[simp] theorem State.setMask_irqLevel (level : BitVec 3) : (s.setMask level).irqLevel = s.irqLevel := rfl
@[simp] theorem State.setMask_held (level : BitVec 3) : (s.setMask level).held = s.held := rfl
@[simp] theorem State.setMask_tracePending (level : BitVec 3) : (s.setMask level).tracePending = s.tracePending := rfl
@[simp] theorem State.setMask_addrBits (level : BitVec 3) : (s.setMask level).addrBits = s.addrBits := rfl
@[simp] theorem State.setMask_memMap (level : BitVec 3) : (s.setMask level).memMap = s.memMap := rfl
@[simp] theorem State.setMask_inputs (level : BitVec 3) : (s.setMask level).inputs = s.inputs := rfl
@[simp] theorem State.setMask_busWrites (level : BitVec 3) : (s.setMask level).busWrites = s.busWrites := rfl
@[simp] theorem State.setMask_draws (level : BitVec 3) : (s.setMask level).draws = s.draws := rfl

/-! State.drawn -/

@[simp] theorem State.drawn_d : (s.drawn).d = s.d := rfl
@[simp] theorem State.drawn_a : (s.drawn).a = s.a := rfl
@[simp] theorem State.drawn_usp : (s.drawn).usp = s.usp := rfl
@[simp] theorem State.drawn_ssp : (s.drawn).ssp = s.ssp := rfl
@[simp] theorem State.drawn_pc : (s.drawn).pc = s.pc := rfl
@[simp] theorem State.drawn_sr : (s.drawn).sr = s.sr := rfl
@[simp] theorem State.drawn_mem : (s.drawn).mem = s.mem := rfl
@[simp] theorem State.drawn_run : (s.drawn).run = s.run := rfl
@[simp] theorem State.drawn_irqLevel : (s.drawn).irqLevel = s.irqLevel := rfl
@[simp] theorem State.drawn_held : (s.drawn).held = s.held := rfl
@[simp] theorem State.drawn_tracePending : (s.drawn).tracePending = s.tracePending := rfl
@[simp] theorem State.drawn_addrBits : (s.drawn).addrBits = s.addrBits := rfl
@[simp] theorem State.drawn_memMap : (s.drawn).memMap = s.memMap := rfl
@[simp] theorem State.drawn_inputs : (s.drawn).inputs = s.inputs := rfl
@[simp] theorem State.drawn_busWrites : (s.drawn).busWrites = s.busWrites := rfl

/-! State.halt -/

@[simp] theorem State.halt_d : (s.halt).d = s.d := rfl
@[simp] theorem State.halt_a : (s.halt).a = s.a := rfl
@[simp] theorem State.halt_usp : (s.halt).usp = s.usp := rfl
@[simp] theorem State.halt_ssp : (s.halt).ssp = s.ssp := rfl
@[simp] theorem State.halt_pc : (s.halt).pc = s.pc := rfl
@[simp] theorem State.halt_sr : (s.halt).sr = s.sr := rfl
@[simp] theorem State.halt_mem : (s.halt).mem = s.mem := rfl
@[simp] theorem State.halt_irqLevel : (s.halt).irqLevel = s.irqLevel := rfl
@[simp] theorem State.halt_held : (s.halt).held = s.held := rfl
@[simp] theorem State.halt_addrBits : (s.halt).addrBits = s.addrBits := rfl
@[simp] theorem State.halt_memMap : (s.halt).memMap = s.memMap := rfl
@[simp] theorem State.halt_inputs : (s.halt).inputs = s.inputs := rfl
@[simp] theorem State.halt_busWrites : (s.halt).busWrites = s.busWrites := rfl
@[simp] theorem State.halt_draws : (s.halt).draws = s.draws := rfl

/-! State.afterSample -/

@[simp] theorem State.afterSample_d : (s.afterSample).d = s.d := rfl
@[simp] theorem State.afterSample_a : (s.afterSample).a = s.a := rfl
@[simp] theorem State.afterSample_usp : (s.afterSample).usp = s.usp := rfl
@[simp] theorem State.afterSample_ssp : (s.afterSample).ssp = s.ssp := rfl
@[simp] theorem State.afterSample_pc : (s.afterSample).pc = s.pc := rfl
@[simp] theorem State.afterSample_sr : (s.afterSample).sr = s.sr := rfl
@[simp] theorem State.afterSample_mem : (s.afterSample).mem = s.mem := rfl
@[simp] theorem State.afterSample_run : (s.afterSample).run = s.run := rfl
@[simp] theorem State.afterSample_held : (s.afterSample).held = s.held := rfl
@[simp] theorem State.afterSample_tracePending : (s.afterSample).tracePending = s.tracePending := rfl
@[simp] theorem State.afterSample_addrBits : (s.afterSample).addrBits = s.addrBits := rfl
@[simp] theorem State.afterSample_memMap : (s.afterSample).memMap = s.memMap := rfl
@[simp] theorem State.afterSample_busWrites : (s.afterSample).busWrites = s.busWrites := rfl
@[simp] theorem State.afterSample_draws : (s.afterSample).draws = s.draws := rfl

/-! logicFlags -/

@[simp] theorem logicFlags_d (sz : Size) (r : Long) : (logicFlags sz r s).d = s.d := rfl
@[simp] theorem logicFlags_a (sz : Size) (r : Long) : (logicFlags sz r s).a = s.a := rfl
@[simp] theorem logicFlags_usp (sz : Size) (r : Long) : (logicFlags sz r s).usp = s.usp := rfl
@[simp] theorem logicFlags_ssp (sz : Size) (r : Long) : (logicFlags sz r s).ssp = s.ssp := rfl
@[simp] theorem logicFlags_pc (sz : Size) (r : Long) : (logicFlags sz r s).pc = s.pc := rfl
@[simp] theorem logicFlags_mem (sz : Size) (r : Long) : (logicFlags sz r s).mem = s.mem := rfl
@[simp] theorem logicFlags_run (sz : Size) (r : Long) : (logicFlags sz r s).run = s.run := rfl
@[simp] theorem logicFlags_irqLevel (sz : Size) (r : Long) : (logicFlags sz r s).irqLevel = s.irqLevel := rfl
@[simp] theorem logicFlags_held (sz : Size) (r : Long) : (logicFlags sz r s).held = s.held := rfl
@[simp] theorem logicFlags_tracePending (sz : Size) (r : Long) : (logicFlags sz r s).tracePending = s.tracePending := rfl
@[simp] theorem logicFlags_addrBits (sz : Size) (r : Long) : (logicFlags sz r s).addrBits = s.addrBits := rfl
@[simp] theorem logicFlags_memMap (sz : Size) (r : Long) : (logicFlags sz r s).memMap = s.memMap := rfl
@[simp] theorem logicFlags_inputs (sz : Size) (r : Long) : (logicFlags sz r s).inputs = s.inputs := rfl
@[simp] theorem logicFlags_busWrites (sz : Size) (r : Long) : (logicFlags sz r s).busWrites = s.busWrites := rfl
@[simp] theorem logicFlags_draws (sz : Size) (r : Long) : (logicFlags sz r s).draws = s.draws := rfl

/-! State.setA -/

@[simp] theorem State.setA_d (n : Fin 8) (v : Long) : (s.setA n v).d = s.d := by unfold State.setA; split <;> [rfl; split <;> rfl]
@[simp] theorem State.setA_pc (n : Fin 8) (v : Long) : (s.setA n v).pc = s.pc := by unfold State.setA; split <;> [rfl; split <;> rfl]
@[simp] theorem State.setA_sr (n : Fin 8) (v : Long) : (s.setA n v).sr = s.sr := by unfold State.setA; split <;> [rfl; split <;> rfl]
@[simp] theorem State.setA_mem (n : Fin 8) (v : Long) : (s.setA n v).mem = s.mem := by unfold State.setA; split <;> [rfl; split <;> rfl]
@[simp] theorem State.setA_run (n : Fin 8) (v : Long) : (s.setA n v).run = s.run := by unfold State.setA; split <;> [rfl; split <;> rfl]
@[simp] theorem State.setA_irqLevel (n : Fin 8) (v : Long) : (s.setA n v).irqLevel = s.irqLevel := by unfold State.setA; split <;> [rfl; split <;> rfl]
@[simp] theorem State.setA_held (n : Fin 8) (v : Long) : (s.setA n v).held = s.held := by unfold State.setA; split <;> [rfl; split <;> rfl]
@[simp] theorem State.setA_tracePending (n : Fin 8) (v : Long) : (s.setA n v).tracePending = s.tracePending := by unfold State.setA; split <;> [rfl; split <;> rfl]
@[simp] theorem State.setA_addrBits (n : Fin 8) (v : Long) : (s.setA n v).addrBits = s.addrBits := by unfold State.setA; split <;> [rfl; split <;> rfl]
@[simp] theorem State.setA_memMap (n : Fin 8) (v : Long) : (s.setA n v).memMap = s.memMap := by unfold State.setA; split <;> [rfl; split <;> rfl]
@[simp] theorem State.setA_inputs (n : Fin 8) (v : Long) : (s.setA n v).inputs = s.inputs := by unfold State.setA; split <;> [rfl; split <;> rfl]
@[simp] theorem State.setA_busWrites (n : Fin 8) (v : Long) : (s.setA n v).busWrites = s.busWrites := by unfold State.setA; split <;> [rfl; split <;> rfl]
@[simp] theorem State.setA_draws (n : Fin 8) (v : Long) : (s.setA n v).draws = s.draws := by unfold State.setA; split <;> [rfl; split <;> rfl]

/-! eaStep -/

@[simp] theorem eaStep_d (ea : Ea) (sz : Size) : (eaStep ea sz s).d = s.d := by cases ea <;> simp [eaStep]
@[simp] theorem eaStep_pc (ea : Ea) (sz : Size) : (eaStep ea sz s).pc = s.pc := by cases ea <;> simp [eaStep]
@[simp] theorem eaStep_sr (ea : Ea) (sz : Size) : (eaStep ea sz s).sr = s.sr := by cases ea <;> simp [eaStep]
@[simp] theorem eaStep_mem (ea : Ea) (sz : Size) : (eaStep ea sz s).mem = s.mem := by cases ea <;> simp [eaStep]
@[simp] theorem eaStep_run (ea : Ea) (sz : Size) : (eaStep ea sz s).run = s.run := by cases ea <;> simp [eaStep]
@[simp] theorem eaStep_irqLevel (ea : Ea) (sz : Size) : (eaStep ea sz s).irqLevel = s.irqLevel := by cases ea <;> simp [eaStep]
@[simp] theorem eaStep_held (ea : Ea) (sz : Size) : (eaStep ea sz s).held = s.held := by cases ea <;> simp [eaStep]
@[simp] theorem eaStep_tracePending (ea : Ea) (sz : Size) : (eaStep ea sz s).tracePending = s.tracePending := by cases ea <;> simp [eaStep]
@[simp] theorem eaStep_addrBits (ea : Ea) (sz : Size) : (eaStep ea sz s).addrBits = s.addrBits := by cases ea <;> simp [eaStep]
@[simp] theorem eaStep_memMap (ea : Ea) (sz : Size) : (eaStep ea sz s).memMap = s.memMap := by cases ea <;> simp [eaStep]
@[simp] theorem eaStep_inputs (ea : Ea) (sz : Size) : (eaStep ea sz s).inputs = s.inputs := by cases ea <;> simp [eaStep]
@[simp] theorem eaStep_busWrites (ea : Ea) (sz : Size) : (eaStep ea sz s).busWrites = s.busWrites := by cases ea <;> simp [eaStep]
@[simp] theorem eaStep_draws (ea : Ea) (sz : Size) : (eaStep ea sz s).draws = s.draws := by cases ea <;> simp [eaStep]

/-! State.busTurn -/

@[simp] theorem State.busTurn_d : (s.busTurn).d = s.d := by unfold State.busTurn; split <;> rfl
@[simp] theorem State.busTurn_a : (s.busTurn).a = s.a := by unfold State.busTurn; split <;> rfl
@[simp] theorem State.busTurn_usp : (s.busTurn).usp = s.usp := by unfold State.busTurn; split <;> rfl
@[simp] theorem State.busTurn_ssp : (s.busTurn).ssp = s.ssp := by unfold State.busTurn; split <;> rfl
@[simp] theorem State.busTurn_pc : (s.busTurn).pc = s.pc := by unfold State.busTurn; split <;> rfl
@[simp] theorem State.busTurn_sr : (s.busTurn).sr = s.sr := by unfold State.busTurn; split <;> rfl
@[simp] theorem State.busTurn_run : (s.busTurn).run = s.run := by unfold State.busTurn; split <;> rfl
@[simp] theorem State.busTurn_irqLevel : (s.busTurn).irqLevel = s.irqLevel := by unfold State.busTurn; split <;> rfl
@[simp] theorem State.busTurn_held : (s.busTurn).held = s.held := by unfold State.busTurn; split <;> rfl
@[simp] theorem State.busTurn_tracePending : (s.busTurn).tracePending = s.tracePending := by unfold State.busTurn; split <;> rfl
@[simp] theorem State.busTurn_addrBits : (s.busTurn).addrBits = s.addrBits := by unfold State.busTurn; split <;> rfl
@[simp] theorem State.busTurn_memMap : (s.busTurn).memMap = s.memMap := by unfold State.busTurn; split <;> rfl
@[simp] theorem State.busTurn_inputs : (s.busTurn).inputs = s.inputs := by unfold State.busTurn; split <;> rfl
@[simp] theorem State.busTurn_draws : (s.busTurn).draws = s.draws := by unfold State.busTurn; split <;> rfl

/-! What the updates put in place -/

@[simp] theorem State.drawn_draws : s.drawn.draws = s.draws + 1 := rfl
@[simp] theorem State.halt_run : s.halt.run = .halted := rfl
@[simp] theorem State.halt_tracePending : s.halt.tracePending = false := rfl
@[simp] theorem State.writeSr_sr (v : Word) : (s.writeSr v).sr = v &&& srImplMask := rfl
@[simp] theorem State.afterSample_inputs : s.afterSample.inputs = s.inputs.drop 1 := rfl
@[simp] theorem State.afterSample_irqLevel : s.afterSample.irqLevel = s.sample.level := rfl
@[simp] theorem logicFlags_sr (sz : Size) (r : Long) : (logicFlags sz r s).sr = (s.sr &&& 0xFFF0#16) ||| flagsNZ sz r := rfl

/-- A write of the data register `n` is read back from it (R135). -/
theorem State.setD_dReg_self (sz : Size) (n : Fin 8) (v : Long) :
    (s.setD sz n v).dReg n = (s.dReg n &&& ~~~sz.mask) ||| (v &&& sz.mask) := by
  simp [State.dReg, State.setD]

/-- A write of a data register leaves the others (R20). -/
theorem State.setD_dReg_other (sz : Size) (n m : Fin 8) (v : Long) (h : m ≠ n) :
    (s.setD sz n v).dReg m = s.dReg m := by
  have : n.val ≠ m.val := fun e => h (Fin.ext e.symm)
  simp [State.dReg, State.setD, this]

/-- S survives the flag rule and a write of the CCR (R25, R139). -/
@[simp] theorem logicFlags_super (sz : Size) (r : Long) : (logicFlags sz r s).super = s.super := by
  unfold State.super
  rw [logicFlags_sr]
  unfold flagsNZ
  simp only [BitVec.getLsbD_or, BitVec.getLsbD_and]
  split <;> split <;> simp

@[simp] theorem State.writeCcr_super (v : Byte) : (s.writeCcr v).super = s.super := by
  simp [State.super, State.writeCcr]

@[simp] theorem State.enterSupervisor_super : s.enterSupervisor.super = true := by
  simp [State.super, State.enterSupervisor]

@[simp] theorem State.enterSupervisor_traceBit : s.enterSupervisor.traceBit = false := by
  simp [State.traceBit, State.enterSupervisor]

@[simp] theorem State.setMask_super (level : BitVec 3) : (s.setMask level).super = s.super := by
  simp [State.super, State.setMask]

@[simp] theorem State.setA_super (n : Fin 8) (v : Long) : (s.setA n v).super = s.super := by
  simp [State.super]

@[simp] theorem eaStep_super (ea : Ea) (sz : Size) : (eaStep ea sz s).super = s.super := by
  simp [State.super]

@[simp] theorem eaStep_dReg (ea : Ea) (sz : Size) (n : Fin 8) : (eaStep ea sz s).dReg n = s.dReg n := by
  simp [State.dReg]

/-- A write of an address register is read back from it (R10, R22). -/
theorem State.setA_aReg_self (n : Fin 8) (v : Long) : (s.setA n v).aReg n = v := by
  unfold State.setA State.aReg
  by_cases h : n.val < 7
  · simp [h]
  · by_cases hs : s.super = true <;> simp [h, State.sp, State.super] at hs ⊢ <;> simp [hs]

/-- Writing an address register twice keeps the second value. -/
theorem State.setA_setA (n : Fin 8) (v w : Long) : (s.setA n v).setA n w = s.setA n w := by
  unfold State.setA
  by_cases h : n.val < 7
  · simp [h]
  · by_cases hs : s.super = true <;> simp [h, State.super] at hs ⊢ <;> simp [hs]

/-- Writing back what an address register holds changes nothing. -/
theorem State.setA_aReg (n : Fin 8) : s.setA n (s.aReg n) = s := by
  unfold State.setA State.aReg
  by_cases h : n.val < 7
  · simp [h]
  · by_cases hs : s.super = true <;> simp [h, State.sp, hs]

end Sys2Proof.Machine
end

