-- ==== Sys2Proof/Laws/Access.lean ====
section
/-! SUPPORT. What an access can do to the state (`BusStep`), and what it does in plain storage with no other bus master. -/

namespace Sys2Proof.Machine

/-! ### The relation every access keeps to -/

/-- Memory in canonical form, what is held in order, all addresses within the physical space. -/
def State.CellsOk (s : State) : Prop :=
  s.mem.wf = true ∧ (∀ c ∈ s.mem, c.1 < 2 ^ s.physBits)
  ∧ risingFrom 0 s.held = true ∧ (∀ c ∈ s.held, c.1 < 2 ^ s.physBits)

/-- What an access may change: memory, what is held, the coming bus writes and the counter of free values. -/
structure BusStep (s t : State) : Prop where
  d : t.d = s.d
  a : t.a = s.a
  usp : t.usp = s.usp
  ssp : t.ssp = s.ssp
  pc : t.pc = s.pc
  sr : t.sr = s.sr
  run : t.run = s.run
  irqLevel : t.irqLevel = s.irqLevel
  tracePending : t.tracePending = s.tracePending
  addrBits : t.addrBits = s.addrBits
  memMap : t.memMap = s.memMap
  inputs : t.inputs = s.inputs
  cells : s.CellsOk → t.CellsOk

theorem BusStep.refl (s : State) : BusStep s s :=
  ⟨rfl, rfl, rfl, rfl, rfl, rfl, rfl, rfl, rfl, rfl, rfl, rfl, id⟩

theorem BusStep.trans {s t u : State} (h : BusStep s t) (k : BusStep t u) : BusStep s u :=
  ⟨k.d.trans h.d, k.a.trans h.a, k.usp.trans h.usp, k.ssp.trans h.ssp, k.pc.trans h.pc, k.sr.trans h.sr,
    k.run.trans h.run, k.irqLevel.trans h.irqLevel, k.tracePending.trans h.tracePending,
    k.addrBits.trans h.addrBits, k.memMap.trans h.memMap, k.inputs.trans h.inputs, fun c => k.cells (h.cells c)⟩

/-- The same, of the state an access leaves, whether it answers or aborts. -/
def Access.Steps {α : Type} (s : State) : Access α → Prop
  | .ok _ t => BusStep s t
  | .abort _ t => BusStep s t

theorem BusStep.physBits {s t : State} (h : BusStep s t) : t.physBits = s.physBits := by
  simp [State.physBits, h.addrBits]

theorem BusStep.super {s t : State} (h : BusStep s t) : t.super = s.super := by simp [State.super, h.sr]

theorem State.phys_pos (s : State) : 0 < 2 ^ s.physBits := Nat.two_pow_pos _

theorem phys_lt (s : State) (a : Addr) : s.phys a < 2 ^ s.physBits := Nat.mod_lt _ (Nat.two_pow_pos _)

/-- A draw changes the counter alone. -/
theorem busStep_drawn (s : State) : BusStep s s.drawn :=
  ⟨rfl, rfl, rfl, rfl, rfl, rfl, rfl, rfl, rfl, rfl, rfl, rfl, id⟩

theorem cellsOk_foldl (ws : List Host.Cell) (n : Nat) (hn : 0 < n) (m : Memory)
    (h : m.wf = true ∧ ∀ c ∈ m, c.1 < n) :
    (ws.foldl (fun m c => Memory.write m (c.1 % n) c.2) m).wf = true
      ∧ ∀ c ∈ ws.foldl (fun m c => Memory.write m (c.1 % n) c.2) m, c.1 < n := by
  induction ws generalizing m with
  | nil => exact h
  | cons w ws ih =>
    refine ih _ ⟨Memory.wf_write _ _ _ h.1, fun c hc => ?_⟩
    rcases Memory.mem_write hc with e | hc
    · rw [e]; exact Nat.mod_lt _ hn
    · exact h.2 c hc

theorem busStep_busTurn (s : State) : BusStep s s.busTurn := by
  unfold State.busTurn
  split
  · exact BusStep.refl s
  · rename_i ws rest _
    refine ⟨rfl, rfl, rfl, rfl, rfl, rfl, rfl, rfl, rfl, rfl, rfl, rfl, fun h => ?_⟩
    have k := cellsOk_foldl ws _ (s.phys_pos) s.mem ⟨h.1, h.2.1⟩
    exact ⟨k.1, k.2, h.2.2⟩

/-- A byte read changes the counter at most (R66). -/
theorem busStep_readByte (s : State) (a : Addr) (sp : Space) : BusStep s (s.readByte a sp).2 := by
  unfold State.readByte
  split <;> first | exact BusStep.refl s | exact busStep_drawn s

theorem busStep_readByteCycle (s : State) (a : Addr) (sp : Space) : BusStep s (s.readByteCycle a sp).2 :=
  (busStep_busTurn s).trans (busStep_readByte _ _ _)

theorem busStep_readWordCycle (s : State) (a : Addr) (sp : Space) : BusStep s (s.readWordCycle a sp).2 :=
  (busStep_busTurn s).trans
    ((busStep_readByte s.busTurn a sp).trans (busStep_readByte (s.busTurn.readByte a sp).2 (a + 1#32) sp))

theorem busStep_readLongCycles (s : State) (a : Addr) (sp : Space) : BusStep s (s.readLongCycles a sp).2 := by
  have hi (s : State) : BusStep s (s.readHighFirst a sp).2 :=
    (busStep_readWordCycle s a sp).trans (busStep_readWordCycle (s.readWordCycle a sp).2 (a + 2#32) sp)
  have lo (s : State) : BusStep s (s.readLowFirst a sp).2 :=
    (busStep_readWordCycle s (a + 2#32) sp).trans (busStep_readWordCycle (s.readWordCycle (a + 2#32) sp).2 a sp)
  unfold State.readLongCycles
  split
  · exact hi s
  · split
    · exact (busStep_drawn s).trans (hi _)
    · exact (busStep_drawn s).trans (lo _)

/-- `MemRead` (R54) changes nothing but what a bus cycle may. -/
theorem memRead_steps (s : State) (a : Addr) (sz : Size) (sp : Space) : (s.memRead a sz sp).Steps s := by
  unfold State.memRead
  split
  · exact BusStep.refl s
  · split
    · exact BusStep.refl s
    · cases sz
      · exact busStep_readByteCycle s a sp
      · exact busStep_readWordCycle s a sp
      · exact busStep_readLongCycles s a sp

theorem busStep_storeByte (s : State) (a : Addr) (v : Byte) : BusStep s (s.storeByte a v) := by
  unfold State.storeByte
  split
  · refine ⟨rfl, rfl, rfl, rfl, rfl, rfl, rfl, rfl, rfl, rfl, rfl, rfl, fun h => ⟨Memory.wf_write _ _ _ h.1,
      fun c hc => ?_, risingFrom_dropCell _ _ _ h.2.2.1, fun c hc => h.2.2.2 c (mem_dropCell hc)⟩⟩
    rcases Memory.mem_write hc with e | hc
    · rw [e]; exact phys_lt s a
    · exact h.2.1 c hc
  all_goals exact BusStep.refl s

theorem busStep_storeWordCycle (s : State) (a : Addr) (v : Word) : BusStep s (s.storeWordCycle a v) :=
  (busStep_busTurn s).trans ((busStep_storeByte _ _ _).trans (busStep_storeByte _ _ _))

theorem busStep_storeWords (s : State) (ws : List PendingWord) : BusStep s (s.storeWords ws) := by
  induction ws generalizing s with
  | nil => exact BusStep.refl s
  | cons w ws ih => exact (busStep_storeWordCycle s _ _).trans (ih _)

theorem busStep_storeSome (s : State) (ws : List PendingWord) : BusStep s (s.storeSome ws) := by
  induction ws generalizing s with
  | nil => exact BusStep.refl s
  | cons w ws ih =>
    unfold State.storeSome
    split
    · exact ih s
    · refine BusStep.trans ?_ (ih _)
      have t := busStep_busTurn s
      have c := busStep_storeWordCycle s w.addr w.value
      refine ⟨t.d, t.a, t.usp, t.ssp, t.pc, t.sr, t.run, t.irqLevel, t.tracePending, t.addrBits, t.memMap, t.inputs,
        fun h => ?_⟩
      cases hf : Config.freeFlag s.draws
      · exact t.cells h
      · have := c.cells h
        simp only [State.CellsOk, State.physBits, c.addrBits, t.addrBits, cond_true] at this ⊢
        exact this

theorem busStep_freeOrder {α : Type} (n : Nat) (xs : List α) (s : State) : BusStep s (freeOrder n xs s).2 := by
  induction n generalizing xs s with
  | zero => exact BusStep.refl s
  | succ n ih =>
    unfold freeOrder
    dsimp only
    split
    · exact BusStep.refl s
    · exact (busStep_drawn s).trans (ih _ _)

theorem busStep_writeOrder (s : State) (ws : List PendingWord) : BusStep s (s.writeOrder ws).2 := by
  unfold State.writeOrder
  split
  · exact BusStep.refl s
  · exact busStep_freeOrder _ _ _

theorem busStep_storeWordsFree (s : State) (ws : List PendingWord) : BusStep s (s.storeWordsFree ws) :=
  (busStep_writeOrder s ws).trans (busStep_storeWords _ _)

theorem busStep_storeSomeFree (s : State) (ws : List PendingWord) : BusStep s (s.storeSomeFree ws) :=
  (busStep_writeOrder s ws).trans (busStep_storeSome _ _)

/-- `MemWrite` (R54) changes nothing but what a bus cycle may. -/
theorem memWrite_steps (s : State) (a : Addr) (sz : Size) (v : Long) : (s.memWrite a sz v).Steps s := by
  unfold State.memWrite
  split
  · exact BusStep.refl s
  · split
    · cases sz
      · exact BusStep.refl s
      · exact BusStep.refl s
      · exact busStep_storeSomeFree s _
    · cases sz
      · exact (busStep_busTurn s).trans (busStep_storeByte _ _ _)
      · exact busStep_storeWordCycle s _ _
      · exact busStep_storeWordsFree s _

/-- A frame written or not (R221, R222, U8) changes nothing but what a bus cycle may. -/
theorem writeFrame_steps (s : State) (ws : List PendingWord) : (s.writeFrame ws).Steps s := by
  unfold State.writeFrame
  split
  · exact BusStep.refl s
  · split
    · exact (busStep_drawn s).trans (busStep_storeSomeFree _ _)
    · exact busStep_storeWordsFree s ws

theorem busStep_fetchByte (s : State) (a : Addr) : BusStep s (s.fetchByte a).2 := by
  have drop : BusStep s { s with held := dropCell s.held (s.phys a) } :=
    ⟨rfl, rfl, rfl, rfl, rfl, rfl, rfl, rfl, rfl, rfl, rfl, rfl, fun h => ⟨h.1, h.2.1,
      risingFrom_dropCell _ _ _ h.2.2.1, fun c hc => h.2.2.2 c (mem_dropCell hc)⟩⟩
  unfold State.fetchByte
  split <;> first | exact drop | exact busStep_drawn s

/-- `Fetch16` (R54) changes nothing but what a bus cycle may. -/
theorem fetch16_steps (s : State) (a : Addr) : (s.fetch16 a).Steps s := by
  unfold State.fetch16
  split
  · exact BusStep.refl s
  · split
    · exact BusStep.refl s
    · exact (busStep_busTurn s).trans ((busStep_fetchByte _ _).trans (busStep_fetchByte _ _))

theorem fetchWords_steps (s : State) (a : Addr) (n : Nat) : (s.fetchWords a n).Steps s := by
  induction n generalizing s a with
  | zero => exact BusStep.refl s
  | succ n ih =>
    unfold State.fetchWords
    have h := fetch16_steps s a
    split
    · simp_all [Access.Steps]
    · rename_i w s1 e
      rw [e] at h
      have k := ih s1 (a + 2#32)
      split
      · rename_i e2 s2 e'
        rw [e'] at k
        exact BusStep.trans h k
      · rename_i ws s2 e'
        rw [e'] at k
        exact BusStep.trans h k

theorem windowCells_bound (s : State) (pc0 : Addr) (len : Nat) (a : Addr) (n : Nat) :
    ∀ c ∈ s.windowCells pc0 len a n, c.1 < 2 ^ s.physBits := by
  induction n with
  | zero => simp [State.windowCells]
  | succ n ih =>
    intro c hc
    unfold State.windowCells at hc
    dsimp only at hc
    split at hc
    · rcases List.mem_cons.1 hc with rfl | hc
      · exact phys_lt s _
      · exact ih c hc
    · exact ih c hc

theorem held_foldl (cs : List Host.Cell) (n : Nat) (h : List Host.Cell) (hc : ∀ c ∈ cs, c.1 < n)
    (hr : risingFrom 0 h = true ∧ ∀ c ∈ h, c.1 < n) :
    risingFrom 0 (cs.foldl (fun h c => putCell h c.1 c.2) h) = true
      ∧ ∀ c ∈ cs.foldl (fun h c => putCell h c.1 c.2) h, c.1 < n := by
  induction cs generalizing h with
  | nil => exact hr
  | cons w cs ih =>
    refine ih _ (fun c hx => hc c (List.mem_cons_of_mem _ hx))
      ⟨risingFrom_putCell _ _ _ _ hr.1 (Nat.zero_le _), fun c hx => ?_⟩
    rcases mem_putCell hx with rfl | hx
    · exact hc _ List.mem_cons_self
    · exact hr.2 c hx

/-- The prefetch hazard (R274) touches what is held and the counter. -/
theorem busStep_holdPrefetched (s t : State) (hp : t.physBits = s.physBits) (pc0 : Addr) (len : Nat) (a : Addr)
    (n : Nat) : BusStep t (holdPrefetched s t pc0 len a n) := by
  unfold holdPrefetched
  dsimp only
  split
  · exact BusStep.refl t
  · refine ⟨rfl, rfl, rfl, rfl, rfl, rfl, rfl, rfl, rfl, rfl, rfl, rfl, fun h => ?_⟩
    cases Config.freeFlag t.draws
    · exact h
    · have := held_foldl ((s.windowCells pc0 len a n).filter (fun c => t.fetchView c.1 != c.2)) _ t.held
        (fun c hc => hp ▸ windowCells_bound s pc0 len a n c (List.mem_of_mem_filter hc)) h.2.2
      exact ⟨h.1, h.2.1, this.1, this.2⟩

/-- `ReadLoc` (R134) changes nothing but what a bus cycle may. -/
theorem readLoc_steps (loc : Loc) (sz : Size) (s : State) : (readLoc loc sz s).Steps s := by
  cases loc
  · exact BusStep.refl s
  · exact memRead_steps s _ _ _
  · exact BusStep.refl s

/-- `WriteLoc` to memory (R135) changes nothing but what a bus cycle may; to a register, that register alone. -/
theorem writeLoc_steps (loc : Loc) (sz : Size) (v : Long) (pc0 : Addr) (len : Nat) (s : State)
    (h : ∀ n, loc ≠ .dreg n) : (writeLoc loc sz v pc0 len s).Steps s := by
  cases loc with
  | dreg n => exact absurd rfl (h n)
  | imm v => exact BusStep.refl s
  | mem a sp =>
    have k := memWrite_steps s a sz v
    unfold writeLoc
    dsimp only
    split
    · rename_i s1 e
      rw [e] at k
      exact BusStep.trans k (busStep_holdPrefetched s _ (BusStep.physBits k) _ _ _ _)
    · rename_i er s1 e
      rw [e] at k
      exact BusStep.trans k (busStep_holdPrefetched s _ (BusStep.physBits k) _ _ _ _)

end Sys2Proof.Machine
end

