-- ==== Sys2Proof/Laws/Plain.lean ====
section
/-! SUPPORT. Accesses in plain storage with no other bus master: what a read gives, what a write leaves. -/

namespace Sys2Proof.Machine

/-! ### Physical addresses -/

/-- Two addresses a small distance from one another are different bytes (R58). -/
theorem State.phys_add_inj (s : State) (a i j : Addr) (hi : i.toNat < 2 ^ 24) (hj : j.toNat < 2 ^ 24) :
    s.phys (a + i) = s.phys (a + j) ↔ i = j := by
  refine ⟨fun h => ?_, fun h => h ▸ rfl⟩
  have hx : s.addrBits.val < 9 := s.addrBits.isLt
  have hd : 2 ^ s.physBits ∣ 2 ^ 32 := Nat.pow_dvd_pow 2 (by simp only [State.physBits]; omega)
  have hle : 2 ^ 24 ≤ 2 ^ s.physBits := Nat.pow_le_pow_right (by omega) (by simp only [State.physBits]; omega)
  simp only [State.phys, BitVec.toNat_add, Nat.mod_mod_of_dvd _ hd] at h
  have k : i.toNat ≡ j.toNat [MOD 2 ^ s.physBits] := Nat.ModEq.add_left_cancel' a.toNat h
  have := Nat.ModEq.eq_of_lt_of_lt k (by omega) (by omega)
  exact BitVec.eq_of_toNat_eq this

theorem State.phys_add_ne (s : State) (a i j : Addr) (hi : i.toNat < 2 ^ 24) (hj : j.toNat < 2 ^ 24) (h : i ≠ j) :
    s.phys (a + i) ≠ s.phys (a + j) :=
  fun e => h ((s.phys_add_inj a i j hi hj).1 e)

theorem State.phys_ne_add (s : State) (a j : Addr) (hj : j.toNat < 2 ^ 24) (h : j ≠ 0#32) :
    s.phys a ≠ s.phys (a + j) := by
  have := s.phys_add_ne a 0#32 j (by decide) hj (Ne.symm h)
  simpa using this

/-! ### The address map -/

/-- With no region listed, everything is Ram (the default of the spec's test programs). -/
theorem State.mapAt_of_noRegion (s : State) (h : s.memMap = []) (a : Addr) (write : Bool) (sp : Space) :
    s.mapAt a write sp = .ram := by
  simp [State.mapAt, h, lookupMap]

theorem State.anyFault_readsPlain (s : State) (a : Addr) (sp : Space) (n : Nat) (h : s.readsPlain a n sp) :
    s.anyFault a false sp n = false := by
  induction n with
  | zero => rfl
  | succ n ih =>
    rw [State.anyFault, ih (fun k hk => h k (by omega))]
    rcases h n (by omega) with e | e <;> simp [e]

theorem State.anyFault_writesPlain (s : State) (a : Addr) (n : Nat) (h : s.writesPlain a n) :
    s.anyFault a true .data n = false := by
  induction n with
  | zero => rfl
  | succ n ih =>
    rw [State.anyFault, ih (fun k hk => h k (by omega))]
    simp [h n (by omega)]

theorem oddFor_aligned (sz : Size) (a : Addr) (h : alignedFor sz a) : oddFor sz a = false := by
  rcases h with rfl | h
  · rfl
  · cases sz <;> first | rfl | exact h

@[simp] theorem State.busTurn_quiet (s : State) (h : s.busWrites = []) : s.busTurn = s := by
  simp [State.busTurn, h]

/-! ### Reads -/

theorem State.readByte_plain (s : State) (a : Addr) (sp : Space)
    (h : s.mapAt a false sp = .ram ∨ s.mapAt a false sp = .rom) : s.readByte a sp = (s.byteAt a, s) := by
  rcases h with h | h <;> simp [State.readByte, h, State.byteAt]

theorem State.readWordCycle_plain (s : State) (a : Addr) (sp : Space) (hb : s.busWrites = [])
    (h : s.readsPlain a 2 sp) :
    s.readWordCycle a sp = (wordOfBytes (s.byteAt a) (s.byteAt (a + 1#32)), s) := by
  have h0 : s.mapAt a false sp = .ram ∨ s.mapAt a false sp = .rom := by simpa using h 0 (by omega)
  have h1 : s.mapAt (a + 1#32) false sp = .ram ∨ s.mapAt (a + 1#32) false sp = .rom := h 1 (by omega)
  simp [State.readWordCycle, State.busTurn_quiet s hb, State.readByte_plain s a sp h0,
    State.readByte_plain s (a + 1#32) sp h1]

theorem add_two_one (a : Addr) : a + 2#32 + 1#32 = a + 3#32 := by rw [BitVec.add_assoc]; rfl

theorem longOfWords_bytes (w x y z : Byte) :
    longOfWords (wordOfBytes w x) (wordOfBytes y z) = w ++ x ++ y ++ z := by
  simp only [longOfWords, wordOfBytes]
  exact (BitVec.append_assoc (x₁ := w ++ x) (x₂ := y) (x₃ := z)).symm

/-- `MemRead` in plain storage gives the big-endian value of the size and changes nothing (R51, R54, R66). -/
theorem memRead_plain (s : State) (a : Addr) (sz : Size) (sp : Space) (hb : s.busWrites = [])
    (ha : alignedFor sz a) (h : s.readsPlain a sz.bytes sp) : s.memRead a sz sp = .ok (s.valueAt a sz) s := by
  unfold State.memRead
  rw [oddFor_aligned sz a ha, s.anyFault_readsPlain a sp _ h]
  cases sz
  · have h0 : s.mapAt a false sp = .ram ∨ s.mapAt a false sp = .rom := by simpa using h 0 (by decide)
    simp [State.readByteCycle, hb, s.readByte_plain a sp h0, State.valueAt]
  · simp only [Bool.false_eq_true, if_false, s.readWordCycle_plain a sp hb h, State.valueAt, wordOfBytes]
  · have lo : s.readWordCycle a sp = _ := s.readWordCycle_plain a sp hb (fun k hk => h k (by simp only [Size.bytes]; omega))
    have h2 : s.readsPlain (a + 2#32) 2 sp := fun k hk => by
      have := h (k + 2) (by simp only [Size.bytes]; omega)
      rwa [show a + BitVec.ofNat 32 (k + 2) = a + 2#32 + BitVec.ofNat 32 k from by
        rw [BitVec.add_assoc]; congr 1; rw [BitVec.add_comm, BitVec.ofNat_add]] at this
    have hi : s.readWordCycle (a + 2#32) sp = _ := s.readWordCycle_plain (a + 2#32) sp hb h2
    simp [State.readLongCycles, hb, State.readHighFirst, lo, hi, State.valueAt, add_two_one, longOfWords_bytes]

/-! ### Writes -/

theorem State.storeByte_plain (s : State) (a : Addr) (v : Byte) (h : s.mapAt a true .data = .ram) :
    s.storeByte a v = { s with mem := s.mem.write (s.phys a) v, held := dropCell s.held (s.phys a) } := by
  simp [State.storeByte, h]

/-- `t` is `s` but for memory and what is held. -/
def MemOnly (s t : State) : Prop := t = { s with mem := t.mem, held := t.held }

theorem MemOnly.refl (s : State) : MemOnly s s := rfl

theorem MemOnly.trans {s t u : State} (h : MemOnly s t) (k : MemOnly t u) : MemOnly s u := by
  rw [MemOnly] at *; rw [k, h]

theorem MemOnly.phys {s t : State} (h : MemOnly s t) (a : Addr) : t.phys a = s.phys a := by
  rw [h]; rfl

theorem MemOnly.mapAt {s t : State} (h : MemOnly s t) (a : Addr) (w : Bool) (sp : Space) :
    t.mapAt a w sp = s.mapAt a w sp := by
  rw [h]; rfl

theorem MemOnly.busWrites {s t : State} (h : MemOnly s t) : t.busWrites = s.busWrites := by
  rw [h]

/-- A byte is in memory and is what an instruction fetch of it sees. -/
abbrev State.holdsByte (s : State) (a : Addr) (v : Byte) : Prop := s.byteAt a = v ∧ s.streamAt a = v

/-- What a fetch of a byte sees after a byte is stored in RAM: the new byte, else what it saw before (R62). -/
theorem State.storeByte_fetchView (s : State) (a : Addr) (v : Byte) (h : s.mapAt a true .data = .ram) (p : Nat) :
    (s.storeByte a v).fetchView p = if p = s.phys a then v else s.fetchView p := by
  rw [s.storeByte_plain a v h]
  simp only [State.fetchView, findCell_dropCell, Memory.read_write]
  split <;> rfl

/-- A byte that is as it was keeps what it holds. -/
theorem State.holdsByte_of_same {s t : State} {a : Addr} {v : Byte} (h : s.holdsByte a v) (k : s.sameAt t a) :
    t.holdsByte a v := ⟨k.1.trans h.1, k.2.trans h.2⟩

/-- A word stored in plain storage: its two bytes, and no other. -/
theorem State.storeWordCycle_plain (s : State) (a : Addr) (v : Word) (hb : s.busWrites = []) (h : s.writesPlain a 2) :
    MemOnly s (s.storeWordCycle a v)
    ∧ (s.storeWordCycle a v).holdsByte a (hiByte v) ∧ (s.storeWordCycle a v).holdsByte (a + 1#32) (loByte v)
    ∧ ∀ b, s.outside a 2 b → s.sameAt (s.storeWordCycle a v) b := by
  have h0 : s.mapAt a true .data = .ram := by simpa using h 0 (by omega)
  have h1 : s.mapAt (a + 1#32) true .data = .ram := h 1 (by omega)
  have e : s.storeWordCycle a v =
      { s with mem := (s.mem.write (s.phys a) (hiByte v)).write (s.phys (a + 1#32)) (loByte v),
               held := dropCell (dropCell s.held (s.phys a)) (s.phys (a + 1#32)) } := by
    rw [State.storeWordCycle, State.busTurn_quiet s hb, State.storeByte_plain s a _ h0, State.storeByte_plain]
    · rfl
    · exact h1
  have n : s.phys a ≠ s.phys (a + 1#32) := s.phys_ne_add a 1#32 (by decide) (by decide)
  have view (p : Nat) : (s.storeWordCycle a v).fetchView p
      = if p = s.phys (a + 1#32) then loByte v else if p = s.phys a then hiByte v else s.fetchView p := by
    have h1' : (s.storeByte a (hiByte v)).mapAt (a + 1#32) true .data = .ram := by
      rw [State.storeByte_plain s a _ h0]; exact h1
    have ph : (s.storeByte a (hiByte v)).phys (a + 1#32) = s.phys (a + 1#32) := by
      rw [State.storeByte_plain s a _ h0]; rfl
    rw [State.storeWordCycle, State.busTurn_quiet s hb, State.storeByte_fetchView _ _ _ h1', ph,
      State.storeByte_fetchView _ _ _ h0]
  have stream (b : Addr) : (s.storeWordCycle a v).streamAt b = (s.storeWordCycle a v).fetchView (s.phys b) := by
    rw [e]; rfl
  refine ⟨by rw [e]; rfl, ⟨?_, ?_⟩, ⟨?_, ?_⟩, fun b hb => ⟨?_, ?_⟩⟩
  · rw [e]
    change Memory.read _ (s.phys a) = _
    rw [Memory.read_write_other _ _ _ _ n, Memory.read_write_self]
  · rw [stream, view, if_neg n, if_pos rfl]
  · rw [e]
    change Memory.read _ (s.phys (a + 1#32)) = _
    rw [Memory.read_write_self]
  · rw [stream, view, if_pos rfl]
  all_goals
    have b0 : s.phys b ≠ s.phys a := by simpa using hb 0 (by omega)
    have b1 : s.phys b ≠ s.phys (a + 1#32) := hb 1 (by omega)
  · rw [e]
    change Memory.read _ (s.phys b) = _
    rw [Memory.read_write_other _ _ _ _ b1, Memory.read_write_other _ _ _ _ b0]
    rfl
  · rw [stream, view, if_neg b1, if_neg b0]
    rfl

/-- Words stored one after the other in plain storage, no two of them overlapping: each is there, and no other byte has
changed. -/
theorem State.storeWords_plain (s : State) (ws : List PendingWord) (hb : s.busWrites = [])
    (hw : ∀ w ∈ ws, s.writesPlain w.addr 2)
    (hd : ws.Pairwise (fun w x => s.outside x.addr 2 w.addr ∧ s.outside x.addr 2 (w.addr + 1#32))) :
    MemOnly s (s.storeWords ws)
    ∧ (∀ w ∈ ws, (s.storeWords ws).holdsByte w.addr (hiByte w.value)
        ∧ (s.storeWords ws).holdsByte (w.addr + 1#32) (loByte w.value))
    ∧ ∀ b, (∀ w ∈ ws, s.outside w.addr 2 b) → s.sameAt (s.storeWords ws) b := by
  induction ws generalizing s with
  | nil => exact ⟨rfl, by simp, fun _ _ => ⟨rfl, rfl⟩⟩
  | cons w ws ih =>
    obtain ⟨m1, hi1, lo1, out1⟩ := s.storeWordCycle_plain w.addr w.value hb (hw w List.mem_cons_self)
    have hout (x b : Addr) : (s.storeWordCycle w.addr w.value).outside x 2 b ↔ s.outside x 2 b := by
      simp only [State.outside, m1.phys]
    have hd' := List.pairwise_cons.1 hd
    obtain ⟨m2, in2, out2⟩ := ih (s.storeWordCycle w.addr w.value) (m1.busWrites.trans hb)
      (fun x hx k hk => by rw [m1.mapAt]; exact hw x (List.mem_cons_of_mem _ hx) k hk)
      (hd'.2.imp fun {x y} h => ⟨(hout _ _).2 h.1, (hout _ _).2 h.2⟩)
    refine ⟨m1.trans m2, fun x hx => ?_, fun b hb' => ?_⟩
    · rcases List.mem_cons.1 hx with rfl | hx
      · exact ⟨State.holdsByte_of_same hi1 (out2 _ fun y hy => (hout _ _).2 (hd'.1 y hy).1),
          State.holdsByte_of_same lo1 (out2 _ fun y hy => (hout _ _).2 (hd'.1 y hy).2)⟩
      · exact in2 x hx
    · have k := out2 b fun y hy => (hout _ _).2 (hb' y (List.mem_cons_of_mem _ hy))
      have k1 := out1 b (hb' w List.mem_cons_self)
      exact ⟨k.1.trans k1.1, k.2.trans k1.2⟩

theorem State.storeWordsFree_quiet (s : State) (ws : List PendingWord) (hb : s.busWrites = []) :
    s.storeWordsFree ws = s.storeWords ws := by
  simp [State.storeWordsFree, State.writeOrder, hb]

/-- The word two bytes of memory make. -/
theorem State.valueAt_word (s : State) (a : Addr) (v : Word) (h : s.byteAt a = hiByte v)
    (l : s.byteAt (a + 1#32) = loByte v) : s.valueAt a .word = v.setWidth 32 := by
  have := wordOfBytes_hi_lo v
  simp only [State.valueAt, h, l]
  exact congrArg (BitVec.setWidth 32) this

/-- The long two words of memory make. -/
theorem State.valueAt_long (s : State) (a : Addr) (v : Long) (h0 : s.byteAt a = hiByte (hiWord v))
    (h1 : s.byteAt (a + 1#32) = loByte (hiWord v)) (h2 : s.byteAt (a + 2#32) = hiByte (loWord v))
    (h3 : s.byteAt (a + 3#32) = loByte (loWord v)) : s.valueAt a .long = v := by
  simp only [State.valueAt, h0, h1, h2, h3]
  rw [← longOfWords_bytes]
  simp

theorem outside_mono (s : State) (a b : Addr) (j n : Nat) (i : Addr) (hi : i = BitVec.ofNat 32 j) (hn : j + 2 ≤ n)
    (h : s.outside a n b) : s.outside (a + i) 2 b := fun k hk => by
  have := h (j + k) (by omega)
  rwa [BitVec.ofNat_add, ← BitVec.add_assoc, ← hi] at this

theorem writesPlain_mono (s : State) (a : Addr) (j n : Nat) (i : Addr) (hi : i = BitVec.ofNat 32 j) (hn : j + 2 ≤ n)
    (h : s.writesPlain a n) : s.writesPlain (a + i) 2 := fun k hk => by
  have := h (j + k) (by omega)
  rwa [BitVec.ofNat_add, ← BitVec.add_assoc, ← hi] at this

/-- `MemWrite` in plain storage stores the value's bytes big-endian and nothing else (R51, R54); a fetch of any byte sees
what memory holds of it or what it saw before (R62). -/
theorem memWrite_plain (s : State) (a : Addr) (sz : Size) (v : Long) (hb : s.busWrites = [])
    (ha : alignedFor sz a) (hw : s.writesPlain a sz.bytes) :
    ∃ t, s.memWrite a sz v = .ok () t ∧ MemOnly s t ∧ t.valueAt a sz = v &&& sz.mask
      ∧ (∀ b, s.outside a sz.bytes b → s.sameAt t b)
      ∧ ∀ b, t.streamAt b = t.byteAt b ∨ t.streamAt b = s.streamAt b := by
  suffices key : ∃ t, s.memWrite a sz v = .ok () t ∧ MemOnly s t ∧ t.valueAt a sz = v &&& sz.mask
      ∧ (∀ b, s.outside a sz.bytes b → s.sameAt t b) ∧ ∀ k < sz.bytes, ∃ x, t.holdsByte (a + BitVec.ofNat 32 k) x by
    obtain ⟨t, e, m, val, out, inn⟩ := key
    refine ⟨t, e, m, val, out, fun b => ?_⟩
    by_cases ho : s.outside a sz.bytes b
    · exact .inr (out b ho).2
    · simp only [State.outside, not_forall, not_not] at ho
      obtain ⟨k, hk, hp⟩ := ho
      obtain ⟨x, hx⟩ := inn k hk
      simp only [State.holdsByte, State.byteAt, State.streamAt, m.phys, ← hp] at hx
      simp only [State.byteAt, State.streamAt, m.phys]
      exact .inl (hx.2.trans hx.1.symm)
  unfold State.memWrite
  rw [oddFor_aligned sz a ha, s.anyFault_writesPlain a _ hw]
  cases sz
  · have h0 : s.mapAt a true .data = .ram := by simpa using hw 0 (by decide)
    have view := s.storeByte_fetchView a (v.setWidth 8) h0
    refine ⟨_, rfl, ?_, ?_, fun b hb' => ⟨?_, ?_⟩, fun k hk => ?_⟩
    all_goals simp only [State.storeByteCycle, State.busTurn_quiet s hb, s.storeByte_plain a _ h0] at view ⊢
    · rfl
    · simp only [State.valueAt, State.byteAt]
      change (Memory.read (s.mem.write (s.phys a) (v.setWidth 8)) (s.phys a)).setWidth 32 = _
      rw [Memory.read_write_self]
      apply BitVec.eq_of_getLsbD_eq
      intro i hi
      simp only [Size.mask, BitVec.getLsbD_setWidth, BitVec.getLsbD_and]
      by_cases h : i < 8
      · interval_cases i <;> simp
      · interval_cases i <;> simp
    · have b0 : s.phys b ≠ s.phys a := by simpa using hb' 0 (by decide)
      exact Memory.read_write_other _ _ _ _ b0
    · have b0 : s.phys b ≠ s.phys a := by simpa using hb' 0 (by decide)
      exact (view (s.phys b)).trans (if_neg b0)
    · obtain rfl : k = 0 := by simpa [Size.bytes] using hk
      simp only [BitVec.add_zero]
      exact ⟨v.setWidth 8, Memory.read_write_self _ _ _, (view (s.phys a)).trans (if_pos rfl)⟩
  · obtain ⟨m, h0, h1, out⟩ := s.storeWordCycle_plain a (v.setWidth 16) hb hw
    refine ⟨_, rfl, m, ?_, out, fun k hk => ?_⟩
    rotate_left
    · have hk' : k = 0 ∨ k = 1 := by simp only [Size.bytes] at hk; omega
      rcases hk' with rfl | rfl
      · exact ⟨_, by simpa using h0⟩
      · exact ⟨_, h1⟩
    rw [State.valueAt_word _ a (v.setWidth 16) h0.1 h1.1]
    apply BitVec.eq_of_getLsbD_eq
    intro i hi
    simp only [Size.mask, BitVec.getLsbD_setWidth, BitVec.getLsbD_and]
    interval_cases i <;> simp
  · obtain ⟨m, inn, out⟩ := s.storeWords_plain (longWords a v) hb
      (by
        intro w hw'
        simp only [longWords, List.mem_cons, List.not_mem_nil, or_false] at hw'
        rcases hw' with rfl | rfl
        · exact fun k hk => hw k (by simp only [Size.bytes]; omega)
        · exact writesPlain_mono s a 2 4 _ rfl (by omega) hw)
      (by
        simp only [longWords, List.pairwise_cons, List.mem_singleton, forall_eq, List.not_mem_nil,
          false_imp_iff, implies_true, List.Pairwise.nil, and_true]
        refine ⟨fun k hk => ?_, fun k hk => ?_⟩
        · have hk' : k = 0 ∨ k = 1 := by omega
          rcases hk' with rfl | rfl
          · simpa using s.phys_ne_add a 2#32 (by decide) (by decide)
          · rw [add_two_one]; exact s.phys_ne_add a 3#32 (by decide) (by decide)
        · have hk' : k = 0 ∨ k = 1 := by omega
          rcases hk' with rfl | rfl
          · simpa using s.phys_add_ne a 1#32 2#32 (by decide) (by decide) (by decide)
          · rw [add_two_one]; exact s.phys_add_ne a 1#32 3#32 (by decide) (by decide) (by decide))
    obtain ⟨h0, h1⟩ := inn _ (List.mem_cons_self)
    obtain ⟨h2, h3⟩ := inn { addr := a + 2#32, access := a, value := loWord v } (by simp [longWords])
    rw [add_two_one] at h3
    refine ⟨_, rfl, ?_, ?_, ?_, fun k hk => ?_⟩
    all_goals simp only [s.storeWordsFree_quiet _ hb]
    · exact m
    · rw [State.valueAt_long _ a v h0.1 h1.1 h2.1 h3.1]
      exact (BitVec.and_allOnes (x := v)).symm
    · intro b hb'
      refine out b fun w hw' => ?_
      simp only [longWords, List.mem_cons, List.not_mem_nil, or_false] at hw'
      rcases hw' with rfl | rfl
      · exact fun k hk => hb' k (by simp only [Size.bytes]; omega)
      · exact outside_mono s a b 2 4 _ rfl (by omega) hb'
    · have hk' : k = 0 ∨ k = 1 ∨ k = 2 ∨ k = 3 := by simp only [Size.bytes] at hk; omega
      rcases hk' with rfl | rfl | rfl | rfl
      · exact ⟨_, by simpa using h0⟩
      · exact ⟨_, h1⟩
      · exact ⟨_, h2⟩
      · exact ⟨_, h3⟩

end Sys2Proof.Machine
end

