-- ==== Sys2Proof/Laws/Frame.lean ====
section
/-! SUPPORT. Exception frames written in plain storage (R221, R222): every word is there and no other byte has changed. -/

namespace Sys2Proof.Machine

/-- The words of a list are those at `a`, `a + 2`, `a + 4` and so on. -/
def Consecutive : Addr → List PendingWord → Prop
  | _, [] => True
  | a, w :: ws => w.addr = a ∧ Consecutive (a + 2#32) ws

theorem shortFrame_consecutive (sp : Addr) (sr : Word) (pc : Addr) : Consecutive sp (shortFrame sp sr pc) :=
  ⟨rfl, rfl, rfl, trivial⟩

theorem longFrame_consecutive (sp : Addr) (info : Word) (f : Addr) (ir sr : Word) (pc : Addr) :
    Consecutive sp (longFrame sp info f ir sr pc) := by
  have e (i j k : Addr) (h : i + j = k) : sp + k = sp + i + j := by rw [BitVec.add_assoc, h]
  refine ⟨rfl, rfl, rfl, ?_, ?_, ?_, ?_, trivial⟩
  · show sp + 6#32 = sp + 2#32 + 2#32 + 2#32
    rw [BitVec.add_assoc, BitVec.add_assoc]; rfl
  · show sp + 8#32 = sp + 2#32 + 2#32 + 2#32 + 2#32
    rw [BitVec.add_assoc, BitVec.add_assoc, BitVec.add_assoc]; rfl
  · show sp + 10#32 = sp + 2#32 + 2#32 + 2#32 + 2#32 + 2#32
    rw [BitVec.add_assoc, BitVec.add_assoc, BitVec.add_assoc, BitVec.add_assoc]; rfl
  · show sp + 10#32 + 2#32 = sp + 2#32 + 2#32 + 2#32 + 2#32 + 2#32 + 2#32
    rw [BitVec.add_assoc, BitVec.add_assoc, BitVec.add_assoc, BitVec.add_assoc, BitVec.add_assoc, BitVec.add_assoc]
    rfl

theorem Consecutive.addr_mem {a : Addr} {ws : List PendingWord} (h : Consecutive a ws) {w : PendingWord} (hw : w ∈ ws) :
    ∃ k, k < ws.length ∧ w.addr = a + BitVec.ofNat 32 (2 * k) := by
  induction ws generalizing a with
  | nil => exact absurd hw List.not_mem_nil
  | cons x ws ih =>
    rcases List.mem_cons.1 hw with rfl | hw
    · exact ⟨0, Nat.succ_pos _, by simp [h.1]⟩
    · obtain ⟨k, hk, e⟩ := ih h.2 hw
      refine ⟨k + 1, by simpa using hk, ?_⟩
      rw [e, BitVec.add_assoc, show 2 * (k + 1) = 2 + 2 * k by omega, BitVec.ofNat_add]

theorem Consecutive.pairwise (s : State) {a : Addr} {ws : List PendingWord} (h : Consecutive a ws)
    (hn : ws.length ≤ 100) :
    ws.Pairwise (fun w x => s.outside x.addr 2 w.addr ∧ s.outside x.addr 2 (w.addr + 1#32)) := by
  induction ws generalizing a with
  | nil => exact .nil
  | cons w ws ih =>
    simp only [List.length_cons] at hn
    refine .cons (fun x hx => ?_) (ih h.2 (by omega))
    obtain ⟨k, hk, e⟩ := h.2.addr_mem hx
    have far (i j : Nat) (hi : i < 2) (hj : j < 2) :
        s.phys (w.addr + BitVec.ofNat 32 i) ≠ s.phys (x.addr + BitVec.ofNat 32 j) := by
      rw [h.1, e, BitVec.add_assoc, BitVec.add_assoc, ← BitVec.ofNat_add, ← BitVec.ofNat_add 2]
      refine s.phys_add_ne a _ _ ?_ ?_ fun c => ?_
      · simp only [BitVec.toNat_ofNat]; omega
      · simp only [BitVec.toNat_ofNat]; omega
      · have := congrArg BitVec.toNat c
        simp only [BitVec.toNat_ofNat] at this
        omega
    exact ⟨fun j hj => by simpa using far 0 j (by omega) hj, fun j hj => far 1 j (by omega) hj⟩

/-- A frame in plain storage is written whole (R221, R222). -/
theorem writeFrame_plain (s : State) (ws : List PendingWord) (hb : s.busWrites = []) (ha : s.ssp.getLsbD 0 = false)
    (hc : Consecutive s.ssp ws) (hn : ws.length ≤ 100) (hw : s.writesPlain s.ssp (2 * ws.length)) :
    ∃ t, s.writeFrame ws = .ok () t ∧ MemOnly s t
      ∧ (∀ w ∈ ws, t.valueAt w.addr .word = w.value.setWidth 32)
      ∧ (∀ w ∈ ws, t.holdsByte w.addr (hiByte w.value) ∧ t.holdsByte (w.addr + 1#32) (loByte w.value))
      ∧ ∀ b, s.outside s.ssp (2 * ws.length) b → s.sameAt t b := by
  have plain : ∀ w ∈ ws, s.writesPlain w.addr 2 := fun w hx k hk => by
    obtain ⟨j, hj, e⟩ := hc.addr_mem hx
    rw [e, BitVec.add_assoc, ← BitVec.ofNat_add]
    exact hw _ (by omega)
  have quiet : ws.any s.wordFaults = false := by
    simp only [List.any_eq_false, State.wordFaults, Bool.not_eq_true]
    exact fun w hx => s.anyFault_writesPlain w.addr 2 (plain w hx)
  obtain ⟨m, inn, out⟩ := s.storeWords_plain ws hb plain (hc.pairwise s hn)
  refine ⟨s.storeWords ws, ?_, m, fun w hx => ?_, inn, fun b hb' => out b fun w hx k hk => ?_⟩
  · unfold State.writeFrame
    rw [ha, quiet, s.storeWordsFree_quiet ws hb]
    rfl
  · exact State.valueAt_word _ _ _ (inn w hx).1.1 (inn w hx).2.1
  · obtain ⟨j, hj, e⟩ := hc.addr_mem hx
    rw [e, BitVec.add_assoc, ← BitVec.ofNat_add]
    exact hb' _ (by omega)

end Sys2Proof.Machine
end

