-- ==== Sys2Proof/Laws/Entry.lean ====
section
/-! SUPPORT. What taking an exception can change, whatever faults come on the way (R221, R222, R232), and what the reset
sequence can change (R270). -/

namespace Sys2Proof.Machine

/-- What an exception entry may change: SSP, SR, the pc, memory, what is held, the coming bus writes, the counter of free
values, and the run state if it ends in a double fault. -/
structure EntryStep (s t : State) : Prop where
  d : t.d = s.d
  a : t.a = s.a
  usp : t.usp = s.usp
  super : t.super = true
  trace : t.traceBit = false
  noTraceDue : t.tracePending = false
  reserved : s.sr &&& srImplMask = s.sr → t.sr &&& srImplMask = t.sr
  run : t.run = s.run ∨ t.run = .halted
  irqLevel : t.irqLevel = s.irqLevel
  addrBits : t.addrBits = s.addrBits
  memMap : t.memMap = s.memMap
  inputs : t.inputs = s.inputs
  cells : s.CellsOk → t.CellsOk

theorem srImplMask_keep (x m y : Word) (h : x &&& srImplMask = x) (hy : y &&& srImplMask = y) :
    ((x &&& m) ||| y) &&& srImplMask = (x &&& m) ||| y := by
  rw [← hy]
  apply BitVec.eq_of_getLsbD_eq
  intro i hi
  have := congrArg (fun w : Word => w.getLsbD i) h
  simp only [BitVec.getLsbD_and, BitVec.getLsbD_or] at this ⊢
  revert this
  cases x.getLsbD i <;> cases m.getLsbD i <;> cases y.getLsbD i <;> cases srImplMask.getLsbD i <;> simp

theorem enterSupervisor_reserved (s : State) (h : s.sr &&& srImplMask = s.sr) :
    s.enterSupervisor.sr &&& srImplMask = s.enterSupervisor.sr :=
  srImplMask_keep _ _ _ h (by decide)

theorem setMask_reserved (s : State) (l : BitVec 3) (h : s.sr &&& srImplMask = s.sr) :
    (s.setMask l).sr &&& srImplMask = (s.setMask l).sr :=
  srImplMask_keep _ _ _ h (by revert l; decide)

/-- The states an entry goes through: a `BusStep` from one where S is set, T is clear and no trace is due, perhaps halted
at the end. -/
theorem EntryStep.of_bus {s s1 t u : State} (h : EntryStep s s1) (b : BusStep s1 t)
    (hu : u = { t with pc := u.pc } ∨ u = t.halt) : EntryStep s u := by
  have base : EntryStep s t :=
    ⟨b.d.trans h.d, b.a.trans h.a, b.usp.trans h.usp, b.super.trans h.super,
      by rw [State.traceBit, b.sr]; exact h.trace, b.tracePending.trans h.noTraceDue,
      fun r => by rw [b.sr]; exact h.reserved r, by rw [b.run]; exact h.run, b.irqLevel.trans h.irqLevel,
      b.addrBits.trans h.addrBits, b.memMap.trans h.memMap, b.inputs.trans h.inputs, fun c => b.cells (h.cells c)⟩
  rcases hu with e | e
  · rw [e]
    exact ⟨base.d, base.a, base.usp, base.super, base.trace, base.noTraceDue, base.reserved, base.run, base.irqLevel,
      base.addrBits, base.memMap, base.inputs, base.cells⟩
  · rw [e]
    exact ⟨base.d, base.a, base.usp, base.super, base.trace, rfl, base.reserved, .inr rfl, base.irqLevel,
      base.addrBits, base.memMap, base.inputs, base.cells⟩

theorem EntryStep.trans {s t u : State} (h : EntryStep s t) (k : EntryStep t u) : EntryStep s u :=
  ⟨k.d.trans h.d, k.a.trans h.a, k.usp.trans h.usp, k.super, k.trace, k.noTraceDue,
    fun r => k.reserved (h.reserved r), by rcases k.run with e | e <;> [(rw [e]; exact h.run); exact .inr e],
    k.irqLevel.trans h.irqLevel, k.addrBits.trans h.addrBits, k.memMap.trans h.memMap, k.inputs.trans h.inputs,
    fun c => k.cells (h.cells c)⟩

theorem readVector_steps (s : State) (v : BitVec 8) : (s.readVector v).Steps s := memRead_steps s _ _ _

/-- A group 0 entry (R222), halted or not: what it changes, and SSP by a long frame. -/
theorem takeGroupZero_entry (s : State) (e : AccessFault) (inEntry : Bool) (pc0 : Addr) (ir : Option Word) :
    EntryStep s (s.takeGroupZero e inEntry pc0 ir) ∧ (s.takeGroupZero e inEntry pc0 ir).ssp = s.ssp - 14#32 := by
  have h0 : EntryStep s
      { s.enterSupervisor with ssp := s.ssp - 14#32, draws := s.draws + 3, tracePending := false } :=
    ⟨rfl, rfl, rfl, s.enterSupervisor_super, s.enterSupervisor_traceBit, rfl, enterSupervisor_reserved s, .inl rfl,
      rfl, rfl, rfl, rfl, id⟩
  unfold State.takeGroupZero
  dsimp only
  generalize hs : ({ s.enterSupervisor with
    ssp := s.ssp - 14#32, draws := s.draws + 3, tracePending := false } : State) = s1 at h0
  have hssp : s1.ssp = s.ssp - 14#32 := by rw [← hs]
  have w := writeFrame_steps s1 (longFrame (s.ssp - 14#32) (infoWord e inEntry (Config.freeWord s.draws)) e.addr
    (ir.getD (Config.freeWord (s.draws + 1))) s.srValue (groupZeroPc pc0 (Config.freePick (s.draws + 2))))
  split
  · rename_i e2 s2 h2
    rw [h2] at w
    exact ⟨h0.of_bus w (.inr rfl), (BusStep.ssp w).trans hssp⟩
  · rename_i s2 h2
    rw [h2] at w
    have r := readVector_steps s2 e.vector
    split
    · rename_i e3 s3 h3
      rw [h3] at r
      exact ⟨h0.of_bus (BusStep.trans w r) (.inr rfl), (BusStep.ssp (BusStep.trans w r)).trans hssp⟩
    · rename_i v s3 h3
      rw [h3] at r
      exact ⟨h0.of_bus (BusStep.trans w r) (.inl rfl), (BusStep.ssp (BusStep.trans w r)).trans hssp⟩

theorem beginShort_entry (s : State) (level : Option (BitVec 3)) :
    EntryStep s (s.beginShort level) ∧ (s.beginShort level).ssp = s.ssp - 6#32 := by
  cases level with
  | none =>
    exact ⟨⟨rfl, rfl, rfl, s.enterSupervisor_super, s.enterSupervisor_traceBit, rfl, enterSupervisor_reserved s,
      .inl rfl, rfl, rfl, rfl, rfl, id⟩, rfl⟩
  | some l =>
    have t : (s.enterSupervisor.setMask l).traceBit = false := by
      simp [State.traceBit, State.setMask, State.enterSupervisor]
    exact ⟨⟨rfl, rfl, rfl, (State.setMask_super s.enterSupervisor l).trans s.enterSupervisor_super, t, rfl,
      fun r => setMask_reserved s.enterSupervisor l (enterSupervisor_reserved s r), .inl rfl, rfl, rfl, rfl, rfl, id⟩, rfl⟩

/-- A short-frame entry (R221), whatever it ends in (R232): what it changes, and SSP by a short frame, or by both
frames. -/
theorem takeShort_entry (s : State) (v : BitVec 8) (level : Option (BitVec 3)) (pcSaved pc0 : Addr)
    (ir : Option Word) :
    EntryStep s (s.takeShort v level pcSaved pc0 ir)
    ∧ ((s.takeShort v level pcSaved pc0 ir).ssp = s.ssp - 6#32
      ∨ (s.takeShort v level pcSaved pc0 ir).ssp = s.ssp - 20#32) := by
  obtain ⟨h0, hssp⟩ := beginShort_entry s level
  have both : s.ssp - 6#32 - 14#32 = s.ssp - 20#32 := by bv_omega
  unfold State.takeShort
  dsimp only
  have w := writeFrame_steps (s.beginShort level) (shortFrame (s.beginShort level).ssp s.srValue pcSaved)
  split
  · rename_i e2 s2 h2
    rw [h2] at w
    obtain ⟨g, gs⟩ := takeGroupZero_entry s2 e2 true pc0 ir
    have ss : s2.ssp = s.ssp - 6#32 := (BusStep.ssp w).trans hssp
    exact ⟨(h0.of_bus w (.inl rfl)).trans g, .inr (by rw [gs, ss, both])⟩
  · rename_i s2 h2
    rw [h2] at w
    have r := readVector_steps s2 v
    split
    · rename_i e3 s3 h3
      rw [h3] at r
      obtain ⟨g, gs⟩ := takeGroupZero_entry s3 e3 true pc0 ir
      have ss : s3.ssp = s.ssp - 6#32 := (BusStep.ssp (BusStep.trans w r)).trans hssp
      exact ⟨(h0.of_bus (BusStep.trans w r) (.inl rfl)).trans g, .inr (by rw [gs, ss, both])⟩
    · rename_i x s3 h3
      rw [h3] at r
      exact ⟨h0.of_bus (BusStep.trans w r) (.inl rfl), .inl ((BusStep.ssp (BusStep.trans w r)).trans hssp)⟩

/-- The reset sequence (R270), halted or not: SR, SSP, the pc and the run state, and what bus cycles may change. -/
theorem resetSequence_changes (s : State) :
    s.resetSequence.d = s.d ∧ s.resetSequence.a = s.a ∧ s.resetSequence.usp = s.usp
    ∧ s.resetSequence.sr &&& 0xFFE0#16 = 0x2700#16 ∧ s.resetSequence.tracePending = false
    ∧ s.resetSequence.inputs = s.inputs ∧ s.resetSequence.irqLevel = s.irqLevel
    ∧ s.resetSequence.memMap = s.memMap ∧ s.resetSequence.addrBits = s.addrBits
    ∧ (s.CellsOk → s.resetSequence.CellsOk) := by
  have hsr : s.beginReset.sr &&& 0xFFE0#16 = 0x2700#16 := by
    simp only [State.beginReset]
    generalize Config.freeWord s.draws = w
    apply BitVec.eq_of_getLsbD_eq
    intro i hi
    simp only [BitVec.getLsbD_and, BitVec.getLsbD_or]
    interval_cases i <;> simp
  unfold State.resetSequence
  have r := memRead_steps s.beginReset 0#32 .long .prog
  split
  · rename_i e s1 h1
    rw [h1] at r
    have r : BusStep s.beginReset s1 := r
    exact ⟨r.d, r.a, r.usp, by rw [State.halt_sr, r.sr]; exact hsr, rfl, r.inputs, r.irqLevel, r.memMap, r.addrBits,
      fun c => r.cells c⟩
  · rename_i v s1 h1
    rw [h1] at r
    have r : BusStep s.beginReset s1 := r
    have q := memRead_steps { s1 with ssp := v } 4#32 .long .prog
    split
    · rename_i e s2 h2
      rw [h2] at q
      have q : BusStep { s1 with ssp := v } s2 := q
      exact ⟨q.d.trans r.d, q.a.trans r.a, q.usp.trans r.usp, by rw [State.halt_sr, q.sr]; exact r.sr ▸ hsr, rfl,
        q.inputs.trans r.inputs, q.irqLevel.trans r.irqLevel, q.memMap.trans r.memMap, q.addrBits.trans r.addrBits,
        fun c => q.cells (r.cells c)⟩
    · rename_i w s2 h2
      rw [h2] at q
      have q : BusStep { s1 with ssp := v } s2 := q
      exact ⟨q.d.trans r.d, q.a.trans r.a, q.usp.trans r.usp, by rw [q.sr]; exact r.sr ▸ hsr,
        q.tracePending.trans r.tracePending, q.inputs.trans r.inputs, q.irqLevel.trans r.irqLevel,
        q.memMap.trans r.memMap, q.addrBits.trans r.addrBits, fun c => q.cells (r.cells c)⟩

end Sys2Proof.Machine
end

