-- ==== Sys2Proof/Laws/Cases.lean ====
section
/-! SUPPORT. Everything a run of an instruction can end in (Machine/Logic.lean): completion, or abandonment at the operand's
read or write. -/

namespace Sys2Proof.Machine

/-- The state an instruction of a given length leaves when it completes from `u` (R23, R227). -/
def Completed (i : Instr) (s u t : State) : Prop :=
  t = { u with pc := s.pc + BitVec.ofNat 32 (instrLength i), tracePending := s.traceBit }

/-- An abandoned instruction: a group 0 entry from the state the operand's access left, the stepped register kept or
undone (R140). -/
def Abandoned (i : Instr) (ea : Ea) (s u t : State) : Prop :=
  ∃ e, t = (keepOrUndoStep ea s u).takeGroupZero e false s.pc (some (opWord i))

/-- `<ea>,Dn` (R150, R200) completes or is abandoned at the read. -/
theorem runEaToReg_cases (i : Instr) (o : LogicOp) (sz : Size) (dn : Fin 8) (ea : Ea) (s t : State)
    (h : runEaToReg i o sz dn ea s = .next t) :
    (∃ u r, BusStep (eaStep ea sz s) u ∧ Completed i s ((logicFlags sz r u).setD sz dn r) t)
    ∨ ∃ u, BusStep (eaStep ea sz s) u ∧ Abandoned i ea s u t := by
  unfold runEaToReg at h
  have st := readLoc_steps (eaLoc ea sz (s.pc + 2#32) s) sz (eaStep ea sz s)
  split at h
  · rename_i e u e'
    rw [e'] at st
    injection h with h
    exact .inr ⟨u, st, e, h.symm⟩
  · rename_i x u e'
    rw [e'] at st
    injection h with h
    exact .inl ⟨u, _, st, h.symm⟩

/-- Read, compute, write back (R137) completes, in a data register or elsewhere, or is abandoned at the read or at the
write. -/
theorem runModify_cases (i : Instr) (sz : Size) (f : Long → Long) (cur : Addr) (ea : Ea) (s t : State)
    (h : runModify i sz f cur ea s = .next t) :
    (∃ n r, ea = .dreg n ∧ Completed i s ((logicFlags sz r s).setD sz n r) t)
    ∨ (∃ u v r, BusStep (eaStep ea sz s) u ∧ BusStep (logicFlags sz r u) v ∧ Completed i s v t)
    ∨ (∃ u, BusStep (eaStep ea sz s) u ∧ Abandoned i ea s u t)
    ∨ ∃ u v r, BusStep (eaStep ea sz s) u ∧ BusStep (logicFlags sz r u) v
        ∧ Abandoned i ea s (keepOrUndoFlags s v) t := by
  unfold runModify at h
  have st := readLoc_steps (eaLoc ea sz cur s) sz (eaStep ea sz s)
  split at h
  · rename_i e u e'
    rw [e'] at st
    injection h with h
    exact .inr (.inr (.inl ⟨u, st, e, h.symm⟩))
  · rename_i x u e'
    by_cases hd : ∃ n, eaLoc ea sz cur s = .dreg n
    · obtain ⟨n, hn⟩ := hd
      cases ea <;> simp only [eaLoc, reduceCtorEq, Loc.dreg.injEq] at hn
      subst hn
      simp only [eaLoc, readLoc, eaStep, Access.ok.injEq] at e'
      obtain ⟨rfl, rfl⟩ := e'
      injection h with h
      exact .inl ⟨_, _, rfl, h.symm⟩
    · rw [e'] at st
      have sw := writeLoc_steps (eaLoc ea sz cur s) sz (f x) s.pc (instrLength i) (logicFlags sz (f x) u)
        (fun n hn => hd ⟨n, hn⟩)
      split at h
      · rename_i e v e2
        rw [e2] at sw
        injection h with h
        exact .inr (.inr (.inr ⟨u, v, f x, st, sw, e, h.symm⟩))
      · rename_i y v e2
        rw [e2] at sw
        injection h with h
        exact .inr (.inl ⟨u, v, f x, st, sw, h.symm⟩)

/-- What is left of an operand's step after a fault: nothing of it, or all of it (R140, U5). -/
theorem keepOrUndoStep_cases (ea : Ea) (s u : State) :
    ∃ k, keepOrUndoStep ea s u = { u with draws := k }
      ∨ ∃ n, (ea = .postinc n ∨ ea = .predec n)
        ∧ (keepOrUndoStep ea s u = { u.setA n (s.aReg n) with draws := k }) := by
  have st (n : Fin 8) : ∃ k, ((u.setA n (bif Config.freeFlag u.draws then u.aReg n else s.aReg n)).drawn
        = { u with draws := k })
      ∨ (u.setA n (bif Config.freeFlag u.draws then u.aReg n else s.aReg n)).drawn
        = { u.setA n (s.aReg n) with draws := k } := by
    cases Config.freeFlag u.draws
    · exact ⟨_, .inr rfl⟩
    · refine ⟨u.draws + 1, .inl ?_⟩
      simp only [cond_true, u.setA_aReg n]
      rfl
  cases ea
  case postinc n =>
    obtain ⟨k, h | h⟩ := st n
    · exact ⟨k, .inl h⟩
    · exact ⟨k, .inr ⟨n, .inl rfl, h⟩⟩
  case predec n =>
    obtain ⟨k, h | h⟩ := st n
    · exact ⟨k, .inl h⟩
    · exact ⟨k, .inr ⟨n, .inr rfl, h⟩⟩
  all_goals exact ⟨u.draws, .inl rfl⟩

/-- Flags after a fault at the write: SR differs from the instruction's result in its four low bits at most (R140,
U6). -/
theorem keepOrUndoFlags_eq (s u : State) :
    ∃ w k, keepOrUndoFlags s u = { u with sr := (u.sr &&& 0xFFF0#16) ||| (w &&& 0x000F#16), draws := k } := by
  unfold keepOrUndoFlags
  cases Config.freeFlag u.draws
  · exact ⟨s.sr, _, rfl⟩
  · exact ⟨u.sr, _, rfl⟩

end Sys2Proof.Machine
end

