-- ==== Sys2Proof/Laws/Fetch.lean ====
section
/-! SUPPORT. Fetching from plain storage with nothing held and no other bus master (R54, R60). -/

namespace Sys2Proof.Machine

/-- With nothing held, a fetched byte is memory's and fetching it changes nothing. -/
theorem State.fetchByte_plain (s : State) (a : Addr) (hh : s.held = [])
    (h : s.mapAt a false .prog = .ram ∨ s.mapAt a false .prog = .rom) : s.fetchByte a = (s.byteAt a, s) := by
  have e : dropCell s.held (s.phys a) = s.held := by rw [hh]; rfl
  have v : s.fetchView (s.phys a) = s.byteAt a := by rw [State.fetchView, hh]; rfl
  unfold State.fetchByte
  rcases h with h | h <;> simp only [h, e, v]

/-- `Fetch16` in plain storage (R54). -/
theorem fetch16_plain (s : State) (a : Addr) (hb : s.busWrites = []) (hh : s.held = []) (ha : a.getLsbD 0 = false)
    (h : s.readsPlain a 2 .prog) : s.fetch16 a = .ok (wordOfBytes (s.byteAt a) (s.byteAt (a + 1#32))) s := by
  have h0 : s.mapAt a false .prog = .ram ∨ s.mapAt a false .prog = .rom := by simpa using h 0 (by omega)
  have h1 : s.mapAt (a + 1#32) false .prog = .ram ∨ s.mapAt (a + 1#32) false .prog = .rom := h 1 (by omega)
  unfold State.fetch16
  rw [ha, s.anyFault_readsPlain a .prog 2 h]
  simp [State.fetchCycle, hb, s.fetchByte_plain a hh h0, s.fetchByte_plain (a + 1#32) hh h1]

theorem even_add_two (a : Addr) (h : a.getLsbD 0 = false) : (a + 2#32).getLsbD 0 = false := by
  simp only [BitVec.getLsbD, Nat.testBit_zero, decide_eq_false_iff_not, BitVec.toNat_add, BitVec.toNat_ofNat] at h ⊢
  omega

/-- Words fetched one after the other from plain storage are those memory holds (R81). -/
theorem fetchWords_plain (s : State) (a : Addr) (n : Nat) (hb : s.busWrites = []) (hh : s.held = [])
    (ha : a.getLsbD 0 = false) (h : s.readsPlain a (2 * n) .prog) : s.fetchWords a n = .ok (s.wordsAt a n) s := by
  induction n generalizing a with
  | zero => rfl
  | succ n ih =>
    unfold State.fetchWords
    rw [fetch16_plain s a hb hh ha (fun k hk => h k (by omega))]
    simp only
    rw [ih (a + 2#32) (even_add_two a ha) (fun k hk => by
      have := h (2 + k) (by omega)
      rwa [BitVec.ofNat_add, ← BitVec.add_assoc] at this)]
    rfl

/-- Fewer words are a prefix of more. -/
theorem wordsAt_take (s : State) (a : Addr) (m n : Nat) (h : m ≤ n) : (s.wordsAt a n).take m = s.wordsAt a m := by
  induction n generalizing a m with
  | zero => simp [Nat.le_zero.1 h, State.wordsAt]
  | succ n ih =>
    cases m with
    | zero => rfl
    | succ m => simp only [State.wordsAt, List.take_succ_cons, ih (a + 2#32) m (by omega)]

theorem wordsAt_length (s : State) (a : Addr) (n : Nat) : (s.wordsAt a n).length = n := by
  induction n generalizing a with
  | zero => rfl
  | succ n ih => simp [State.wordsAt, ih]

end Sys2Proof.Machine
end

