-- ==== Sys2Proof/Laws/PerInstr.lean ====
section
/-! SUPPORT. Laws of every instruction as syntax, one lemma for each constructor (LAWS.json). -/

namespace Sys2Proof.Laws.EvenLength

/-- An instruction is a whole number of 16-bit words (R80). -/
def Statement (i : Instr) : Prop := instrLength i % 2 = 0

theorem extBytes_even (sz : Size) (ea : Ea) : ea.extBytes sz % 2 = 0 := by
  cases ea <;> simp only [Ea.extBytes]
  split <;> rfl

theorem immBytes_even (sz : Size) : immBytes sz % 2 = 0 := by cases sz <;> rfl

/-- The length of every shape is even (R95). -/
theorem shape_even (x : Shape) : x.length % 2 = 0 := by
  cases x with
  | toCcr o data => simp [Shape.length]
  | toSr o data => simp [Shape.length]
  | immToEa o sz data ea =>
    have := extBytes_even sz ea
    have := immBytes_even sz
    simp only [Shape.length]
    omega
  | notEa sz ea =>
    have := extBytes_even sz ea
    simp only [Shape.length]
    omega
  | eaToReg o sz dn ea =>
    have := extBytes_even sz ea
    simp only [Shape.length]
    omega
  | regToEa o sz dn ea =>
    have := extBytes_even sz ea
    simp only [Shape.length]
    omega

theorem oriCcr (data : Byte) : Statement (.oriCcr data) := shape_even _
theorem oriSr (data : Word) : Statement (.oriSr data) := shape_even _
theorem oriB (data : Byte) (ea : Ea) : Statement (.oriB data ea) := shape_even _
theorem oriW (data : Word) (ea : Ea) : Statement (.oriW data ea) := shape_even _
theorem oriL (data : Long) (ea : Ea) : Statement (.oriL data ea) := shape_even _
theorem andiCcr (data : Byte) : Statement (.andiCcr data) := shape_even _
theorem andiSr (data : Word) : Statement (.andiSr data) := shape_even _
theorem andiB (data : Byte) (ea : Ea) : Statement (.andiB data ea) := shape_even _
theorem andiW (data : Word) (ea : Ea) : Statement (.andiW data ea) := shape_even _
theorem andiL (data : Long) (ea : Ea) : Statement (.andiL data ea) := shape_even _
theorem eoriCcr (data : Byte) : Statement (.eoriCcr data) := shape_even _
theorem eoriSr (data : Word) : Statement (.eoriSr data) := shape_even _
theorem eoriB (data : Byte) (ea : Ea) : Statement (.eoriB data ea) := shape_even _
theorem eoriW (data : Word) (ea : Ea) : Statement (.eoriW data ea) := shape_even _
theorem eoriL (data : Long) (ea : Ea) : Statement (.eoriL data ea) := shape_even _
theorem notB (ea : Ea) : Statement (.notB ea) := shape_even _
theorem notW (ea : Ea) : Statement (.notW ea) := shape_even _
theorem notL (ea : Ea) : Statement (.notL ea) := shape_even _
theorem orBToReg (dn : Fin 8) (ea : Ea) : Statement (.orBToReg dn ea) := shape_even _
theorem orWToReg (dn : Fin 8) (ea : Ea) : Statement (.orWToReg dn ea) := shape_even _
theorem orLToReg (dn : Fin 8) (ea : Ea) : Statement (.orLToReg dn ea) := shape_even _
theorem orBToEa (dn : Fin 8) (ea : Ea) : Statement (.orBToEa dn ea) := shape_even _
theorem orWToEa (dn : Fin 8) (ea : Ea) : Statement (.orWToEa dn ea) := shape_even _
theorem orLToEa (dn : Fin 8) (ea : Ea) : Statement (.orLToEa dn ea) := shape_even _
theorem andBToReg (dn : Fin 8) (ea : Ea) : Statement (.andBToReg dn ea) := shape_even _
theorem andWToReg (dn : Fin 8) (ea : Ea) : Statement (.andWToReg dn ea) := shape_even _
theorem andLToReg (dn : Fin 8) (ea : Ea) : Statement (.andLToReg dn ea) := shape_even _
theorem andBToEa (dn : Fin 8) (ea : Ea) : Statement (.andBToEa dn ea) := shape_even _
theorem andWToEa (dn : Fin 8) (ea : Ea) : Statement (.andWToEa dn ea) := shape_even _
theorem andLToEa (dn : Fin 8) (ea : Ea) : Statement (.andLToEa dn ea) := shape_even _
theorem eorBToEa (dn : Fin 8) (ea : Ea) : Statement (.eorBToEa dn ea) := shape_even _
theorem eorWToEa (dn : Fin 8) (ea : Ea) : Statement (.eorWToEa dn ea) := shape_even _
theorem eorLToEa (dn : Fin 8) (ea : Ea) : Statement (.eorLToEa dn ea) := shape_even _

end Sys2Proof.Laws.EvenLength
end

