-- ==== Sys2Proof/Laws/Reset.lean ====
section
/-! SUPPORT. What a step that a reset cuts short leaves (R229, R270): `State.cutShort` and `State.endStep`. -/

namespace Sys2Proof.Machine

/-- An address that a list does not hold reads as unlisted. -/
theorem Memory.read_unlisted (m : Memory) (p : Nat) (h : ∀ c ∈ m, c.1 ≠ p) : m.read p = unlistedByte := by
  suffices e : findCell m p = none by rw [Memory.read, e]; rfl
  induction m with
  | nil => rfl
  | cons c m ih =>
    unfold findCell
    rw [if_neg fun e => h c List.mem_cons_self e.symm]
    exact ih fun x hx => h x (List.mem_cons_of_mem _ hx)

/-- Memory after a step cut short holds, at each address, the old byte or the new one, one choice for a word. -/
theorem mixMemory_read (k : Nat) (old new : Memory) (p : Nat) :
    (mixMemory k old new).read p = bif Config.freeFlag (k + p / 2) then new.read p else old.read p := by
  have fold (l : List Host.Cell) (m : Memory) :
      (l.foldl (fun m c => bif Config.freeFlag (k + c.1 / 2) then m else m.write c.1 (old.read c.1)) m).read p
        = if (∃ c ∈ l, c.1 = p) ∧ Config.freeFlag (k + p / 2) = false then old.read p else m.read p := by
    induction l generalizing m with
    | nil => simp
    | cons c l ih =>
      rw [List.foldl_cons, ih]
      by_cases hp : c.1 = p
      · subst hp
        cases Config.freeFlag (k + c.1 / 2) <;> simp
      · have r : (bif Config.freeFlag (k + c.1 / 2) then m else m.write c.1 (old.read c.1)).read p = m.read p := by
          cases Config.freeFlag (k + c.1 / 2)
          · exact Memory.read_write_other _ _ _ _ fun e => hp e.symm
          · rfl
        simp [r, hp]
  rw [mixMemory, fold]
  cases hf : Config.freeFlag (k + p / 2)
  · by_cases hl : ∃ c ∈ old ++ new, c.1 = p
    · rw [if_pos ⟨hl, rfl⟩]
      rfl
    · have out (m : Memory) (hm : ∀ c ∈ m, c ∈ old ++ new) : m.read p = unlistedByte :=
        m.read_unlisted p fun c hc e => hl ⟨c, hm c hc, e⟩
      rw [if_neg fun h => hl h.1, out new fun c hc => List.mem_append_right _ hc]
      exact (out old fun c hc => List.mem_append_left _ hc).symm
  · simp

/-- Memory after a step cut short keeps the canonical form and the physical space. -/
theorem mixMemory_ok (k n : Nat) (old new : Memory) (ho : ∀ c ∈ old, c.1 < n) (hw : new.wf = true)
    (hn : ∀ c ∈ new, c.1 < n) : (mixMemory k old new).wf = true ∧ ∀ c ∈ mixMemory k old new, c.1 < n := by
  have fold (l : List Host.Cell) (hl : ∀ c ∈ l, c.1 < n) (m : Memory) (h : m.wf = true ∧ ∀ c ∈ m, c.1 < n) :
      (l.foldl (fun m c => bif Config.freeFlag (k + c.1 / 2) then m else m.write c.1 (old.read c.1)) m).wf = true
        ∧ ∀ c ∈ l.foldl (fun m c => bif Config.freeFlag (k + c.1 / 2) then m else m.write c.1 (old.read c.1)) m,
            c.1 < n := by
    induction l generalizing m with
    | nil => exact h
    | cons c l ih =>
      refine ih (fun x hx => hl x (List.mem_cons_of_mem _ hx)) _ ?_
      show (bif Config.freeFlag (k + c.1 / 2) then m else m.write c.1 (old.read c.1)).wf = true
        ∧ ∀ x ∈ (bif Config.freeFlag (k + c.1 / 2) then m else m.write c.1 (old.read c.1)), x.1 < n
      cases Config.freeFlag (k + c.1 / 2)
      · refine ⟨Memory.wf_write _ _ _ h.1, fun x hx => ?_⟩
        rcases Memory.mem_write hx with e | hx
        · rw [e]; exact hl c List.mem_cons_self
        · exact h.2 x hx
      · exact h
  exact fold _ (fun c hc => (List.mem_append.1 hc).elim (ho c) (hn c)) _ ⟨hw, hn⟩

theorem findCell_filter (q : Nat → Bool) (m : List Host.Cell) (p : Nat) :
    findCell (m.filter (fun c => q c.1)) p = bif q p then findCell m p else none := by
  induction m with
  | nil => cases q p <;> rfl
  | cons c m ih =>
    obtain ⟨k, v⟩ := c
    by_cases hp : p = k
    · subst hp
      cases hq : q p <;> simp_all [findCell]
    · cases hq : q k <;> simp_all [findCell]

theorem findCell_foldr (l h : List Host.Cell) (p : Nat) :
    findCell (l.foldr (fun c h => putCell h c.1 c.2) h) p = (findCell l p).or (findCell h p) := by
  induction l with
  | nil => rfl
  | cons c l ih =>
    obtain ⟨k, v⟩ := c
    rw [List.foldr_cons, findCell_putCell, ih, findCell]
    split <;> rfl

/-- What is held after a step cut short is, of each word, what goes with the choice made for it. -/
theorem mixHeld_find (k : Nat) (old new : List Host.Cell) (p : Nat) :
    findCell (mixHeld k old new) p = bif Config.freeFlag (k + p / 2) then findCell new p else findCell old p := by
  rw [mixHeld, findCell_foldr, findCell_filter (fun x => !Config.freeFlag (k + x / 2)),
    findCell_filter (fun x => Config.freeFlag (k + x / 2))]
  cases Config.freeFlag (k + p / 2) <;> simp

/-- What is held after a step cut short is in order and within the physical space. -/
theorem mixHeld_ok (k n : Nat) (old new : List Host.Cell) (ho : ∀ c ∈ old, c.1 < n) (hr : risingFrom 0 new = true)
    (hn : ∀ c ∈ new, c.1 < n) : risingFrom 0 (mixHeld k old new) = true ∧ ∀ c ∈ mixHeld k old new, c.1 < n := by
  have fold (l : List Host.Cell) (hl : ∀ c ∈ l, c.1 < n) (h : List Host.Cell)
      (hh : risingFrom 0 h = true ∧ ∀ c ∈ h, c.1 < n) :
      risingFrom 0 (l.foldr (fun c h => putCell h c.1 c.2) h) = true
        ∧ ∀ c ∈ l.foldr (fun c h => putCell h c.1 c.2) h, c.1 < n := by
    induction l with
    | nil => exact hh
    | cons c l ih =>
      obtain ⟨a, b⟩ := ih fun x hx => hl x (List.mem_cons_of_mem _ hx)
      refine ⟨risingFrom_putCell _ _ _ _ a (Nat.zero_le _), fun x hx => ?_⟩
      rcases mem_putCell hx with rfl | hx
      · exact hl c List.mem_cons_self
      · exact b x hx
  exact fold _ (fun c hc => ho c (List.mem_of_mem_filter hc)) _
    ⟨risingFrom_filter _ _ _ hr, fun c hc => hn c (List.mem_of_mem_filter hc)⟩

/-- Turns of the other bus masters are what bus cycles may change (R60). -/
theorem busStep_busTurns (s : State) (n : Nat) : BusStep s (s.busTurns n) := by
  induction n generalizing s with
  | zero => exact BusStep.refl s
  | succ n ih => exact (busStep_busTurn s).trans (ih _)

/-- With no other bus master at work there are no turns. -/
theorem turnsOf_quiet (s t : State) (h : s.busWrites = []) : s.turnsOf t = s := by
  simp [State.turnsOf, h, State.busTurns]

/-- What is left of a step that a reset cut short (R229): each thing as before it or as after it; a word as before it is
that but for the turns other bus masters have had, and is seen so by a fetch too (R62). -/
theorem cutShort_cases (s t : State) :
    ((s.cutShort t).d = s.d ∨ (s.cutShort t).d = t.d)
    ∧ (((s.cutShort t).a = s.a ∧ (s.cutShort t).usp = s.usp) ∨ ((s.cutShort t).a = t.a ∧ (s.cutShort t).usp = t.usp))
    ∧ (∀ w,
        (∀ p, p / 2 = w → (s.cutShort t).mem.read p = (s.turnsOf t).mem.read p
          ∧ (s.cutShort t).fetchView p = (s.turnsOf t).fetchView p)
        ∨ (∀ p, p / 2 = w → (s.cutShort t).mem.read p = t.mem.read p ∧ (s.cutShort t).fetchView p = t.fetchView p))
    ∧ (s.cutShort t).inputs = s.inputs.drop 1 ∧ (s.cutShort t).irqLevel = s.sample.level := by
  refine ⟨?_, ?_, fun w => ?_, rfl, rfl⟩
  · cases h : Config.freeFlag t.draws <;> simp [State.cutShort, h]
  · cases h : Config.freeFlag (t.draws + 1) <;> simp [State.cutShort, h]
  · cases h : Config.freeFlag (t.draws + 2 + w)
    · exact .inl fun p hp => by
        simp only [State.fetchView, State.cutShort, mixMemory_read, mixHeld_find, hp, h, cond_false, and_self]
    · exact .inr fun p hp => by
        simp only [State.fetchView, State.cutShort, mixMemory_read, mixHeld_find, hp, h, cond_true, and_self]

/-- A step cut short keeps memory and what is held in order. -/
theorem cutShort_cells (s t : State) (hb : t.addrBits = s.addrBits) (hs : s.CellsOk) (ht : t.CellsOk) :
    (s.cutShort t).CellsOk := by
  have b : BusStep s (s.turnsOf t) := busStep_busTurns s _
  have o := b.cells hs
  have e : (s.turnsOf t).physBits = t.physBits := by rw [State.physBits, State.physBits, b.addrBits, hb]
  have m := mixMemory_ok (t.draws + 2) (2 ^ t.physBits) (s.turnsOf t).mem t.mem (e ▸ o.2.1) ht.1 ht.2.1
  have h := mixHeld_ok (t.draws + 2) (2 ^ t.physBits) (s.turnsOf t).held t.held (e ▸ o.2.2.2) ht.2.2.1 ht.2.2.2
  exact ⟨m.1, m.2, h.1, h.2⟩

/-- A step that no reset cuts short ends as it would. -/
theorem endStep_whole (s : State) (o : Outcome) (h : s.sample.abort = false) : s.endStep o = o := by
  simp [State.endStep, State.abortsStep, h]

/-- The reset at a boundary is not cut short (R270). -/
theorem endStep_reset (s : State) (o : Outcome) (h : s.sample.reset = true) : s.endStep o = o := by
  simp [State.endStep, State.abortsStep, h]

/-- A next state of a step is that of the whole step, or the reset sequence after a part of it (R229, R270). -/
theorem endStep_cases (s t : State) (o : Outcome) (h : s.endStep o = .next t) :
    (s.abortsStep = false ∧ o = .next t) ∨ ∃ u, o = .next u ∧ t = (s.cutShort u).resetSequence := by
  unfold State.endStep at h
  split at h
  · split at h
    · rename_i u
      injection h with h
      exact .inr ⟨u, rfl, h.symm⟩
    all_goals contradiction
  · rename_i hn
    exact .inl ⟨Bool.eq_false_iff.2 hn, h⟩

end Sys2Proof.Machine
end

