-- ==== Sys2Proof/Laws/Run.lean ====
section
/-! SUPPORT. What the shared ways of running an instruction do (Machine/Logic.lean) when their operand is in plain storage and
no other bus master is at work. -/

namespace Sys2Proof.Machine

/-! ### Operands -/

@[simp] theorem eaStep_phys (ea : Ea) (sz : Size) (s : State) (a : Addr) : (eaStep ea sz s).phys a = s.phys a := by
  simp [State.phys, State.physBits]

@[simp] theorem eaStep_mapAt (ea : Ea) (sz : Size) (s : State) (a : Addr) (w : Bool) (sp : Space) :
    (eaStep ea sz s).mapAt a w sp = s.mapAt a w sp := by
  simp [State.mapAt]

@[simp] theorem eaStep_byteAt (ea : Ea) (sz : Size) (s : State) (a : Addr) :
    (eaStep ea sz s).byteAt a = s.byteAt a := by
  simp [State.byteAt]

@[simp] theorem eaStep_streamAt (ea : Ea) (sz : Size) (s : State) (a : Addr) :
    (eaStep ea sz s).streamAt a = s.streamAt a := by
  simp [State.streamAt, State.fetchView]

@[simp] theorem logicFlags_streamAt (sz : Size) (r : Long) (s : State) (a : Addr) :
    (logicFlags sz r s).streamAt a = s.streamAt a := rfl

@[simp] theorem eaStep_valueAt (ea : Ea) (sz : Size) (s : State) (a : Addr) (z : Size) :
    (eaStep ea sz s).valueAt a z = s.valueAt a z := by
  cases z <;> simp [State.valueAt]

@[simp] theorem logicFlags_phys (sz : Size) (r : Long) (s : State) (a : Addr) :
    (logicFlags sz r s).phys a = s.phys a := rfl

@[simp] theorem logicFlags_mapAt (sz : Size) (r : Long) (s : State) (a : Addr) (w : Bool) (sp : Space) :
    (logicFlags sz r s).mapAt a w sp = s.mapAt a w sp := by
  simp [State.mapAt]

@[simp] theorem logicFlags_byteAt (sz : Size) (r : Long) (s : State) (a : Addr) :
    (logicFlags sz r s).byteAt a = s.byteAt a := rfl

/-- What the side effect of an operand may change: the address registers and the stack pointers (R124, R125). -/
theorem eaStep_eq (ea : Ea) (sz : Size) (s : State) :
    eaStep ea sz s = { s with a := (eaStep ea sz s).a, usp := (eaStep ea sz s).usp, ssp := (eaStep ea sz s).ssp } := by
  have set (n : Fin 8) (v : Long) :
      s.setA n v = { s with a := (s.setA n v).a, usp := (s.setA n v).usp, ssp := (s.setA n v).ssp } := by
    unfold State.setA
    split <;> [rfl; split <;> rfl]
  cases ea <;> first | rfl | exact set _ _

/-- An operand that can be read gives what it holds, and reading it changes nothing (R134). -/
theorem readLoc_plain (s : State) (loc : Loc) (sz : Size) (hb : s.busWrites = []) (h : locReadable s loc sz) :
    readLoc loc sz s = .ok (locValue s loc sz) s := by
  cases loc with
  | dreg n => rfl
  | imm v => rfl
  | mem a sp => exact memRead_plain s a sz sp hb h.1 h.2

theorem locReadable_eaStep (ea : Ea) (sz : Size) (s : State) (loc : Loc) (z : Size) :
    locReadable (eaStep ea sz s) loc z ↔ locReadable s loc z := by
  cases loc <;> simp [locReadable, State.readsPlain]

theorem locValue_eaStep (ea : Ea) (sz : Size) (s : State) (loc : Loc) (z : Size) :
    locValue (eaStep ea sz s) loc z = locValue s loc z := by
  cases loc <;> simp [locValue]

/-- A value with nothing above the size is its own low part. -/
theorem and_mask_valueAt (s : State) (a : Addr) (sz : Size) : s.valueAt a sz &&& sz.mask = s.valueAt a sz := by
  cases sz
  · apply BitVec.eq_of_getLsbD_eq
    intro i hi
    simp only [State.valueAt, Size.mask, BitVec.getLsbD_and, BitVec.getLsbD_setWidth]
    interval_cases i <;> simp
  · apply BitVec.eq_of_getLsbD_eq
    intro i hi
    simp only [State.valueAt, Size.mask, BitVec.getLsbD_and, BitVec.getLsbD_setWidth]
    interval_cases i <;> simp
  · exact BitVec.and_allOnes

theorem locValue_masked (s : State) (loc : Loc) (sz : Size) : locValue s loc sz &&& sz.mask = locValue s loc sz := by
  cases loc <;> simp [locValue, and_mask_valueAt, BitVec.and_assoc]

/-- The three operations stay within the size (R138). -/
theorem logicOp_masked (o : LogicOp) (sz : Size) (x y : Long) (hx : x &&& sz.mask = x) (hy : y &&& sz.mask = y) :
    logicOp o x y &&& sz.mask = logicOp o x y := by
  rw [← hx, ← hy]
  apply BitVec.eq_of_getLsbD_eq
  intro i hi
  cases o <;> simp only [logicOp, BitVec.getLsbD_and, BitVec.getLsbD_or, BitVec.getLsbD_xor] <;>
    cases x.getLsbD i <;> cases y.getLsbD i <;> cases sz.mask.getLsbD i <;> rfl

/-- NotOp is the exclusive or with the mask (R138). -/
theorem notOp_eq_xor (sz : Size) (x : Long) (hx : x &&& sz.mask = x) : notOp sz x = x ^^^ sz.mask := by
  have h : x.toNat &&& sz.mask.toNat = x.toNat := by rw [← BitVec.toNat_and, hx]
  apply BitVec.eq_of_toNat_eq
  have aux (n k : Nat) (hn : n &&& (2 ^ k - 1) = n) : 2 ^ k - 1 - n = n ^^^ (2 ^ k - 1) := by
    rw [Nat.and_two_pow_sub_one_eq_mod] at hn
    have hlt : n < 2 ^ k := hn ▸ Nat.mod_lt _ (Nat.two_pow_pos k)
    apply Nat.eq_of_testBit_eq
    intro i
    rw [show 2 ^ k - 1 - n = 2 ^ k - (n + 1) by omega, Nat.testBit_two_pow_sub_succ hlt, Nat.testBit_xor,
      Nat.testBit_two_pow_sub_one]
    by_cases hi : i < k
    · simp [hi]
    · have : n.testBit i = false := Nat.testBit_lt_two_pow (lt_of_lt_of_le hlt (Nat.pow_le_pow_right (by omega) (by omega)))
      simp [hi, this]
  have hle : x.toNat ≤ sz.mask.toNat := h ▸ Nat.and_le_right
  rw [BitVec.toNat_xor, notOp, BitVec.toNat_sub_of_le (by simpa [BitVec.le_def] using hle)]
  cases sz
  · exact aux x.toNat 8 h
  · exact aux x.toNat 16 h
  · exact aux x.toNat 32 h

theorem flaggedSr_eq (sz : Size) (r : Long) (s : State) : (logicFlags sz r s).sr = flaggedSr s.sr sz r := by
  simp only [logicFlags_sr, flagsNZ, flaggedSr, BitVec.or_assoc]

/-! ### The prefetch window -/

theorem windowCells_old (s : State) (pc0 : Addr) (len : Nat) (a : Addr) (n : Nat) :
    ∀ c ∈ s.windowCells pc0 len a n, c.2 = s.fetchView c.1 ∧ ∃ k < n, c.1 = s.phys (a + BitVec.ofNat 32 k) := by
  induction n with
  | zero => simp [State.windowCells]
  | succ n ih =>
    have old (c) (hc : c ∈ s.windowCells pc0 len a n) :
        c.2 = s.fetchView c.1 ∧ ∃ k < n + 1, c.1 = s.phys (a + BitVec.ofNat 32 k) :=
      ⟨(ih c hc).1, (ih c hc).2.imp fun _ hk => ⟨Nat.lt_succ_of_lt hk.1, hk.2⟩⟩
    intro c hc
    unfold State.windowCells at hc
    dsimp only at hc
    split at hc
    · rcases List.mem_cons.1 hc with rfl | hc
      · exact ⟨rfl, n, Nat.lt_succ_self n, rfl⟩
      · exact old c hc
    · exact old c hc

theorem findCell_foldl (cs h : List Host.Cell) (p : Nat) :
    findCell (cs.foldl (fun h c => putCell h c.1 c.2) h) p = findCell h p
    ∨ ∃ c ∈ cs, c.1 = p ∧ findCell (cs.foldl (fun h c => putCell h c.1 c.2) h) p = some c.2 := by
  induction cs generalizing h with
  | nil => exact .inl rfl
  | cons c cs ih =>
    rcases ih (putCell h c.1 c.2) with e | ⟨x, hx, e⟩
    · rw [findCell_putCell] at e
      split at e
      · rename_i hp
        exact .inr ⟨c, List.mem_cons_self, hp.symm, e⟩
      · exact .inl e
    · exact .inr ⟨x, List.mem_cons_of_mem _ hx, e⟩

/-- The prefetch hazard (R274) changes what is held and the counter: a fetch of a byte sees what it would have seen, or, of
a stored byte, what it saw before the store. -/
theorem holdPrefetched_cases (before after : State) (pc0 : Addr) (len : Nat) (a : Addr) (n : Nat) :
    ∃ h k, holdPrefetched before after pc0 len a n = { after with held := h, draws := k }
      ∧ ∀ p, { after with held := h, draws := k : State }.fetchView p = after.fetchView p
        ∨ ({ after with held := h, draws := k : State }.fetchView p = before.fetchView p
          ∧ ∃ j < n, p = before.phys (a + BitVec.ofNat 32 j)) := by
  unfold holdPrefetched
  dsimp only
  split
  · exact ⟨after.held, after.draws, rfl, fun p => .inl rfl⟩
  · refine ⟨_, _, rfl, fun p => ?_⟩
    cases Config.freeFlag after.draws
    · exact .inl rfl
    · rcases findCell_foldl ((before.windowCells pc0 len a n).filter (fun c => after.fetchView c.1 != c.2)) after.held p
        with e | ⟨c, hc, rfl, e⟩
      · exact .inl (congrArg (fun v => v.getD (after.mem.read p)) e)
      · obtain ⟨old, j, hj, hp⟩ := windowCells_old before pc0 len a n c (List.mem_of_mem_filter hc)
        exact .inr ⟨(congrArg (fun v => v.getD (after.mem.read c.1)) e).trans old, j, hj, hp⟩

/-! ### Running -/

/-- `<ea>,Dn` with a readable operand completes (R150, R200). -/
theorem runEaToReg_plain (i : Instr) (o : LogicOp) (sz : Size) (dn : Fin 8) (ea : Ea) (s : State)
    (hb : s.busWrites = []) (h : locReadable s (eaLoc ea sz (s.pc + 2#32) s) sz) :
    ∃ t, runEaToReg i o sz dn ea s = .next t
      ∧ RegWritten s t ea sz dn (logicOp o (s.dReg dn &&& sz.mask) (locValue s (eaLoc ea sz (s.pc + 2#32) s) sz))
          (instrLength i) := by
  unfold runEaToReg
  rw [readLoc_plain _ _ _ (by simpa) ((locReadable_eaStep ea sz s _ sz).2 h), locValue_eaStep]
  refine ⟨_, rfl, ?_⟩
  have m := logicOp_masked o sz (s.dReg dn &&& sz.mask) _ (by simp [BitVec.and_assoc])
    (locValue_masked s (eaLoc ea sz (s.pc + 2#32) s) sz)
  unfold RegWritten
  simp only [State.setD, m, flaggedSr_eq, logicFlags_d, eaStep_d, eaStep_sr]
  simp

/-- Read, compute, write back in a data register completes (R135, R137). -/
theorem runModify_register (i : Instr) (sz : Size) (f : Long → Long) (cur : Addr) (n : Fin 8) (s : State)
    (hf : f (s.dReg n &&& sz.mask) &&& sz.mask = f (s.dReg n &&& sz.mask)) :
    ∃ t, runModify i sz f cur (.dreg n) s = .next t
      ∧ RegWritten s t (.dreg n) sz n (f (s.dReg n &&& sz.mask)) (instrLength i) := by
  refine ⟨_, rfl, ?_⟩
  unfold RegWritten
  simp only [State.setD, flaggedSr_eq, logicFlags_d, eaStep, State.dReg] at hf ⊢
  simp only [hf]
  rfl

/-- Read, compute, write back in plain storage completes (R54, R137). -/
theorem runModify_memory (i : Instr) (sz : Size) (f : Long → Long) (cur : Addr) (ea : Ea) (s : State) (a : Addr)
    (sp : Space) (hl : eaLoc ea sz cur s = .mem a sp) (hb : s.busWrites = []) (ha : alignedFor sz a)
    (hr : s.readsPlain a sz.bytes sp) (hw : s.writesPlain a sz.bytes)
    (hf : f (s.valueAt a sz) &&& sz.mask = f (s.valueAt a sz)) :
    ∃ t, runModify i sz f cur ea s = .next t ∧ MemWritten s t ea sz a (f (s.valueAt a sz)) (instrLength i) := by
  unfold runModify
  rw [hl, readLoc_plain _ _ _ (by simpa) ((locReadable_eaStep ea sz s (.mem a sp) sz).2 ⟨ha, hr⟩), locValue_eaStep]
  simp only [locValue]
  obtain ⟨t, e, m, v, out, view⟩ := memWrite_plain (logicFlags sz (f (s.valueAt a sz)) (eaStep ea sz s)) a sz
    (f (s.valueAt a sz)) (by simpa) ha (fun k hk => by simpa using hw k hk)
  simp only [writeLoc, e]
  obtain ⟨h, k, e2, hv⟩ :=
    holdPrefetched_cases (logicFlags sz (f (s.valueAt a sz)) (eaStep ea sz s)) t s.pc (instrLength i) a sz.bytes
  rw [e2]
  have hold (b : Addr) : { t with held := h, draws := k : State }.streamAt b = t.streamAt b
      ∨ ({ t with held := h, draws := k : State }.streamAt b = s.streamAt b ∧ ¬ s.outside a sz.bytes b) := by
    have p : t.phys b = s.phys b := by rw [m.phys]; simp
    rcases hv (t.phys b) with hb' | ⟨hb', j, hj, hp⟩
    · exact .inl hb'
    · refine .inr ⟨hb'.trans ?_, fun ho => ho j hj ?_⟩
      · rw [p]; simp [State.streamAt, State.fetchView]
      · rw [← p, hp]; simp
  refine ⟨_, rfl, ⟨t.mem, h, k, ?_⟩, ?_, fun b hb' => ⟨?_, ?_⟩, fun b => ?_⟩
  · rw [m]
    simp only [flaggedSr_eq, eaStep_sr]
    simp
  · rw [hf] at v
    cases sz <;> exact v
  · have := (out b (fun k hk => by simpa using hb' k hk)).1
    simp only [logicFlags_byteAt, eaStep_byteAt] at this
    exact this
  · have := (out b (fun k hk => by simpa using hb' k hk)).2
    simp only [logicFlags_streamAt, eaStep_streamAt] at this
    exact ((hold b).resolve_right fun x => x.2 hb').trans this
  · rcases hold b with x | x
    · rcases view b with y | y
      · exact .inl (x.trans y)
      · exact .inr (x.trans (by simpa using y))
    · exact .inr x.1

end Sys2Proof.Machine
end

