-- ==== Sys2Proof/Tests/Slice0.lean ====
section
/-! SUPPORT. Tests of the model: ill-formed terms, decoding, one step of the vectors of spec/95_test_vectors.md (their
numbers in the names). Last, a witness for each statement with hypotheses. -/

namespace Sys2Proof.Tests

open Sys2Proof Sys2Proof.Machine

set_option Elab.async false

/-! ### Well-formedness: each check refuses -/

theorem test_wf_refuses_pc_relative_destination : (Instr.notB (.pcDisp 0#16)).wf = false := by decide
theorem test_wf_refuses_pc_index_destination :
    (Instr.eoriW 1#16 (.pcIndex { isAddr := false, reg := 0, isLong := false, disp := 0#8 })).wf = false := by decide
theorem test_wf_refuses_immediate_destination : (Instr.eorLToEa 0 (.imm 5#32)).wf = false := by decide
theorem test_wf_refuses_register_as_memory : (Instr.orBToEa 0 (.dreg 1)).wf = false := by decide
theorem test_wf_refuses_wide_byte_immediate : (Instr.andBToReg 0 (.imm 0x100#32)).wf = false := by decide
theorem test_wf_refuses_wide_word_immediate : (Instr.orWToReg 0 (.imm 0x10000#32)).wf = false := by decide
theorem test_wf_refuses_eor_to_register_shape : (Shape.eaToReg .eor .byte 0 (.ind 0)).wf = false := by decide
theorem test_wf_refuses_wide_data_shape : (Shape.immToEa .or .byte 0x100#32 (.dreg 0)).wf = false := by decide
theorem test_wf_takes_register_for_eor : (Instr.eorLToEa 0 (.dreg 1)).wf = true := by decide
theorem test_wf_takes_pc_relative_source : (Instr.andWToReg 0 (.pcDisp 6#16)).wf = true := by decide

/-! ### Decoding: one word of each row of the table, written out from R82 to R89 (most are in table S1) -/

theorem test_decode_oriCcr : decodeWords [0x003C#16, 0x0010#16] = .ok (.oriCcr 0x10#8, []) := by
  decide +kernel
theorem test_decode_oriSr : decodeWords [0x007C#16, 0x0700#16] = .ok (.oriSr 0x0700#16, []) := by
  decide +kernel
theorem test_decode_oriB : decodeWords [0x0038#16, 0x0080#16, 0x2013#16] = .ok (.oriB 0x80#8 (.absShort 0x2013#16), []) := by
  decide +kernel
theorem test_decode_oriW : decodeWords [0x0057#16, 0x2000#16] = .ok (.oriW 0x2000#16 (.ind 7), []) := by
  decide +kernel
theorem test_decode_oriL : decodeWords [0x00B9#16, 0x1234#16, 0x5678#16, 0x0001#16, 0x2000#16] = .ok (.oriL 0x12345678#32 (.absLong 0x00012000#32), []) := by
  decide +kernel
theorem test_decode_andiCcr : decodeWords [0x023C#16, 0x00EF#16] = .ok (.andiCcr 0xEF#8, []) := by
  decide +kernel
theorem test_decode_andiSr : decodeWords [0x027C#16, 0xF8FF#16] = .ok (.andiSr 0xF8FF#16, []) := by
  decide +kernel
theorem test_decode_andiB : decodeWords [0x0220#16, 0x007F#16] = .ok (.andiB 0x7F#8 (.predec 0), []) := by
  decide +kernel
theorem test_decode_andiW : decodeWords [0x0269#16, 0x1234#16, 0x0010#16] = .ok (.andiW 0x1234#16 (.disp 1 0x0010#16), []) := by
  decide +kernel
theorem test_decode_andiL : decodeWords [0x0281#16, 0x1234#16, 0x5678#16] = .ok (.andiL 0x12345678#32 (.dreg 1), []) := by
  decide +kernel
theorem test_decode_eoriCcr : decodeWords [0x0A3C#16, 0x00FF#16] = .ok (.eoriCcr 0xFF#8, []) := by
  decide +kernel
theorem test_decode_eoriSr : decodeWords [0x0A7C#16, 0x2000#16] = .ok (.eoriSr 0x2000#16, []) := by
  decide +kernel
theorem test_decode_eoriB : decodeWords [0x0A30#16, 0x0080#16, 0x1805#16] = .ok (.eoriB 0x80#8 (.index 0 { isAddr := false, reg := 1, isLong := true, disp := 5#8 }), []) := by
  decide +kernel
theorem test_decode_eoriW : decodeWords [0x0A59#16, 0x1234#16] = .ok (.eoriW 0x1234#16 (.postinc 1), []) := by
  decide +kernel
theorem test_decode_eoriL : decodeWords [0x0AB8#16, 0x1234#16, 0x5678#16, 0x2000#16] = .ok (.eoriL 0x12345678#32 (.absShort 0x2000#16), []) := by
  decide +kernel
theorem test_decode_notB : decodeWords [0x4627#16] = .ok (.notB (.predec 7), []) := by
  decide +kernel
theorem test_decode_notW : decodeWords [0x4671#16, 0x2004#16] = .ok (.notW (.index 1 { isAddr := false, reg := 2, isLong := false, disp := 4#8 }), []) := by
  decide +kernel
theorem test_decode_notL : decodeWords [0x46A9#16, 0x0010#16] = .ok (.notL (.disp 1 0x0010#16), []) := by
  decide +kernel
theorem test_decode_orBToReg : decodeWords [0x8030#16, 0x98FF#16] = .ok (.orBToReg 0 (.index 0 { isAddr := true, reg := 1, isLong := true, disp := 0xFF#8 }), []) := by
  decide +kernel
theorem test_decode_orWToReg : decodeWords [0x807A#16, 0x0006#16] = .ok (.orWToReg 0 (.pcDisp 6#16), []) := by
  decide +kernel
theorem test_decode_orLToReg : decodeWords [0x8EBC#16, 0x8000#16, 0x0000#16] = .ok (.orLToReg 7 (.imm 0x80000000#32), []) := by
  decide +kernel
theorem test_decode_orBToEa : decodeWords [0x812A#16, 0x0011#16] = .ok (.orBToEa 0 (.disp 2 0x0011#16), []) := by
  decide +kernel
theorem test_decode_orWToEa : decodeWords [0x8B78#16, 0x2000#16] = .ok (.orWToEa 5 (.absShort 0x2000#16), []) := by
  decide +kernel
theorem test_decode_orLToEa : decodeWords [0x8198#16] = .ok (.orLToEa 0 (.postinc 0), []) := by
  decide +kernel
theorem test_decode_andBToReg : decodeWords [0xC03B#16, 0x8804#16] = .ok (.andBToReg 0 (.pcIndex { isAddr := true, reg := 0, isLong := true, disp := 4#8 }), []) := by
  decide +kernel
theorem test_decode_andWToReg : decodeWords [0xC270#16, 0x1002#16] = .ok (.andWToReg 1 (.index 0 { isAddr := false, reg := 1, isLong := false, disp := 2#8 }), []) := by
  decide +kernel
theorem test_decode_andLToReg : decodeWords [0xC4A9#16, 0xFFFC#16] = .ok (.andLToReg 2 (.disp 1 0xFFFC#16), []) := by
  decide +kernel
theorem test_decode_andBToEa : decodeWords [0xC31F#16] = .ok (.andBToEa 1 (.postinc 7), []) := by
  decide +kernel
theorem test_decode_andWToEa : decodeWords [0xC56B#16, 0x0010#16] = .ok (.andWToEa 2 (.disp 3 0x0010#16), []) := by
  decide +kernel
theorem test_decode_andLToEa : decodeWords [0xC1A1#16] = .ok (.andLToEa 0 (.predec 1), []) := by
  decide +kernel
theorem test_decode_eorBToEa : decodeWords [0xB101#16] = .ok (.eorBToEa 0 (.dreg 1), []) := by
  decide +kernel
theorem test_decode_eorWToEa : decodeWords [0xB370#16, 0x1000#16] = .ok (.eorWToEa 1 (.index 0 { isAddr := false, reg := 1, isLong := false, disp := 0#8 }), []) := by
  decide +kernel
theorem test_decode_eorLToEa : decodeWords [0xBFB8#16, 0x2000#16] = .ok (.eorLToEa 7 (.absShort 0x2000#16), []) := by
  decide +kernel

/-- U2 and U3: bits 15:8 of a byte immediate's word and bits 10:8 of a brief extension word are ignored (R84, R85). -/
theorem test_decode_ignores_unused_bits : decodeWords [0x0A30#16, 0xFF80#16, 0x1F05#16]
    = decodeWords [0x0A30#16, 0x0080#16, 0x1805#16] := by
  decide +kernel
theorem test_decode_keeps_the_words_after : decodeWords [0xC041#16, 0x1234#16]
    = .ok (.andWToReg 0 (.dreg 1), [0x1234#16]) := by
  decide +kernel
theorem test_decode_truncated : decodeWords [0x0281#16, 0x1234#16] = .error .truncated := by decide +kernel

/-- The table V-ILLEGAL. -/
theorem test_classify_illegal : [0x00C0#16, 0x0008#16, 0x02BC#16, 0x0A3A#16, 0x0A7A#16, 0x007B#16, 0x023D#16, 0x4648#16,
    0x467C#16, 0x467A#16, 0x803D#16, 0xC048#16, 0x8048#16, 0x8148#16, 0x8188#16, 0x8180#16, 0x8140#16, 0xC17A#16,
    0xC17C#16, 0xB1BA#16, 0xB17C#16, 0x003D#16].all (fun w => classify w = .illegal) = true := by
  decide +kernel

/-- The table V-REFUSE. -/
theorem test_classify_out_of_scope : [0x46C0#16, 0xB040#16, 0xB0C0#16, 0xB108#16, 0x80C0#16, 0x81C0#16, 0x8100#16,
    0x8108#16, 0xC0C0#16, 0xC1C0#16, 0xC100#16, 0xC108#16, 0xC140#16, 0xC148#16, 0xC188#16, 0x0100#16, 0x0400#16,
    0x0800#16, 0x0C00#16, 0x4E71#16, 0x4E73#16, 0x4400#16, 0x6000#16, 0x2000#16].all
      (fun w => classify w = .outOfScope) = true := by
  decide +kernel

/-! ### The start state of the vectors -/

/-- Bytes written one after the other. -/
def poke (m : Memory) : Nat → List Byte → Memory
  | _, [] => m
  | p, b :: bs => poke (m.write p b) (p + 1) bs

/-- Part 2 of spec/95_test_vectors.md: pc 0x1000, SSP 0x8000, USP 0x7000, vector v holds 0x400 + 0x10 * v for v from 2 to
11, the words of the instruction at 0x1000, the words of `data` at `at`, everything Ram. -/
def start (ws : List Word) (sr : Word) (at_ : Nat) (data : List Word) : State :=
  { State.reset with
    pc := 0x1000#32
    ssp := 0x8000#32
    usp := 0x7000#32
    sr := sr
    mem := poke (poke (poke [] 8 (bytesOfWords [0#16, 0x420#16, 0#16, 0x430#16, 0#16, 0x440#16, 0#16, 0x450#16,
      0#16, 0x460#16, 0#16, 0x470#16, 0#16, 0x480#16, 0#16, 0x490#16, 0#16, 0x4A0#16, 0#16, 0x4B0#16]))
      0x1000 (bytesOfWords ws)) at_ (bytesOfWords data) }

/-- A state with a data register set. -/
def withD (s : State) (n : Fin 8) (v : Long) : State := s.setD .long n v

/-- What a step shows, if it gives a next state. -/
def shows {α : Type} (s : State) (f : State → α) : Option α :=
  match step s with
  | .next t => some (f t)
  | _ => none

/-- How a step stops, if it does. -/
def stops (s : State) : Option (Fault ⊕ Refusal) :=
  match step s with
  | .next _ => none
  | .fault f => some (.inl f)
  | .refused r => some (.inr r)

/-- The word memory holds at an address. -/
def wordAt (s : State) (a : Addr) : Word := wordOfBytes (s.byteAt a) (s.byteAt (a + 1#32))

theorem test_start_memory_wf : (start [0xC041#16] 0x2700#16 0x2000 [0x1234#16]).mem.wf = true := by decide +kernel

/-! ### One step -/

theorem test_andB_AN1 : shows (withD (withD (start [0xC001#16] 0x2710#16 0x2000 []) 0 0x12345678#32) 1 0xFFFFFF0F#32)
    (fun t => (t.dReg 0, t.dReg 1, t.sr, t.pc)) = some (0x12345608#32, 0xFFFFFF0F#32, 0x2710#16, 0x1002#32) := by decide +kernel
theorem test_andB_AN7 : shows (withD (start [0xC027#16] 0x2700#16 0x7FFE [0xA55A#16]) 0 0x000000FF#32)
    (fun t => (t.dReg 0, t.ssp, t.sr, wordAt t 0x7FFE#32)) = some (0x000000A5#32, 0x7FFE#32, 0x2708#16, 0xA55A#16) := by decide +kernel
theorem test_andW_AN9 : shows ((withD (start [0xC270#16, 0x1002#16] 0x2700#16 0x2000 [0x0FF0#16]) 1 0x0001FFFE#32).setA 0 0x00002000#32)
    (fun t => (t.dReg 1, t.aReg 0, t.sr, t.pc)) = some (0x00010FF0#32, 0x00002000#32, 0x2700#16, 0x1004#32) := by decide +kernel
theorem test_andW_AN12 : shows (withD (start [0xC07A#16, 0x0006#16] 0x2700#16 0x1008 [0x7F00#16]) 0 0x0000FFFF#32)
    (fun t => (t.dReg 0, t.sr, t.pc)) = some (0x00007F00#32, 0x2700#16, 0x1004#32) := by decide +kernel
theorem test_andL_AN3 : shows (withD (withD (start [0xC081#16] 0x271F#16 0x2000 []) 0 0x12345678#32) 1 0xEDCBA987#32)
    (fun t => (t.dReg 0, t.sr, t.pc)) = some (0x00000000#32, 0x2714#16, 0x1002#32) := by decide +kernel
theorem test_andL_AN6 : shows ((withD (start [0xC098#16] 0x2700#16 0x2000 [0x00FF#16, 0x00FF#16]) 0 0xFFFFFFFF#32).setA 0 0x00002000#32)
    (fun t => (t.dReg 0, t.aReg 0, t.sr)) = some (0x00FF00FF#32, 0x00002004#32, 0x2700#16) := by decide +kernel
theorem test_andBToEa_AN16 : shows ((withD (start [0xC718#16] 0x2700#16 0x2000 [0xFFEE#16]) 3 0x0000000F#32).setA 0 0x00002000#32)
    (fun t => (t.aReg 0, wordAt t 0x2000#32, t.sr, t.dReg 3)) = some (0x00002001#32, 0x0FEE#16, 0x2700#16, 0x0000000F#32) := by decide +kernel
theorem test_andBToEa_AN20 : shows (withD (start [0xC31F#16] 0x0000#16 0x7000 [0xABCD#16]) 1 0x000000F0#32)
    (fun t => (t.usp, t.ssp, wordAt t 0x7000#32, t.sr)) = some (0x7002#32, 0x8000#32, 0xA0CD#16, 0x0008#16) := by decide +kernel
theorem test_andWToEa_AN17 : shows ((withD (start [0xC150#16] 0x2700#16 0x2000 [0x8181#16]) 0 0xFFFF00FF#32).setA 0 0x00002000#32)
    (fun t => (wordAt t 0x2000#32, t.dReg 0, t.sr)) = some (0x0081#16, 0xFFFF00FF#32, 0x2700#16) := by decide +kernel
theorem test_andWToEa_AN19 : shows ((withD (start [0xC56B#16, 0x0010#16] 0x2710#16 0x2010 [0xBEEF#16]) 2 0x00000000#32).setA 3 0x00002000#32)
    (fun t => (wordAt t 0x2010#32, t.aReg 3, t.sr, t.pc)) = some (0x0000#16, 0x00002000#32, 0x2714#16, 0x1004#32) := by decide +kernel
theorem test_andLToEa_AN18 : shows ((withD (start [0xC1A1#16] 0x2700#16 0x2000 [0xFFFF#16, 0xFFFF#16]) 0 0x80000000#32).setA 1 0x00002004#32)
    (fun t => (t.aReg 1, wordAt t 0x2000#32, wordAt t 0x2002#32, t.sr)) = some (0x00002000#32, 0x8000#16, 0x0000#16, 0x2708#16) := by decide +kernel
theorem test_andiB_AI5 : shows ((start [0x0220#16, 0x007F#16] 0x2700#16 0x2000 [0xFF11#16]).setA 0 0x00002001#32)
    (fun t => (t.aReg 0, wordAt t 0x2000#32, t.sr, t.pc)) = some (0x00002000#32, 0x7F11#16, 0x2700#16, 0x1004#32) := by decide +kernel
theorem test_andiB_AI2 : shows (withD (start [0x0200#16, 0x000F#16] 0x271B#16 0x2000 []) 0 0xFFFFFFF0#32)
    (fun t => (t.dReg 0, t.sr)) = some (0xFFFFFF00#32, 0x2714#16) := by decide +kernel
theorem test_andiW_AI6 : shows ((start [0x0268#16, 0xFF00#16, 0x0010#16] 0x2700#16 0x2010 [0x1234#16]).setA 0 0x00002000#32)
    (fun t => (wordAt t 0x2010#32, t.sr, t.pc)) = some (0x1200#16, 0x2700#16, 0x1006#32) := by decide +kernel
theorem test_andiL_AI7 : shows (start [0x02B9#16, 0x0000#16, 0xFFFF#16, 0x1234#16, 0x5678#16] 0x2700#16 0x345678 [0xCAFE#16, 0xF00D#16])
    (fun t => (wordAt t 0x12345678#32, wordAt t 0x1234567A#32, t.sr, t.pc)) = some (0x0000#16, 0xF00D#16, 0x2700#16, 0x100A#32) := by decide +kernel
theorem test_andiCcr_AI8 : shows (start [0x023C#16, 0x00EF#16] 0x001F#16 0x2000 [])
    (fun t => (t.sr, t.pc)) = some (0x000F#16, 0x1004#32) := by decide +kernel
theorem test_andiCcr_AI13 : shows (start [0x023C#16, 0x0000#16] 0xA71F#16 0x2000 [])
    (fun t => (t.ssp, wordAt t 0x7FFA#32, wordAt t 0x7FFC#32, wordAt t 0x7FFE#32, t.sr, t.pc)) = some (0x7FFA#32, 0xA700#16, 0x0000#16, 0x1004#16, 0x2700#16, 0x490#32) := by decide +kernel
theorem test_andiSr_AI10 : shows (start [0x027C#16, 0xDFFF#16] 0x2704#16 0x2000 [])
    (fun t => (t.sr, t.pc)) = some (0x0704#16, 0x1004#32) := by decide +kernel
theorem test_andiSr_AI12 : shows (start [0x027C#16, 0xFFFF#16] 0x0015#16 0x2000 [])
    (fun t => (t.ssp, wordAt t 0x7FFA#32, wordAt t 0x7FFC#32, wordAt t 0x7FFE#32, t.sr, t.pc)) = some (0x7FFA#32, 0x0015#16, 0x0000#16, 0x1000#16, 0x2015#16, 0x480#32) := by decide +kernel
theorem test_eorB_E3 : shows (withD (withD (start [0xB101#16] 0x2700#16 0x2000 []) 0 0x000000FF#32) 1 0x1234567F#32)
    (fun t => (t.dReg 0, t.dReg 1, t.sr)) = some (0x000000FF#32, 0x12345680#32, 0x2708#16) := by decide +kernel
theorem test_eorB_E5 : shows (withD (start [0xB71F#16] 0x2700#16 0x8000 [0x0102#16]) 3 0x00000080#32)
    (fun t => (t.ssp, wordAt t 0x8000#32, t.sr, t.pc)) = some (0x8002#32, 0x8102#16, 0x2708#16, 0x1002#32) := by decide +kernel
theorem test_eorW_E4 : shows ((withD (start [0xB358#16] 0x2700#16 0x2000 [0x00FF#16]) 1 0x0000FFFF#32).setA 0 0x00002000#32)
    (fun t => (t.aReg 0, wordAt t 0x2000#32, t.sr)) = some (0x00002002#32, 0xFF00#16, 0x2708#16) := by decide +kernel
theorem test_eorW_E6 : shows ((withD (start [0xB370#16, 0x1000#16] 0x2700#16 0x2004 [0x0004#16]) 1 0x00000004#32).setA 0 0x00002000#32)
    (fun t => (wordAt t 0x2004#32, t.dReg 1, t.sr, t.pc)) = some (0x0000#16, 0x00000004#32, 0x2704#16, 0x1004#32) := by decide +kernel
theorem test_eorL_E2 : shows (withD (start [0xB582#16] 0x271B#16 0x2000 []) 2 0x12345678#32)
    (fun t => (t.dReg 2, t.sr)) = some (0x00000000#32, 0x2714#16) := by decide +kernel
theorem test_eorL_E7 : shows (withD (start [0xBFB8#16, 0x2000#16] 0x2700#16 0x2000 [0x0000#16, 0x0001#16]) 7 0x80000001#32)
    (fun t => (wordAt t 0x2000#32, wordAt t 0x2002#32, t.sr, t.pc)) = some (0x8000#16, 0x0000#16, 0x2708#16, 0x1004#32) := by decide +kernel
theorem test_eoriB_EI4 : shows ((withD (start [0x0A30#16, 0x0080#16, 0x1805#16] 0x2700#16 0x2014 [0x1180#16]) 1 0x00000010#32).setA 0 0x00002000#32)
    (fun t => (wordAt t 0x2014#32, t.sr, t.pc)) = some (0x1100#16, 0x2704#16, 0x1006#32) := by decide +kernel
theorem test_eoriW_EI2 : shows (withD (start [0x0A40#16, 0x8000#16] 0x2700#16 0x2000 []) 0 0x00007FFF#32)
    (fun t => (t.dReg 0, t.sr, t.pc)) = some (0x0000FFFF#32, 0x2708#16, 0x1004#32) := by decide +kernel
theorem test_eoriL_EI3 : shows (withD (start [0x0A80#16, 0xFFFF#16, 0xFFFF#16] 0x2700#16 0x2000 []) 0 0x0F0F0F0F#32)
    (fun t => (t.dReg 0, t.sr, t.pc)) = some (0xF0F0F0F0#32, 0x2708#16, 0x1006#32) := by decide +kernel
theorem test_eoriCcr_EI7 : shows (start [0x0A3C#16, 0x00FF#16] 0x000A#16 0x2000 [])
    (fun t => (t.sr, t.pc)) = some (0x0015#16, 0x1004#32) := by decide +kernel
theorem test_eoriSr_EI9 : shows (start [0x0A7C#16, 0xFFFF#16] 0x2700#16 0x2000 [])
    (fun t => (t.sr, t.pc)) = some (0x801F#16, 0x1004#32) := by decide +kernel
theorem test_eoriSr_EI10 : shows (start [0x0A7C#16, 0x2000#16] 0x0000#16 0x2000 [])
    (fun t => (t.ssp, wordAt t 0x7FFA#32, wordAt t 0x7FFE#32, t.sr, t.pc)) = some (0x7FFA#32, 0x0000#16, 0x1000#16, 0x2000#16, 0x480#32) := by decide +kernel
theorem test_notB_NT1 : shows (withD (start [0x4600#16] 0x2713#16 0x2000 []) 0 0x123456FF#32)
    (fun t => (t.dReg 0, t.sr, t.pc)) = some (0x12345600#32, 0x2714#16, 0x1002#32) := by decide +kernel
theorem test_notB_NT6 : shows (start [0x4627#16] 0x2700#16 0x7FFE [0x00FF#16])
    (fun t => (t.ssp, wordAt t 0x7FFE#32, t.sr)) = some (0x7FFE#32, 0xFFFF#16, 0x2708#16) := by decide +kernel
theorem test_notW_NT5 : shows ((start [0x4650#16] 0x2700#16 0x2000 [0xA5A5#16]).setA 0 0x00002000#32)
    (fun t => (wordAt t 0x2000#32, t.sr)) = some (0x5A5A#16, 0x2700#16) := by decide +kernel
theorem test_notW_NT9 : shows (start [0x4678#16, 0x8000#16] 0x2700#16 0xFF8000 [0xFFFF#16])
    (fun t => (wordAt t 0xFFFF8000#32, t.sr, t.pc)) = some (0x0000#16, 0x2704#16, 0x1004#32) := by decide +kernel
theorem test_notL_NT3 : shows (withD (start [0x4680#16] 0x2700#16 0x2000 []) 0 0xFFFFFFFF#32)
    (fun t => (t.dReg 0, t.sr)) = some (0x00000000#32, 0x2704#16) := by decide +kernel
theorem test_notL_NT7 : shows ((start [0x46A9#16, 0x0012#16] 0x2700#16 0x2012 [0x0000#16, 0xFFFF#16]).setA 1 0x00002000#32)
    (fun t => (wordAt t 0x2012#32, wordAt t 0x2014#32, t.sr, t.pc)) = some (0xFFFF#16, 0x0000#16, 0x2708#16, 0x1004#32) := by decide +kernel
theorem test_orB_O1 : shows (withD (withD (start [0x8001#16] 0x2713#16 0x2000 []) 0 0x12345601#32) 1 0xFFFFFF80#32)
    (fun t => (t.dReg 0, t.sr, t.pc)) = some (0x12345681#32, 0x2718#16, 0x1002#32) := by decide +kernel
theorem test_orB_O8 : shows (withD (withD (start [0x843B#16, 0x1002#16] 0x2700#16 0x2000 []) 1 0x0000FFFF#32) 2 0x00000000#32)
    (fun t => (t.dReg 2, t.sr, t.pc)) = some (0x00000002#32, 0x2700#16, 0x1004#32) := by decide +kernel
theorem test_orW_O2 : shows (withD (withD (start [0x8041#16] 0x2700#16 0x2000 []) 0 0xFFFF0000#32) 1 0xFFFF0000#32)
    (fun t => (t.dReg 0, t.sr)) = some (0xFFFF0000#32, 0x2704#16) := by decide +kernel
theorem test_orW_O6 : shows ((withD (start [0x8270#16, 0x1000#16] 0x2700#16 0x2002 [0x4000#16]) 1 0x00000002#32).setA 0 0x00002000#32)
    (fun t => (t.dReg 1, t.sr, t.pc)) = some (0x00004002#32, 0x2700#16, 0x1004#32) := by decide +kernel
theorem test_orL_O5 : shows ((withD (start [0x84A1#16] 0x2700#16 0x2000 [0x8000#16, 0x0000#16]) 2 0x00000001#32).setA 1 0x00002004#32)
    (fun t => (t.dReg 2, t.aReg 1, t.sr)) = some (0x80000001#32, 0x00002000#32, 0x2708#16) := by decide +kernel
theorem test_orL_O9 : shows (withD (start [0x8EBC#16, 0x8000#16, 0x0000#16] 0x2700#16 0x2000 []) 7 0x00000001#32)
    (fun t => (t.dReg 7, t.sr, t.pc)) = some (0x80000001#32, 0x2708#16, 0x1006#32) := by decide +kernel
theorem test_orBToEa_O12 : shows ((withD (start [0x8110#16] 0x2700#16 0x2000 [0x11F0#16]) 0 0x0000000F#32).setA 0 0x00002001#32)
    (fun t => (wordAt t 0x2000#32, t.aReg 0, t.sr)) = some (0x11FF#16, 0x00002001#32, 0x2708#16) := by decide +kernel
theorem test_orWToEa_O11 : shows ((withD (withD (start [0x8372#16, 0x30FE#16] 0x2700#16 0x2004 [0x0001#16]) 1 0x00008000#32) 3 0x00000006#32).setA 2 0x00002000#32)
    (fun t => (wordAt t 0x2004#32, t.sr, t.pc)) = some (0x8001#16, 0x2708#16, 0x1004#32) := by decide +kernel
theorem test_orLToEa_O13 : shows ((withD (start [0x8198#16] 0x2700#16 0x2000 [0x0000#16, 0x0000#16]) 0 0x00000000#32).setA 0 0x00002000#32)
    (fun t => (wordAt t 0x2000#32, t.aReg 0, t.sr)) = some (0x0000#16, 0x00002004#32, 0x2704#16) := by decide +kernel
theorem test_oriB_OI4 : shows ((start [0x0018#16, 0x0001#16] 0x2700#16 0x2000 [0xFE22#16]).setA 0 0x00002000#32)
    (fun t => (t.aReg 0, wordAt t 0x2000#32, t.sr, t.pc)) = some (0x00002001#32, 0xFF22#16, 0x2708#16, 0x1004#32) := by decide +kernel
theorem test_oriW_OI5 : shows (start [0x0067#16, 0x00FF#16] 0x2700#16 0x7FFE [0x7F00#16])
    (fun t => (t.ssp, wordAt t 0x7FFE#32, t.sr)) = some (0x7FFE#32, 0x7FFF#16, 0x2700#16) := by decide +kernel
theorem test_oriL_OI6 : shows ((start [0x00A8#16, 0x0000#16, 0xFFFF#16, 0x0008#16] 0x2700#16 0x2008 [0x7FFF#16, 0x0000#16]).setA 0 0x00002000#32)
    (fun t => (wordAt t 0x2008#32, wordAt t 0x200A#32, t.sr, t.pc)) = some (0x7FFF#16, 0xFFFF#16, 0x2700#16, 0x1008#32) := by decide +kernel
theorem test_oriCcr_OI9 : shows (start [0x003C#16, 0x00FF#16] 0x2700#16 0x2000 [])
    (fun t => (t.sr, t.pc)) = some (0x271F#16, 0x1004#32) := by decide +kernel
theorem test_oriSr_OI11 : shows (start [0x007C#16, 0xFFFF#16] 0x2000#16 0x2000 [])
    (fun t => (t.sr, t.pc, t.ssp)) = some (0xA71F#16, 0x1004#32, 0x8000#32) := by decide +kernel
theorem test_oriSr_OI13 : shows (start [0x007C#16, 0x0700#16] 0x8000#16 0x2000 [])
    (fun t => (t.ssp, wordAt t 0x7FFA#32, wordAt t 0x7FFE#32, t.sr, t.pc)) = some (0x7FFA#32, 0x8000#16, 0x1000#16, 0x2000#16, 0x480#32) := by decide +kernel

/-! ### Exceptions and boundaries -/

/-- V-ILLEGAL in user mode: the word 0x4648. -/
theorem test_illegal_word_traps : shows (start [0x4648#16] 0x0000#16 0x2000 [])
    (fun t => (t.ssp, wordAt t 0x7FFA#32, wordAt t 0x7FFE#32, t.sr, t.pc, t.usp))
      = some (0x7FFA#32, 0#16, 0x1000#16, 0x2000#16, 0x440#32, 0x7000#32) := by decide +kernel

/-- X20 of V-REFUSE. -/
theorem test_out_of_scope_word_refused :
    stops (start [0x4E71#16] 0x2700#16 0x2000 []) = some (.inr (.outOfScope 0x4E71#16)) := by
  decide +kernel

/-- AE1: the fields the spec fixes that do not pass through the frame's free values. -/
theorem test_odd_operand_AE1 : shows (withD ((start [0xC050#16] 0x2700#16 0x2000 []).setA 0 0x2001#32) 0 0x0000FFFF#32)
    (fun t => (t.ssp, t.sr, t.dReg 0, t.run)) = some (0x7FF2#32, 0x2700#16, 0x0000FFFF#32, .running) := by decide +kernel

/-- AE6: in user mode the frame goes on the supervisor stack. -/
theorem test_odd_operand_AE6 : shows ((start [0x0068#16, 0x0001#16, 0x0011#16] 0x0000#16 0x2000 []).setA 0 0x2000#32)
    (fun t => (t.ssp, t.usp, t.sr)) = some (0x7FF2#32, 0x7000#32, 0x2000#16) := by decide +kernel

/-- AE9: with an odd SSP the second fault is a double fault. -/
theorem test_odd_stack_halts_AE9 :
    shows { (start [0x4650#16] 0x2700#16 0x2000 []).setA 0 0x2001#32 with ssp := 0x7FFF#32 } (fun t => t.run)
      = some .halted := by decide +kernel

/-- R232: a halted processor takes no step. -/
theorem test_halted_is_stuck :
    stops { start [0xC041#16] 0x2700#16 0x2000 [] with run := .halted } = some (.inl .halted) := by
  decide +kernel

/-- R228: a level 5 autovector request above mask 3 is taken, vector 29. -/
theorem test_interrupt_taken :
    shows { start [0xC041#16] 0x2300#16 0x74 [0#16, 0x0600#16] with
        inputs := [{ reset := false, level := 5#3, vector := .auto }] }
      (fun t => (t.pc, t.sr, t.ssp, wordAt t 0x7FFA#32, wordAt t 0x7FFE#32))
      = some (0x600#32, 0x2500#16, 0x7FFA#32, 0x2300#16, 0x1000#16) := by decide +kernel

/-- R228: a request at the mask is not taken, and the instruction runs. -/
theorem test_interrupt_masked :
    shows { start [0xC041#16] 0x2500#16 0x2000 [] with
        inputs := [{ reset := false, level := 5#3, vector := .auto }] } (fun t => (t.pc, t.ssp, t.irqLevel))
      = some (0x1002#32, 0x8000#32, 5#3) := by decide +kernel

/-- R231: what the return pops after an interrupt entry. -/
theorem test_return_undoes_entry :
    (match ((start [] 0x0315#16 0x2000 []).takeShort 8#8 none 0x1234#32 0x1000#32 none).returnFromShort with
      | .ok _ t => some (t.sr, t.pc, t.ssp, t.usp)
      | .abort _ _ => none) = some (0x0315#16, 0x1234#32, 0x8000#32, 0x7000#32) := by decide +kernel

/-- R270: the reset sequence loads SSP and the pc from 0 and 4. -/
theorem test_reset_sequence :
    (fun t : State => (t.ssp, t.pc, t.run, t.tracePending))
      { start [] 0x8000#16 0 [0x0000#16, 0x6000#16, 0x0000#16, 0x1400#16] with run := .halted }.resetSequence
      = (0x6000#32, 0x1400#32, .running, false) := by decide +kernel

/-- R229: with a reset at the boundary that a traced instruction reaches, no trace frame is pushed. -/
theorem test_reset_above_trace :
    shows { start [0x023C#16, 0x0000#16] 0xA71F#16 0x2000 [] with
        inputs := [quietSample, { reset := true, level := 0#3, vector := .auto }] }
      (fun t => (t.ssp, t.sr, t.pc, t.tracePending, t.sample.reset)) = some (0x8000#32, 0xA700#16, 0x1004#32, true, true) := by
  decide +kernel

/-- R229, R270: a reset in the course of an instruction: the reset sequence follows. -/
theorem test_reset_aborts_step :
    shows { start [0x4640#16] 0x2700#16 0x2000 [] with
        inputs := [{ reset := false, level := 0#3, vector := .auto, abort := true }] }
      (fun t => (t.run, t.tracePending, t.inputs.isEmpty)) = some (.running, false, true) := by
  decide +kernel

/-- A row of the table runs as the first instruction from reset: `NOT.W D0`. -/
theorem test_with_fetch_word : shows (State.reset.withFetchWord 16 0x4640) (fun t => (t.pc, t.sr, t.dReg 0))
    = some (2#32, 0x2708#16, 0xFFFF#32) := by decide +kernel
theorem test_decode_table_word : decodeTableWord 16 0x8110 = some (.orBToEa 0 (.ind 0)) := by decide +kernel

/-! ### Witnesses: for each statement with hypotheses, concrete values that meet them -/

/-- With no region listed every exception entry at an even stack pointer can be made. -/
theorem canEnter_of_noRegion (s : State) (n : Nat) (v : BitVec 8) (hb : s.busWrites = []) (hm : s.memMap = [])
    (ho : s.ssp.getLsbD 0 = false) : s.canEnter n v :=
  ⟨hb, ho, fun _ _ => s.enterSupervisor.mapAt_of_noRegion hm _ _ _,
    fun _ _ => .inl (s.enterSupervisor.mapAt_of_noRegion hm _ _ _)⟩

/-- With no region listed every address answers a read. -/
theorem readsPlain_of_noRegion (s : State) (a : Addr) (n : Nat) (sp : Space) (hm : s.memMap = []) :
    s.readsPlain a n sp :=
  fun _ _ => .inl (s.mapAt_of_noRegion hm _ _ _)

/-- Supervisor mode, A0 at plain storage. -/
def memState : State := (start [] 0x2700#16 0x2000 [0x1234#16, 0x5678#16]).setA 0 0x2000#32

/-- User mode. -/
def userState : State := start [] 0x0015#16 0x2000 []

/-- Supervisor mode with one region at 0x2000 that answers a kind of access. -/
def mapState (reads writes : Bool) (answer : MapAnswer) : State :=
  { memState with memMap := [{ base := 0x2000, size := 4, reads := reads, writes := writes, data := true, prog := true, user := true, supervisor := true, answer := answer }] }

/-- An interrupt request at the coming boundary. -/
def requestState (sr : Word) (level : BitVec 3) : State :=
  { start [] sr 0x2000 [] with inputs := [{ reset := false, level := level, vector := .device 5#8 }] }

/-- The pc odd. -/
def oddPcState (sr : Word) : State := { start [] sr 0x2000 [] with pc := 0x1001#32 }

/-- Supervisor mode with A0 odd. -/
def oddState : State := memState.setA 0 0x2001#32

theorem test_witness_LogicOperationsAreBitwise :
    0xFF#32 &&& Size.byte.mask = 0xFF#32 ∧ 7 ≤ Size.byte.msb ∧ 0xFFFF#32 &&& Size.word.mask = 0xFFFF#32
    ∧ 15 ≤ Size.word.msb ∧ 0xFFFFFFFF#32 &&& Size.long.mask = 0xFFFFFFFF#32 ∧ 31 ≤ Size.long.msb := by decide

theorem test_witness_ByteStepThroughStackPointerIsTwo :
    ¬ ((7 : Fin 8) = 7 ∧ Size.word = .byte) ∧ ¬ ((6 : Fin 8) = 7 ∧ Size.byte = .byte) := by decide

theorem test_witness_IndexRegisterAndSize : 0x1F05#16 &&& 0xF8FF#16 = 0x1805#16 &&& 0xF8FF#16 := by decide

theorem test_witness_ReadLocGivesValueOfSize : 0xFF#32 &&& Size.byte.mask = 0xFF#32
    ∧ ∃ v t, readLoc (.mem 0x2000#32 .data) .long memState = .ok v t := ⟨by decide, _, _, rfl⟩

theorem test_witness_WriteLocKeepsUpperBits : (1 : Fin 8) ≠ 0
    ∧ (∃ t, memState.memWrite 0x2000#32 .word 5#32 = .ok () t)
    ∧ ∃ e t, memState.memWrite 0x2001#32 .word 5#32 = .abort e t := ⟨by decide, ⟨_, rfl⟩, _, _, rfl⟩

theorem test_witness_MemoryIsBigEndian : memState.busWrites = [] ∧ (0x2000#32 : Addr).getLsbD 0 = false
    ∧ Instr.andiL 5#32 (.absLong 6#32) ∈ [Instr.oriL 5#32 (.absLong 6#32), .andiL 5#32 (.absLong 6#32), .eoriL 5#32 (.absLong 6#32)]
    ∧ Instr.andLToReg 0 (.imm 5#32) ∈ [Instr.orLToReg 0 (.imm 5#32), .andLToReg 0 (.imm 5#32)]
    ∧ operandOf (.andiL 5#32 (.absLong 6#32)) = some (.long, .absLong 6#32, 6)
    ∧ memState.writesPlain 0x2000#32 4 ∧ memState.readsPlain 0x2000#32 4 .data ∧ memState.readsPlain 0x2000#32 4 .prog := by
  decide +kernel

theorem test_witness_OddAddressRaisesAddressError :
    (Size.word ≠ .byte ∧ (0x2001#32 : Addr).getLsbD 0 = true) ∧ (0x2000#32 : Addr).getLsbD 0 = false
    ∧ (∃ e t, (mapState true false .fault).memRead 0x2000#32 .word .data = .abort e t)
    ∧ (∃ e t, (mapState true false .fault).memRead 0x2001#32 .byte .data = .abort e t)
    ∧ (∃ e t, (mapState false true .fault).memWrite 0x2000#32 .word 0#32 = .abort e t)
    ∧ ∃ e t, (mapState true false .fault).fetch16 0x2000#32 = .abort e t :=
  ⟨by decide, by decide, ⟨_, _, rfl⟩, ⟨_, _, rfl⟩, ⟨_, _, rfl⟩, _, _, rfl⟩

/-- The first byte of a long and the last. -/
theorem test_witness_MapFaultRaisesBusError : alignedFor .long 0x2000#32 ∧ 0 < Size.long.bytes ∧ 3 < Size.long.bytes
    ∧ (mapState true false .fault).mapAt (0x2000#32 + BitVec.ofNat 32 0) false .data = .fault
    ∧ (mapState true false .fault).mapAt (0x2000#32 + BitVec.ofNat 32 3) false .data = .fault
    ∧ (mapState false true .fault).mapAt (0x2000#32 + BitVec.ofNat 32 0) true .data = .fault
    ∧ (mapState false true .fault).mapAt (0x2000#32 + BitVec.ofNat 32 3) true .data = .fault := by
  decide +kernel

theorem test_witness_RomAndDeviceWritesStoreNothing : ∀ m ∈ [MapAnswer.rom, .device, .nothing],
    (mapState true true m).busWrites = [] ∧ alignedFor .long 0x2000#32
    ∧ ∀ k < Size.long.bytes, (mapState true true m).mapAt (0x2000#32 + BitVec.ofNat 32 k) true .data = m := by
  decide +kernel

theorem test_witness_BusMasterWritesAreSeenByTheNextCycle :
    { memState with busWrites := [[(0x2000, 0xAB#8)]] : State }.busWrites = [(memState.phys 0x2000#32, 0xAB#8)] :: []
    ∧ { memState with busWrites := [[(0x2000, 0xAB#8)]] : State }.readsPlain 0x2000#32 1 .data := by
  decide +kernel

/-- A store that ends just outside the window, and one whose first byte is the window's last. -/
theorem test_witness_PrefetchWindowShowsOldOrNewBytes : memState.busWrites = [] ∧ alignedFor .word 0x1006#32
    ∧ memState.writesPlain 0x1006#32 2 ∧ memState.writesPlain 0x1004#32 2
    ∧ memState.inWindow 0x1000#32 2 (0x1006#32 + BitVec.ofNat 32 0) = false
    ∧ memState.inWindow 0x1000#32 2 (0x1004#32 + BitVec.ofNat 32 1) = true
    ∧ (∃ t, writeLoc (.mem 0x1006#32 .data) .word 5#32 0x1000#32 2 memState = .ok () t)
    ∧ ∃ t, writeLoc (.mem 0x1004#32 .data) .word 5#32 0x1000#32 2 memState = .ok () t :=
  ⟨rfl, by decide, by decide +kernel, by decide +kernel, by decide +kernel, by decide +kernel, ⟨_, rfl⟩, _, rfl⟩

theorem test_witness_NotImplementedSrBitsStayZero : memState.super = true ∧ memState.sr &&& srImplMask = memState.sr
    ∧ memState.canEnter 6 8#8 ∧ memState.canEnter 14 3#8 ∧ memState.canEnter 14 2#8 :=
  ⟨by decide +kernel, by decide +kernel, canEnter_of_noRegion _ _ _ rfl rfl (by decide +kernel),
    canEnter_of_noRegion _ _ _ rfl rfl (by decide +kernel), canEnter_of_noRegion _ _ _ rfl rfl (by decide +kernel)⟩

theorem test_witness_ToCcrFormsWriteFiveFlags :
    ∀ p ∈ [(Instr.oriCcr 0x10#8, 0x0015#16), (.andiCcr 0x10#8, 0x0010#16), (.eoriCcr 0x10#8, 0x0005#16)],
      p ∈ [(Instr.oriCcr 0x10#8, userState.sr ||| BitVec.setWidth 16 0x10#8),
        (.andiCcr 0x10#8, userState.sr &&& BitVec.setWidth 16 0x10#8),
        (.eoriCcr 0x10#8, userState.sr ^^^ BitVec.setWidth 16 0x10#8)] := by
  decide +kernel

theorem test_witness_ToSrFormsInSupervisorMode : memState.super = true
    ∧ ∀ p ∈ [(Instr.oriSr 0x8000#16, 0xA700#16), (.andiSr 0x8000#16, 0#16), (.eoriSr 0x8000#16, 0xA700#16)],
      p ∈ [(Instr.oriSr 0x8000#16, memState.sr ||| 0x8000#16), (.andiSr 0x8000#16, memState.sr &&& 0x8000#16),
        (.eoriSr 0x8000#16, memState.sr ^^^ 0x8000#16)] := by
  decide +kernel

theorem test_witness_ToSrFormsInUserModeTrap : userState.super = false ∧ userState.canEnter 6 8#8
    ∧ Instr.andiSr 0#16 ∈ [Instr.oriSr 0#16, .andiSr 0#16, .eoriSr 0#16] :=
  ⟨by decide +kernel, canEnter_of_noRegion _ _ _ rfl rfl (by decide +kernel), by decide⟩

/-- A source in memory and one in a register. -/
theorem test_witness_AndToRegisterResult :
    (∀ p ∈ [(Size.byte, Instr.andBToReg 1 (.ind 0)), (.word, .andWToReg 1 (.ind 0)), (.long, .andLToReg 1 (.ind 0))],
      memState.busWrites = [] ∧ eaLoc (.ind 0) p.1 (memState.pc + 2#32) memState = .mem 0x2000#32 .data
      ∧ alignedFor p.1 0x2000#32 ∧ memState.readsPlain 0x2000#32 p.1.bytes .data)
    ∧ locReadable memState (eaLoc (.ind 0) .long (memState.pc + 2#32) memState) .long
    ∧ locReadable memState (eaLoc (.dreg 0) .long (memState.pc + 2#32) memState) .long
    ∧ locReadable memState (eaLoc (.imm 5#32) .long (memState.pc + 2#32) memState) .long := by
  refine ⟨by decide +kernel, ?_, trivial, trivial⟩
  show alignedFor .long 0x2000#32 ∧ memState.readsPlain 0x2000#32 4 .data
  decide +kernel

theorem test_witness_OrToRegisterResult : memState.busWrites = []
    ∧ (Size.byte, Instr.orBToReg 1 (.ind 0))
      ∈ [(Size.byte, Instr.orBToReg 1 (.ind 0)), (.word, .orWToReg 1 (.ind 0)), (.long, .orLToReg 1 (.ind 0))]
    ∧ locReadable memState (eaLoc (.ind 0) .byte (memState.pc + 2#32) memState) .byte := by
  refine ⟨rfl, by decide, ?_⟩
  show alignedFor .byte 0x2000#32 ∧ memState.readsPlain 0x2000#32 1 .data
  decide +kernel

theorem test_witness_AndToMemoryResult : ∀ p ∈ [(Size.byte, Instr.andBToEa 1 (.ind 0)), (.word, .andWToEa 1 (.ind 0)), (.long, .andLToEa 1 (.ind 0))],
    p ∈ [(Size.byte, Instr.andBToEa 1 (.ind 0)), (.word, .andWToEa 1 (.ind 0)), (.long, .andLToEa 1 (.ind 0))]
    ∧ eaLoc (.ind 0) p.1 (memState.pc + 2#32) memState = .mem 0x2000#32 .data ∧ memState.busWrites = []
    ∧ alignedFor p.1 0x2000#32 ∧ memState.readsPlain 0x2000#32 p.1.bytes .data
    ∧ memState.writesPlain 0x2000#32 p.1.bytes := by
  decide +kernel

theorem test_witness_OrToMemoryResult : ∀ p ∈ [(Size.byte, Instr.orBToEa 1 (.ind 0)), (.word, .orWToEa 1 (.ind 0)), (.long, .orLToEa 1 (.ind 0))],
    p ∈ [(Size.byte, Instr.orBToEa 1 (.ind 0)), (.word, .orWToEa 1 (.ind 0)), (.long, .orLToEa 1 (.ind 0))]
    ∧ eaLoc (.ind 0) p.1 (memState.pc + 2#32) memState = .mem 0x2000#32 .data ∧ memState.busWrites = []
    ∧ alignedFor p.1 0x2000#32 ∧ memState.readsPlain 0x2000#32 p.1.bytes .data
    ∧ memState.writesPlain 0x2000#32 p.1.bytes := by
  decide +kernel

theorem test_witness_EorResult : ∀ p ∈ [(Size.byte, Instr.eorBToEa 1 (.ind 0)), (.word, .eorWToEa 1 (.ind 0)), (.long, .eorLToEa 1 (.ind 0))],
    p ∈ [(Size.byte, Instr.eorBToEa 1 (.ind 0)), (.word, .eorWToEa 1 (.ind 0)), (.long, .eorLToEa 1 (.ind 0))]
    ∧ eaLoc (.ind 0) p.1 (memState.pc + 2#32) memState = .mem 0x2000#32 .data ∧ memState.busWrites = []
    ∧ alignedFor p.1 0x2000#32 ∧ memState.readsPlain 0x2000#32 p.1.bytes .data
    ∧ memState.writesPlain 0x2000#32 p.1.bytes
    ∧ (Size.byte, Instr.eorBToEa 0 (.dreg 1)) ∈ [(Size.byte, Instr.eorBToEa 0 (.dreg 1)), (.word, .eorWToEa 0 (.dreg 1)),
      (.long, .eorLToEa 0 (.dreg 1))] := by
  decide +kernel

theorem test_witness_AndiResult : ∀ p ∈ [(Size.byte, Instr.andiB 3#8 (.ind 0), 3#32), (.word, .andiW 3#16 (.ind 0), 3#32),
      (.long, .andiL 3#32 (.ind 0), 3#32)],
    p ∈ [(Size.byte, Instr.andiB 3#8 (.ind 0), 3#32), (.word, .andiW 3#16 (.ind 0), 3#32),
      (.long, .andiL 3#32 (.ind 0), 3#32)]
    ∧ eaLoc (.ind 0) p.1 (memState.pc + 2#32 + BitVec.ofNat 32 (immBytes p.1)) memState = .mem 0x2000#32 .data ∧ memState.busWrites = []
    ∧ alignedFor p.1 0x2000#32 ∧ memState.readsPlain 0x2000#32 p.1.bytes .data
    ∧ memState.writesPlain 0x2000#32 p.1.bytes
    ∧ (Size.byte, Instr.andiB 3#8 (.dreg 1), 3#32) ∈ [(Size.byte, Instr.andiB 3#8 (.dreg 1), BitVec.setWidth 32 3#8),
      (.word, .andiW 3#16 (.dreg 1), BitVec.setWidth 32 3#16), (.long, .andiL 3#32 (.dreg 1), 3#32)] := by
  decide +kernel

theorem test_witness_EoriResult : ∀ p ∈ [(Size.byte, Instr.eoriB 3#8 (.ind 0), 3#32), (.word, .eoriW 3#16 (.ind 0), 3#32),
      (.long, .eoriL 3#32 (.ind 0), 3#32)],
    p ∈ [(Size.byte, Instr.eoriB 3#8 (.ind 0), 3#32), (.word, .eoriW 3#16 (.ind 0), 3#32),
      (.long, .eoriL 3#32 (.ind 0), 3#32)]
    ∧ eaLoc (.ind 0) p.1 (memState.pc + 2#32 + BitVec.ofNat 32 (immBytes p.1)) memState = .mem 0x2000#32 .data ∧ memState.busWrites = []
    ∧ alignedFor p.1 0x2000#32 ∧ memState.readsPlain 0x2000#32 p.1.bytes .data
    ∧ memState.writesPlain 0x2000#32 p.1.bytes
    ∧ (Size.byte, Instr.eoriB 3#8 (.dreg 1), 3#32) ∈ [(Size.byte, Instr.eoriB 3#8 (.dreg 1), BitVec.setWidth 32 3#8),
      (.word, .eoriW 3#16 (.dreg 1), BitVec.setWidth 32 3#16), (.long, .eoriL 3#32 (.dreg 1), 3#32)] := by
  decide +kernel

theorem test_witness_OriResult : ∀ p ∈ [(Size.byte, Instr.oriB 3#8 (.ind 0), 3#32), (.word, .oriW 3#16 (.ind 0), 3#32),
      (.long, .oriL 3#32 (.ind 0), 3#32)],
    p ∈ [(Size.byte, Instr.oriB 3#8 (.ind 0), 3#32), (.word, .oriW 3#16 (.ind 0), 3#32),
      (.long, .oriL 3#32 (.ind 0), 3#32)]
    ∧ eaLoc (.ind 0) p.1 (memState.pc + 2#32 + BitVec.ofNat 32 (immBytes p.1)) memState = .mem 0x2000#32 .data ∧ memState.busWrites = []
    ∧ alignedFor p.1 0x2000#32 ∧ memState.readsPlain 0x2000#32 p.1.bytes .data
    ∧ memState.writesPlain 0x2000#32 p.1.bytes
    ∧ (Size.byte, Instr.oriB 3#8 (.dreg 1), 3#32) ∈ [(Size.byte, Instr.oriB 3#8 (.dreg 1), BitVec.setWidth 32 3#8),
      (.word, .oriW 3#16 (.dreg 1), BitVec.setWidth 32 3#16), (.long, .oriL 3#32 (.dreg 1), 3#32)] := by
  decide +kernel

theorem test_witness_NotResult : ∀ p ∈ [(Size.byte, Instr.notB (.ind 0)), (.word, .notW (.ind 0)), (.long, .notL (.ind 0))],
    p ∈ [(Size.byte, Instr.notB (.ind 0)), (.word, .notW (.ind 0)), (.long, .notL (.ind 0))]
    ∧ eaLoc (.ind 0) p.1 (memState.pc + 2#32) memState = .mem 0x2000#32 .data ∧ memState.busWrites = []
    ∧ alignedFor p.1 0x2000#32 ∧ memState.readsPlain 0x2000#32 p.1.bytes .data
    ∧ memState.writesPlain 0x2000#32 p.1.bytes
    ∧ (Size.byte, Instr.notB (.dreg 1)) ∈ [(Size.byte, Instr.notB (.dreg 1)), (.word, .notW (.dreg 1)),
      (.long, .notL (.dreg 1))] := by
  decide +kernel

theorem test_witness_ImmediateSourceEqualsImmediateForm :
    (Instr.andBToReg 0 (.imm (BitVec.setWidth 32 0xF0#8)), Instr.andiB 0xF0#8 (.dreg 0))
      ∈ [(Instr.andBToReg 0 (.imm (BitVec.setWidth 32 0xF0#8)), Instr.andiB 0xF0#8 (.dreg 0)),
        (.andWToReg 0 (.imm (BitVec.setWidth 32 0xF0#16)), .andiW 0xF0#16 (.dreg 0)),
        (.andLToReg 0 (.imm 0xF0#32), .andiL 0xF0#32 (.dreg 0)),
        (.orBToReg 0 (.imm (BitVec.setWidth 32 0xF0#8)), .oriB 0xF0#8 (.dreg 0)),
        (.orWToReg 0 (.imm (BitVec.setWidth 32 0xF0#16)), .oriW 0xF0#16 (.dreg 0)),
        (.orLToReg 0 (.imm 0xF0#32), .oriL 0xF0#32 (.dreg 0))] := by
  decide

theorem test_witness_EoriOfOnesIsNot :
    (Instr.eoriB 0xFF#8 (.dreg 0), Instr.notB (.dreg 0)) ∈ [(Instr.eoriB 0xFF#8 (.dreg 0), Instr.notB (.dreg 0)),
      (.eoriW 0xFFFF#16 (.dreg 0), .notW (.dreg 0)), (.eoriL 0xFFFFFFFF#32 (.dreg 0), .notL (.dreg 0))]
    ∧ (∃ t, exec (.eoriB 0xFF#8 (.dreg 0)) memState = .next t) ∧ ∃ u, exec (.notB (.dreg 0)) memState = .next u :=
  ⟨by decide, ⟨_, rfl⟩, _, rfl⟩

theorem test_witness_ShortFrameEntry : userState.canEnter 6 4#8 :=
  canEnter_of_noRegion _ _ _ rfl rfl (by decide +kernel)

theorem test_witness_LongFrameEntry : userState.canEnter 14 3#8 ∧ userState.canEnter 14 2#8 :=
  ⟨canEnter_of_noRegion _ _ _ rfl rfl (by decide +kernel), canEnter_of_noRegion _ _ _ rfl rfl (by decide +kernel)⟩

theorem test_witness_OddOperandTakesAddressError :
    operandOf (.notW (.postinc 0)) = some (.word, .postinc 0, 2) ∧ Size.word ≠ .byte
    ∧ eaLoc (.postinc 0) .word (oddState.pc + BitVec.ofNat 32 2) oddState = .mem 0x2001#32 .data
    ∧ (0x2001#32 : Addr).getLsbD 0 = true ∧ oddState.canEnter 14 3#8
    ∧ (eaStep (.postinc 0) .word oddState).canEnter 14 3#8 :=
  ⟨rfl, by decide, by decide +kernel, by decide, canEnter_of_noRegion _ _ _ rfl rfl (by decide +kernel),
    canEnter_of_noRegion _ _ _ rfl rfl (by decide +kernel)⟩

/-- A read that faults at the first byte of a long and at the last. -/
theorem test_witness_FaultingOperandTakesBusError : ∀ k ∈ [0, 3],
    operandOf (.notL (.postinc 0)) = some (.long, .postinc 0, 2) ∧ alignedFor .long 0x2000#32 ∧ k < Size.long.bytes
    ∧ eaLoc (.postinc 0) .long ((mapState true false .fault).pc + BitVec.ofNat 32 2) (mapState true false .fault)
        = .mem 0x2000#32 .data
    ∧ (mapState true false .fault).mapAt (0x2000#32 + BitVec.ofNat 32 k) false .data = .fault
    ∧ (mapState true false .fault).canEnter 14 2#8
    ∧ (eaStep (.postinc 0) .long (mapState true false .fault)).canEnter 14 2#8 := by
  unfold State.canEnter
  decide +kernel

/-- A long the map faults at its first byte and at its last, and a word. -/
theorem test_witness_FaultingWriteTakesBusError : (∀ k ∈ [0, 3],
    operandOf (.notL (.postinc 0)) = some (.long, .postinc 0, 2) ∧ destReg (.notL (.postinc 0)) = none
    ∧ alignedFor .long 0x2000#32 ∧ k < Size.long.bytes
    ∧ eaLoc (.postinc 0) .long ((mapState false true .fault).pc + BitVec.ofNat 32 2) (mapState false true .fault)
        = .mem 0x2000#32 .data
    ∧ (mapState false true .fault).readsPlain 0x2000#32 Size.long.bytes .data
    ∧ (mapState false true .fault).mapAt (0x2000#32 + BitVec.ofNat 32 k) true .data = .fault
    ∧ (mapState false true .fault).canEnter 14 2#8
    ∧ (eaStep (.postinc 0) .long (mapState false true .fault)).canEnter 14 2#8)
    ∧ ∀ k ∈ [0, 1],
    operandOf (.notW (.postinc 0)) = some (.word, .postinc 0, 2) ∧ destReg (.notW (.postinc 0)) = none
    ∧ alignedFor .word 0x2000#32 ∧ k < Size.word.bytes
    ∧ eaLoc (.postinc 0) .word ((mapState false true .fault).pc + BitVec.ofNat 32 2) (mapState false true .fault)
        = .mem 0x2000#32 .data
    ∧ (mapState false true .fault).readsPlain 0x2000#32 Size.word.bytes .data
    ∧ (mapState false true .fault).mapAt (0x2000#32 + BitVec.ofNat 32 k) true .data = .fault
    ∧ (mapState false true .fault).canEnter 14 2#8
    ∧ (eaStep (.postinc 0) .word (mapState false true .fault)).canEnter 14 2#8 := by
  unfold State.canEnter
  exact ⟨by decide +kernel, by decide +kernel⟩

/-- Vector 8 at 0x20 faults, at its first byte and at its last. -/
theorem test_witness_FaultInShortEntryBecomesBusError : ∀ k ∈ [0, 3],
    let s : State := { userState with memMap := [{ base := 0x20, size := 4, reads := true, writes := true, data := true, prog := true, user := true, supervisor := true, answer := .fault }] }
    s.busWrites = [] ∧ s.ssp.getLsbD 0 = false ∧ s.enterSupervisor.writesPlain (s.ssp - 20#32) 20 ∧ k < 4
    ∧ s.enterSupervisor.mapAt ((BitVec.setWidth 32 8#8 <<< 2) + BitVec.ofNat 32 k) false .data = .fault
    ∧ s.enterSupervisor.readsPlain 8#32 4 .data := by
  decide +kernel

/-- SSP odd; a frame, a vector and the reset vectors faulted at their first byte and at their last. -/
theorem test_witness_DoubleFaultHalts : { memState with ssp := 0x7FFF#32 : State }.ssp.getLsbD 0 = true
    ∧ (∀ k ∈ [0, 13], { memState with memMap := [{ base := 0x7FF2, size := 14, reads := true, writes := true, data := true, prog := true, user := true, supervisor := true, answer := .fault }] : State }.enterSupervisor.mapAt
        (memState.ssp - 14#32 + BitVec.ofNat 32 k) true .data = .fault)
    ∧ (∀ k ∈ [0, 3], { memState with memMap := [{ base := 0x8, size := 8, reads := true, writes := true, data := true, prog := true, user := true, supervisor := true, answer := .fault }] : State }.enterSupervisor.mapAt
        ((BitVec.setWidth 32 3#8 <<< 2) + BitVec.ofNat 32 k) false .data = .fault)
    ∧ ∀ k ∈ [0, 7], { memState with memMap := [{ base := 0, size := 8, reads := true, writes := true, data := true, prog := true, user := true, supervisor := true, answer := .fault }] : State }.enterSupervisor.mapAt
        (BitVec.ofNat 32 k) false .prog = .fault := by
  decide +kernel

/-- One halted machine that no reset comes to, and one that a reset comes to. -/
theorem test_witness_OnlyResetLeavesHalted :
    { memState with run := .halted : State }.run = .halted
    ∧ (∀ x ∈ { memState with run := .halted, inputs := [quietSample] : State }.inputs, x.reset = false ∧ x.abort = false)
    ∧ ∃ t, step { memState with run := .halted, inputs := [quietSample, { reset := true, level := 0#3, vector := .auto }] }
        = .next t ∧ [quietSample, ⟨true, 0#3, .auto, false⟩] = [quietSample] ++ ⟨true, 0#3, .auto, false⟩ :: [] :=
  ⟨rfl, by decide, _, rfl, rfl⟩

/-- The traced `ANDI #0,CCR` of AI13, which leaves a trace due, and the untraced one of AI9, which does not. -/
theorem test_witness_TraceFollowsTracedInstruction : ∀ p ∈ [(0xA71F#16, true), (0x271F#16, false)],
    (start [0x023C#16, 0x0000#16] p.1 0x2000 []).readyToFetch
    ∧ decodeWords ((start [0x023C#16, 0x0000#16] p.1 0x2000 []).wordsAt 0x1000#32 5)
        = .ok (.andiCcr 0#8, [0#16, 0#16, 0#16])
    ∧ (start [0x023C#16, 0x0000#16] p.1 0x2000 []).readsPlain 0x1000#32 4 .prog
    ∧ ∃ t, exec (.andiCcr 0#8) (start [0x023C#16, 0x0000#16] p.1 0x2000 []).afterSample = .next t
        ∧ t.tracePending = p.2 ∧ t.canEnter 6 9#8 := by
  unfold State.readyToFetch
  simp only [List.mem_cons, List.not_mem_nil, or_false, forall_eq_or_imp, forall_eq]
  exact ⟨⟨by decide +kernel, by decide +kernel, readsPlain_of_noRegion _ _ _ _ rfl, _, rfl, by decide +kernel,
      canEnter_of_noRegion _ _ _ rfl rfl (by decide +kernel)⟩,
    by decide +kernel, by decide +kernel, readsPlain_of_noRegion _ _ _ _ rfl, _, rfl, by decide +kernel,
      canEnter_of_noRegion _ _ _ rfl rfl (by decide +kernel)⟩


/-- The traced instruction with a reset at the boundary it reaches. -/
theorem test_witness_TraceFollowsTracedInstruction_reset : ∃ t,
    exec (.andiCcr 0#8) { start [0x023C#16, 0x0000#16] 0xA71F#16 0x2000 [] with
      inputs := [quietSample, { reset := true, level := 0#3, vector := .auto }] : State }.afterSample = .next t
    ∧ t.tracePending = true ∧ t.sample.reset = true := ⟨_, rfl, by decide +kernel, by decide +kernel⟩

/-- A request one above the mask, and a level 7 at mask 7 that was not there before. -/
theorem test_witness_InterruptIsTakenAtBoundary : ∀ s ∈ [requestState 0x2300#16 4#3, requestState 0x2700#16 7#3],
    s.run = .running ∧ s.tracePending = false ∧ s.noReset
    ∧ (s.mask < s.sample.level ∨ (s.sample.level = 7#3 ∧ s.irqLevel < 7#3))
    ∧ s.canEnter 6 (s.sample.vector.number s.sample.level) := by
  simp only [List.mem_cons, List.not_mem_nil, or_false, forall_eq_or_imp, forall_eq]
  exact ⟨⟨rfl, rfl, ⟨rfl, rfl⟩, by decide +kernel, canEnter_of_noRegion _ _ _ rfl rfl (by decide +kernel)⟩,
    rfl, rfl, ⟨rfl, rfl⟩, by decide +kernel, canEnter_of_noRegion _ _ _ rfl rfl (by decide +kernel)⟩

theorem test_witness_ReturnUndoesShortEntry : userState.canEnter 6 8#8
    ∧ userState.enterSupervisor.readsPlain (userState.ssp - 6#32) 6 .data :=
  ⟨canEnter_of_noRegion _ _ _ rfl rfl (by decide +kernel), readsPlain_of_noRegion _ _ _ _ rfl⟩

theorem test_witness_ResetSequenceLoadsVectors : userState.busWrites = []
    ∧ userState.enterSupervisor.readsPlain 0#32 8 .prog
    ∧ ∀ r ∈ [RunState.running, .stopped],
      let s : State := { userState with run := r, inputs := [{ reset := true, level := 0#3, vector := .auto }] }
      s.run ≠ .halted ∧ s.sample.reset = true :=
  ⟨rfl, readsPlain_of_noRegion _ _ _ _ rfl, by decide⟩

/-- `NOT.W D0`, cut short. -/
theorem test_witness_ResetAbortsStep :
    let s : State := { start [0x4640#16] 0x2700#16 0x2000 [] with
      inputs := [{ reset := false, level := 0#3, vector := .auto, abort := true }] }
    s.run ≠ .halted ∧ s.tracePending = false ∧ s.sample.reset = false ∧ s.sample.abort = true
    ∧ ∃ t, step { s with inputs := { s.sample with abort := false } :: s.inputs.drop 1 } = .next t :=
  ⟨by decide +kernel, rfl, rfl, rfl, _, rfl⟩

theorem test_witness_StepRunsDecodedInstruction :
    (start [0xC270#16, 0x1002#16] 0x2700#16 0x2000 []).readyToFetch
    ∧ decodeWords ((start [0xC270#16, 0x1002#16] 0x2700#16 0x2000 []).wordsAt 0x1000#32 5)
        = .ok (.andWToReg 1 (.index 0 { isAddr := false, reg := 1, isLong := false, disp := 2#8 }), [0#16, 0#16, 0#16])
    ∧ (start [0xC270#16, 0x1002#16] 0x2700#16 0x2000 []).readsPlain 0x1000#32 4 .prog := by
  unfold State.readyToFetch
  exact ⟨by decide +kernel, by decide +kernel, readsPlain_of_noRegion _ _ _ _ rfl⟩

theorem test_witness_IllegalWordTakesVectorFour : (start [0x4648#16] 0x0000#16 0x2000 []).readyToFetch
    ∧ (start [0x4648#16] 0x0000#16 0x2000 []).readsPlain 0x1000#32 2 .prog
    ∧ illegalPattern 0x4648#16
    ∧ wordAt (start [0x4648#16] 0x0000#16 0x2000 []) 0x1000#32 = 0x4648#16
    ∧ (start [0x4648#16] 0x0000#16 0x2000 []).canEnter 6 4#8 := by
  unfold State.readyToFetch
  refine ⟨by decide +kernel, readsPlain_of_noRegion _ _ _ _ rfl, ?_, by decide +kernel,
    canEnter_of_noRegion _ _ _ rfl rfl (by decide +kernel)⟩
  exact .inr (.inr (.inr (.inr (.inr (.inl ⟨⟨by decide, by decide⟩, by decide⟩)))))

/-- NOP's word. -/
theorem test_witness_OutOfScopeWordIsRefused : (start [0x4E71#16] 0x2700#16 0x2000 []).readyToFetch
    ∧ (start [0x4E71#16] 0x2700#16 0x2000 []).readsPlain 0x1000#32 2 .prog
    ∧ wordAt (start [0x4E71#16] 0x2700#16 0x2000 []) 0x1000#32 = 0x4E71#16
    ∧ ¬ illegalPattern 0x4E71#16 ∧ ∀ i : Instr, i.wf = true → opWord i ≠ 0x4E71#16 := by
  unfold State.readyToFetch
  refine ⟨by decide +kernel, readsPlain_of_noRegion _ _ _ _ rfl, by decide +kernel, ?_, fun i hw h => ?_⟩
  · simp [illegalPattern, immediateGroup, notGroup, toRegGroup, toEaGroup]
  · have field (ea : Ea) : ea.field < 64 := by
      cases ea <;> simp only [Ea.field, Ea.modeReg] <;> omega
    have e := congrArg BitVec.toNat h
    clear h hw
    cases i <;> rename_i ea <;> (try have f := field ea) <;>
      simp only [opWord, Instr.shape, Shape.opWord, LogicOp.immBase, LogicOp.lineBase, Size.code, BitVec.toNat_ofNat] at e <;>
      omega

theorem test_witness_FetchFaultsTakeGroupZero :
    (∀ s ∈ [oddPcState 0x2700#16, oddPcState 0x0000#16], s.undisturbed ∧ s.pc.getLsbD 0 = true ∧ s.canEnter 14 3#8)
    ∧ (∀ p ∈ [(0x1000, 0), (0x1000, 1), (0x1002, 2), (0x1002, 3)],
      let s : State := { start [0x023C#16, 0x0000#16] 0x2700#16 0x2000 [] with
        memMap := [{ base := p.1, size := 2, reads := true, writes := false, data := false, prog := true, user := true, supervisor := true, answer := .fault }] }
      s.undisturbed ∧ s.busWrites = [] ∧ s.held = [] ∧ s.pc.getLsbD 0 = false
      ∧ s.mapAt (s.pc + BitVec.ofNat 32 p.2) false .prog = .fault
      ∧ s.readsPlain s.pc (p.1 - 0x1000) .prog
      ∧ wordAt s s.pc = opWord (.andiCcr 0#8) ∧ s.canEnter 14 2#8)
    ∧ (Instr.andiCcr 0#8).wf = true ∧ (∀ o data, (Instr.andiCcr 0#8).shape = .toSr o data → False)
    ∧ 2 * 1 < instrLength (.andiCcr 0#8) := by
  unfold State.canEnter
  exact ⟨by decide +kernel, by decide +kernel, by decide, fun _ _ h => Shape.noConfusion h, by decide⟩

theorem test_witness_DecodeOfEncode :
    (Instr.andiL 0x0000FFFF#32 (.absLong 0x12345678#32)).wf = true ∧ (Instr.orLToReg 7 (.imm 0x80000000#32)).wf = true := by
  decide

theorem test_witness_DecodedInstructionIsWellFormed : decodeWords (0xC270#16 :: [0x1002#16, 0x1234#16])
    = .ok (.andWToReg 1 (.index 0 { isAddr := false, reg := 1, isLong := false, disp := 2#8 }), [0x1234#16]) := by
  decide +kernel

theorem test_witness_LengthFromOperationWord : (Instr.notW (.absShort 1#16)).wf = true
    ∧ (Instr.notW (.absShort 2#16)).wf = true ∧ opWord (.notW (.absShort 1#16)) = opWord (.notW (.absShort 2#16)) := by
  decide

theorem test_witness_OnlyDestinationDataRegisterChanges :
    (∃ t, exec (.andBToReg 1 (.ind 0)) memState = .next t) ∧ destReg (.andBToReg 1 (.ind 0)) ≠ some 0 :=
  ⟨⟨_, rfl⟩, by decide⟩

theorem test_witness_OnlySteppedAddressRegisterChanges :
    (∃ t, exec (.notL (.postinc 6)) memState = .next t) ∧ (6 : Fin 8).val < 7 := ⟨⟨_, rfl⟩, by decide⟩

/-- Supervisor mode, user mode, and user mode left by a privilege violation. -/
theorem test_witness_BankedStackPointerIsKept :
    (memState.super = true ∧ ∃ t, exec (.notL (.postinc 7)) memState = .next t)
    ∧ (userState.super = false ∧ ∃ t, exec (.notL (.postinc 7)) userState = .next t ∧ t.super = false)
    ∧ ∃ t, exec (.oriSr 0#16) userState = .next t ∧ t.super = true :=
  ⟨⟨by decide +kernel, _, rfl⟩, ⟨by decide +kernel, _, rfl, by decide +kernel⟩, _, rfl, by decide +kernel⟩

theorem test_witness_PlatformInputsAreKept : ∃ t, exec (.notL (.postinc 7)) memState = .next t := ⟨_, rfl⟩

theorem test_witness_UserModeKeepsSystemByte : userState.super = false
    ∧ ∃ t, exec (.eoriCcr 0xFF#8) userState = .next t ∧ t.super = false :=
  ⟨by decide +kernel, _, rfl, by decide +kernel⟩

theorem test_witness_StepKeepsInvariant : (start [0x4640#16] 0x2700#16 0x2000 []).Inv
    ∧ ∃ t, step (start [0x4640#16] 0x2700#16 0x2000 []) = .next t :=
  ⟨⟨by decide +kernel, by decide +kernel, by decide +kernel, rfl, by decide, by decide⟩, _, rfl⟩

/-- A run that is over at once, one that takes a step, AE9, which halts, NOP, which is refused, and one that is Stopped. -/
theorem test_witness_RunEndsAtEndPc : memState.final 0x1000#32 = true
    ∧ (let s : State := { (start [0x4650#16] 0x2700#16 0x2000 []).setA 0 0x2001#32 with ssp := 0x7FFF#32 }
      s.run ≠ .halted ∧ s.final 0x1002#32 = false ∧ ∃ t, step s = .next t ∧ t.run = .halted)
    ∧ (let s : State := start [0x4E71#16] 0x2700#16 0x2000 []
      s.run ≠ .halted ∧ s.final 0x1002#32 = false ∧ ∃ r, step s = .refused r ∧ runUntil 0x1002#32 1 s = .refused r)
    ∧ (∃ f, runUntil 0x1002#32 1 { memState with run := .stopped } = .stuck f)
    ∧ (∃ t, runUntil 0x1000#32 0 memState = .final t)
    ∧ (match runUntil 0x1002#32 1 (start [0x4640#16] 0x2700#16 0x2000 []) with
        | .final _ => true
        | _ => false) = true := by
  exact ⟨by decide +kernel, ⟨by decide +kernel, by decide +kernel, _, rfl, by decide +kernel⟩,
    ⟨by decide +kernel, by decide +kernel, _, rfl, rfl⟩, ⟨_, rfl⟩, ⟨_, rfl⟩, by decide +kernel⟩

end Sys2Proof.Tests
end

section
/-! PROOFS. The state (10_state.md): what an instruction's work on its operand can change, everything an instruction can end in
(`ExecEnd`), and from these the frames of the registers, of SR and of the platform's inputs. -/

namespace Sys2Proof.Machine

/-! ### Bits of the status register -/

/-- What two words have in common under a mask they have in common under a smaller one. -/
theorem and_eq_of_and_eq {x y m : Word} (n : Word) (h : x &&& m = y &&& m) (hn : m &&& n = n) :
    x &&& n = y &&& n := by
  rw [← hn, ← BitVec.and_assoc, h, BitVec.and_assoc]

/-- A word keeps to `SR_IMPL_MASK` exactly if the six not-implemented bits are 0 (R27). -/
theorem and_srImplMask_eq_self_iff (x : Word) : x &&& srImplMask = x ↔ x &&& 0x58E0#16 = 0#16 := by
  constructor
  · intro h
    rw [← h, srImplMask, BitVec.and_assoc]
    exact BitVec.and_zero
  · intro h
    calc x &&& srImplMask = (x &&& srImplMask) ||| (x &&& 0x58E0#16) := by rw [h, BitVec.or_zero]
      _ = x &&& (srImplMask ||| 0x58E0#16) := BitVec.and_or_distrib_left.symm
      _ = x := BitVec.and_allOnes

/-- The not-implemented bits stay 0 where only the five flags change (R25, R27). -/
theorem reserved_of_system_eq {x y : Word} (h : x &&& 0xFFE0#16 = y &&& 0xFFE0#16) (hy : y &&& srImplMask = y) :
    x &&& srImplMask = x := by
  rw [and_srImplMask_eq_self_iff] at hy ⊢
  rw [and_eq_of_and_eq 0x58E0#16 h rfl, hy]

/-- S is one of the bits of the system byte. -/
theorem super_of_system_eq {s t : State} (h : t.sr &&& 0xFFE0#16 = s.sr &&& 0xFFE0#16) : t.super = s.super := by
  have bit := congrArg (fun w : Word => w.getLsbD 13) h
  simpa [State.super] using bit

/-- A write of the CCR stores the five flags (R25). -/
theorem writeCcr_sr_flags (s : State) (v : Byte) :
    (s.writeCcr v).sr &&& 0x001F#16 = v.setWidth 16 &&& 0x001F#16 := by
  rw [State.writeCcr, BitVec.and_or_distrib_right]
  simp [BitVec.and_assoc]

/-- A write of the CCR keeps the system byte and the not-implemented bits (R25, R27). -/
theorem writeCcr_sr_system (s : State) (v : Byte) : (s.writeCcr v).sr &&& 0xFFE0#16 = s.sr &&& 0xFFE0#16 := by
  rw [State.writeCcr, BitVec.and_or_distrib_right]
  simp [BitVec.and_assoc]

/-- The flag rule keeps X and SR[15:5] (R139). -/
theorem logicFlags_sr_upper (sz : Size) (r : Long) (s : State) :
    (logicFlags sz r s).sr &&& 0xFFF0#16 = s.sr &&& 0xFFF0#16 := by
  have low : flagsNZ sz r &&& 0xFFF0#16 = 0#16 := by
    unfold flagsNZ
    split <;> split <;> rfl
  rw [logicFlags_sr, BitVec.and_or_distrib_right, low, BitVec.or_zero, BitVec.and_assoc, BitVec.and_self]

/-- A fault at the write leaves X and SR[15:5] (R140, U6). -/
theorem keepOrUndoFlags_sr_upper (s u : State) :
    (keepOrUndoFlags s u).sr &&& 0xFFF0#16 = u.sr &&& 0xFFF0#16 := by
  obtain ⟨w, k, e⟩ := keepOrUndoFlags_eq s u
  have low : w &&& 0x000F#16 &&& 0xFFF0#16 = 0#16 := by
    rw [BitVec.and_assoc]
    exact BitVec.and_zero
  rw [e, BitVec.and_or_distrib_right, low, BitVec.or_zero, BitVec.and_assoc, BitVec.and_self]

/-! ### Address registers and stack pointers -/

theorem aReg_of_lt (s : State) (n : Fin 8) (h : n.val < 7) : s.aReg n = s.a[n.val] := dif_pos h

/-- A0 to A6 do not depend on the mode. -/
theorem aReg_congr {s t : State} (h : t.a = s.a) (n : Fin 8) (hn : n.val < 7) : t.aReg n = s.aReg n := by
  rw [aReg_of_lt t n hn, aReg_of_lt s n hn]
  simp only [h]

/-- A write of an address register leaves A0 to A6 but for itself (R21). -/
theorem setA_aReg_other (s : State) (n m : Fin 8) (v : Long) (hm : m.val < 7) (h : n ≠ m) :
    (s.setA n v).aReg m = s.aReg m := by
  have hv : n.val ≠ m.val := fun e => h (Fin.ext e)
  rw [aReg_of_lt _ m hm, aReg_of_lt s m hm]
  unfold State.setA
  split
  · rename_i hn
    exact Vector.getElem_set_ne hn hm hv
  · split <;> rfl

/-- In supervisor mode no write of an address register reaches USP (R22). -/
theorem setA_usp_of_super (s : State) (n : Fin 8) (v : Long) (h : s.super = true) : (s.setA n v).usp = s.usp := by
  unfold State.setA
  split
  · rfl
  · rfl

/-- In user mode no write of an address register reaches SSP (R22). -/
theorem setA_ssp_of_user (s : State) (n : Fin 8) (v : Long) (h : s.super = false) : (s.setA n v).ssp = s.ssp := by
  unfold State.setA
  split
  · rfl
  · simp only [h, Bool.false_eq_true, if_false]

/-- The side effect of an operand leaves A0 to A6 but for the register it steps (R124, R125). -/
theorem eaStep_aReg_other (ea : Ea) (sz : Size) (s : State) (n : Fin 8) (hn : n.val < 7)
    (h : steppedReg ea ≠ some n) : (eaStep ea sz s).aReg n = s.aReg n := by
  cases ea
  case postinc m => exact setA_aReg_other s m n _ hn fun e => h (congrArg some e)
  case predec m => exact setA_aReg_other s m n _ hn fun e => h (congrArg some e)
  all_goals rfl

theorem eaStep_usp_of_super (ea : Ea) (sz : Size) (s : State) (h : s.super = true) :
    (eaStep ea sz s).usp = s.usp := by
  cases ea
  case postinc n => exact setA_usp_of_super s n _ h
  case predec n => exact setA_usp_of_super s n _ h
  all_goals rfl

theorem eaStep_ssp_of_user (ea : Ea) (sz : Size) (s : State) (h : s.super = false) :
    (eaStep ea sz s).ssp = s.ssp := by
  cases ea
  case postinc n => exact setA_ssp_of_user s n _ h
  case predec n => exact setA_ssp_of_user s n _ h
  all_goals rfl

/-- The registers that an address register number can name are the same in two states (R21, R22). -/
structure SameAddressRegs (s t : State) : Prop where
  a : t.a = s.a
  usp : t.usp = s.usp
  ssp : t.ssp = s.ssp

/-- In one mode, the same write keeps them the same. -/
theorem SameAddressRegs.setA {s t : State} (h : SameAddressRegs s t) (hm : t.super = s.super) (n : Fin 8) (v : Long) :
    SameAddressRegs (s.setA n v) (t.setA n v) := by
  unfold State.setA
  rw [hm]
  split
  · exact ⟨congrArg (fun a => a.set n.val v) h.a, h.usp, h.ssp⟩
  · split
    · exact ⟨h.a, h.usp, rfl⟩
    · exact ⟨h.a, rfl, h.ssp⟩

/-- Writing the old value into the register an operand steps undoes the step (R140, U5). -/
theorem eaStep_undo (ea : Ea) (sz : Size) (s : State) (n : Fin 8) (h : ea = .postinc n ∨ ea = .predec n) :
    (eaStep ea sz s).setA n (s.aReg n) = s := by
  rcases h with rfl | rfl
  · exact (s.setA_setA n _ _).trans (s.setA_aReg n)
  · exact (s.setA_setA n _ _).trans (s.setA_aReg n)

/-! ### What an instruction does before it ends -/

/-- What the operand's accesses, the flags and the result of `i` may have changed of `s`, before the instruction completes
or its exception is entered: no data register but the destination, the address registers by the operand's step or not at
all, the four low bits of SR, and what bus cycles may change. -/
structure OperandStep (i : Instr) (ea : Ea) (sz : Size) (s u : State) : Prop where
  d : ∀ n, destReg i ≠ some n → u.dReg n = s.dReg n
  regs : SameAddressRegs (eaStep ea sz s) u ∨ SameAddressRegs s u
  sr : u.sr &&& 0xFFF0#16 = s.sr &&& 0xFFF0#16
  run : u.run = s.run
  irqLevel : u.irqLevel = s.irqLevel
  addrBits : u.addrBits = s.addrBits
  memMap : u.memMap = s.memMap
  inputs : u.inputs = s.inputs
  cells : s.CellsOk → u.CellsOk

section
variable {i : Instr} {ea : Ea} {sz : Size} {s u v : State}

theorem OperandStep.start : OperandStep i ea sz s (eaStep ea sz s) :=
  ⟨fun n _ => eaStep_dReg s ea sz n, .inl ⟨rfl, rfl, rfl⟩, by rw [eaStep_sr], eaStep_run s ea sz,
    eaStep_irqLevel s ea sz, eaStep_addrBits s ea sz, eaStep_memMap s ea sz, eaStep_inputs s ea sz,
    fun c => by simpa [State.CellsOk, State.physBits] using c⟩

theorem OperandStep.bus (h : OperandStep i ea sz s u) (b : BusStep u v) : OperandStep i ea sz s v :=
  ⟨fun n hn => by rw [State.dReg, b.d]; exact h.d n hn,
    h.regs.imp (fun k => ⟨b.a.trans k.a, b.usp.trans k.usp, b.ssp.trans k.ssp⟩)
      (fun k => ⟨b.a.trans k.a, b.usp.trans k.usp, b.ssp.trans k.ssp⟩),
    by rw [b.sr]; exact h.sr, b.run.trans h.run, b.irqLevel.trans h.irqLevel, b.addrBits.trans h.addrBits,
    b.memMap.trans h.memMap, b.inputs.trans h.inputs, fun c => b.cells (h.cells c)⟩

theorem OperandStep.logicFlags (h : OperandStep i ea sz s u) (z : Size) (r : Long) :
    OperandStep i ea sz s (logicFlags z r u) :=
  ⟨h.d, h.regs.imp (fun k => ⟨k.a, k.usp, k.ssp⟩) (fun k => ⟨k.a, k.usp, k.ssp⟩),
    (logicFlags_sr_upper z r u).trans h.sr, h.run, h.irqLevel, h.addrBits, h.memMap, h.inputs, h.cells⟩

theorem OperandStep.keepOrUndoFlags (h : OperandStep i ea sz s u) :
    OperandStep i ea sz s (keepOrUndoFlags s u) :=
  ⟨h.d, h.regs.imp (fun k => ⟨k.a, k.usp, k.ssp⟩) (fun k => ⟨k.a, k.usp, k.ssp⟩),
    (keepOrUndoFlags_sr_upper s u).trans h.sr, h.run, h.irqLevel, h.addrBits, h.memMap, h.inputs, h.cells⟩

theorem OperandStep.setD (h : OperandStep i ea sz s u) (z : Size) (n : Fin 8) (r : Long) (hd : destReg i = some n) :
    OperandStep i ea sz s (u.setD z n r) :=
  ⟨fun m hm => (u.setD_dReg_other z n m r fun e => hm (e ▸ hd)).trans (h.d m hm),
    h.regs.imp (fun k => ⟨k.a, k.usp, k.ssp⟩) (fun k => ⟨k.a, k.usp, k.ssp⟩),
    h.sr, h.run, h.irqLevel, h.addrBits, h.memMap, h.inputs, h.cells⟩

/-- The system byte and the not-implemented bits of SR are as they were. -/
theorem OperandStep.system (h : OperandStep i ea sz s u) : u.sr &&& 0xFFE0#16 = s.sr &&& 0xFFE0#16 :=
  and_eq_of_and_eq 0xFFE0#16 h.sr rfl

theorem OperandStep.super (h : OperandStep i ea sz s u) : u.super = s.super := super_of_system_eq h.system

/-- Undoing the operand's step after a fault, or keeping it (R140, U5). -/
theorem OperandStep.keepOrUndoStep (h : OperandStep i ea sz s u) :
    OperandStep i ea sz s (keepOrUndoStep ea s u) := by
  obtain ⟨k, e | ⟨n, hn, e⟩⟩ := keepOrUndoStep_cases ea s u
  · rw [e]
    exact ⟨h.d, h.regs.imp (fun k => ⟨k.a, k.usp, k.ssp⟩) (fun k => ⟨k.a, k.usp, k.ssp⟩), h.sr, h.run, h.irqLevel,
      h.addrBits, h.memMap, h.inputs, h.cells⟩
  · have undone : SameAddressRegs s (u.setA n (s.aReg n)) := by
      rcases h.regs with r | r
      · simpa only [eaStep_undo ea sz s n hn] using
          r.setA (h.super.trans (eaStep_super s ea sz).symm) n (s.aReg n)
      · simpa only [s.setA_aReg n] using r.setA h.super n (s.aReg n)
    rw [e]
    refine ⟨fun m hm => ?_, .inr ⟨undone.a, undone.usp, undone.ssp⟩, ?_, ?_, ?_, ?_, ?_, ?_, fun c => ?_⟩
    · simpa [State.dReg] using h.d m hm
    · simpa using h.sr
    · simpa using h.run
    · simpa using h.irqLevel
    · simpa using h.addrBits
    · simpa using h.memMap
    · simpa using h.inputs
    · simpa [State.CellsOk, State.physBits] using h.cells c

end

/-! ### Everything an instruction can end in -/

/-- The ends of an instruction begun in `s`: a to-CCR form, a to-SR form in supervisor mode, the privilege violation of one
in user mode, completion with the result in its place, and the group 0 exception of a fault at the operand. -/
inductive ExecEnd (i : Instr) (s t : State) : Prop
  | toCcr (v : Byte) (done : Completed i s (s.writeCcr v) t)
  | toSr (v : Word) (hs : s.super = true) (done : Completed i s (s.writeSr v) t)
  | privilege (hs : s.super = false) (entry : EntryStep s t) (hsp : t.ssp = s.ssp - 6#32 ∨ t.ssp = s.ssp - 20#32)
  | operand (sz : Size) (ea : Ea) (off : Nat) (u : State) (ho : operandOf i = some (sz, ea, off))
      (hu : OperandStep i ea sz s u) (done : Completed i s u t)
  | fault (sz : Size) (ea : Ea) (off : Nat) (u : State) (ho : operandOf i = some (sz, ea, off))
      (hu : OperandStep i ea sz s u) (entry : EntryStep u t) (hsp : t.ssp = u.ssp - 14#32)

section
variable {i : Instr} {ea : Ea} {sz : Size} {off : Nat} {s t : State}

/-- An abandoned instruction ends in a group 0 exception (R140). -/
theorem ExecEnd.of_abandoned {u : State} (ho : operandOf i = some (sz, ea, off)) (hu : OperandStep i ea sz s u)
    (h : Abandoned i ea s u t) : ExecEnd i s t := by
  obtain ⟨e, rfl⟩ := h
  obtain ⟨entry, hsp⟩ := takeGroupZero_entry (keepOrUndoStep ea s u) e false s.pc (some (opWord i))
  exact .fault sz ea off _ ho hu.keepOrUndoStep entry hsp

theorem runEaToReg_end {o : LogicOp} {dn : Fin 8} (ho : operandOf i = some (sz, ea, off))
    (hd : destReg i = some dn) (h : runEaToReg i o sz dn ea s = .next t) : ExecEnd i s t := by
  rcases runEaToReg_cases i o sz dn ea s t h with ⟨u, r, b, done⟩ | ⟨u, b, ab⟩
  · exact .operand sz ea off _ ho (((OperandStep.start.bus b).logicFlags sz r).setD sz dn r hd) done
  · exact .of_abandoned ho (OperandStep.start.bus b) ab

theorem runModify_end {f : Long → Long} {cur : Addr} (ho : operandOf i = some (sz, ea, off))
    (hd : ∀ n, ea = .dreg n → destReg i = some n) (h : runModify i sz f cur ea s = .next t) : ExecEnd i s t := by
  rcases runModify_cases i sz f cur ea s t h with
    ⟨n, r, rfl, done⟩ | ⟨u, v, r, b, c, done⟩ | ⟨u, b, ab⟩ | ⟨u, v, r, b, c, ab⟩
  · exact .operand sz _ off _ ho ((OperandStep.start.logicFlags sz r).setD sz n r (hd n rfl)) done
  · exact .operand sz ea off _ ho (((OperandStep.start.bus b).logicFlags sz r).bus c) done
  · exact .of_abandoned ho (OperandStep.start.bus b) ab
  · exact .of_abandoned ho (((OperandStep.start.bus b).logicFlags sz r).bus c).keepOrUndoFlags ab

theorem runToSr_end {o : LogicOp} {data : Word} (h : runToSr i o data s = .next t) : ExecEnd i s t := by
  unfold runToSr at h
  split at h
  · rename_i hs
    injection h with h
    exact .toSr _ hs h.symm
  · rename_i hs
    injection h with h
    obtain ⟨entry, hsp⟩ := takeShort_entry s 8#8 none s.pc s.pc (some (opWord i))
    subst h
    exact .privilege (Bool.eq_false_iff.2 hs) entry hsp

/-- The run of an instruction by its shape. -/
def runShape (i : Instr) (s : State) : Shape → Outcome
  | .toCcr o data => runToCcr i o data s
  | .toSr o data => runToSr i o data s
  | .immToEa o sz data ea => runImmToEa i o sz data ea s
  | .notEa sz ea => runNot i sz ea s
  | .eaToReg o sz dn ea => runEaToReg i o sz dn ea s
  | .regToEa o sz dn ea => runRegToEa i o sz dn ea s

/-- Each of the 33 meanings is the shared one of its shape. -/
theorem exec_eq_runShape (i : Instr) (s : State) : exec i s = runShape i s i.shape := by
  cases i <;> rfl

/-- Whatever an instruction does, it ends in one of the ways of `ExecEnd`. -/
theorem exec_end (h : exec i s = .next t) : ExecEnd i s t := by
  rw [exec_eq_runShape] at h
  cases hi : i.shape with
  | toCcr o data =>
    rw [hi] at h
    injection h with h
    exact .toCcr _ h.symm
  | toSr o data =>
    rw [hi] at h
    exact runToSr_end h
  | immToEa o sz data ea =>
    rw [hi] at h
    exact runModify_end (by simp only [operandOf, hi]; rfl) (fun n hn => by simp [destReg, hi, hn]) h
  | notEa sz ea =>
    rw [hi] at h
    exact runModify_end (by simp only [operandOf, hi]; rfl) (fun n hn => by simp [destReg, hi, hn]) h
  | eaToReg o sz dn ea =>
    rw [hi] at h
    exact runEaToReg_end (by simp only [operandOf, hi]; rfl) (by simp [destReg, hi]) h
  | regToEa o sz dn ea =>
    rw [hi] at h
    exact runModify_end (by simp only [operandOf, hi]; rfl) (fun n hn => by simp [destReg, hi, hn]) h

end

/-- An exception entry keeps A0 to A6. -/
theorem EntryStep.aReg {s t : State} (h : EntryStep s t) (n : Fin 8) (hn : n.val < 7) : t.aReg n = s.aReg n :=
  aReg_congr h.a n hn

theorem EntryStep.dReg {s t : State} (h : EntryStep s t) (n : Fin 8) : t.dReg n = s.dReg n := by
  rw [State.dReg, h.d, State.dReg]

/-! ### What the registers and inputs are after an instruction -/

/-- Settles O53: at each end the data registers are those the operand's work left, and that writes the destination
alone. -/
theorem onlyDestinationDataRegisterChanges : Obligations.OnlyDestinationDataRegisterChanges := by
  intro i s t n h hn
  cases exec_end h with
  | toCcr v done => rw [done]; rfl
  | toSr v hs done => rw [done]; rfl
  | privilege hs entry hsp => exact entry.dReg n
  | operand sz ea off u ho hu done => rw [done]; exact hu.d n hn
  | fault sz ea off u ho hu entry hsp => exact (entry.dReg n).trans (hu.d n hn)

/-- Of A0 to A6, an operand's work leaves each as it was or as the operand's side effect makes it. -/
theorem OperandStep.aReg {i : Instr} {ea : Ea} {sz : Size} {s u : State} (h : OperandStep i ea sz s u) (n : Fin 8)
    (hn : n.val < 7) : u.aReg n = s.aReg n ∨ steppedReg ea = some n ∧ u.aReg n = (eaStep ea sz s).aReg n := by
  rcases h.regs with r | r
  · have hr := aReg_congr r.a n hn
    by_cases hs : steppedReg ea = some n
    · exact .inr ⟨hs, hr⟩
    · exact .inl (hr.trans (eaStep_aReg_other ea sz s n hn hs))
  · exact .inl (aReg_congr r.a n hn)

/-- Settles O54: completion and the entry of an exception leave A0 to A6 as the operand's work left them. -/
theorem onlySteppedAddressRegisterChanges : Obligations.OnlySteppedAddressRegisterChanges := by
  intro i s t n h hn
  cases exec_end h with
  | toCcr v done => exact .inl (aReg_congr (by rw [done]; rfl) n hn)
  | toSr v hs done => exact .inl (aReg_congr (by rw [done]; rfl) n hn)
  | privilege hs entry hsp => exact .inl (entry.aReg n hn)
  | operand sz ea off u ho hu done =>
    have ht : t.aReg n = u.aReg n := aReg_congr (by rw [done]) n hn
    rw [ht]
    exact (hu.aReg n hn).imp_right fun k => ⟨sz, ea, off, ho, k⟩
  | fault sz ea off u ho hu entry hsp =>
    rw [entry.aReg n hn]
    exact (hu.aReg n hn).imp_right fun k => ⟨sz, ea, off, ho, k⟩

/-- In supervisor mode an operand's work leaves USP (R22). -/
theorem OperandStep.usp_of_super {i : Instr} {ea : Ea} {sz : Size} {s u : State} (h : OperandStep i ea sz s u)
    (hs : s.super = true) : u.usp = s.usp := by
  rcases h.regs with r | r
  · exact r.usp.trans (eaStep_usp_of_super ea sz s hs)
  · exact r.usp

/-- In user mode an operand's work leaves SSP (R22). -/
theorem OperandStep.ssp_of_user {i : Instr} {ea : Ea} {sz : Size} {s u : State} (h : OperandStep i ea sz s u)
    (hs : s.super = false) : u.ssp = s.ssp := by
  rcases h.regs with r | r
  · exact r.ssp.trans (eaStep_ssp_of_user ea sz s hs)
  · exact r.ssp

/-- Settles O55: only an entry changes the mode from user to supervisor, and it moves SSP by its frames. -/
theorem bankedStackPointerIsKept : Obligations.BankedStackPointerIsKept := by
  intro i s t h
  cases exec_end h with
  | toCcr v done =>
    have mode : t.super = s.super := by rw [done]; exact s.writeCcr_super v
    refine ⟨fun _ => by rw [done]; rfl, fun _ _ => by rw [done]; rfl, fun hu ht => ?_⟩
    simp [mode, hu] at ht
  | toSr v hs done =>
    refine ⟨fun _ => by rw [done]; rfl, fun hu => ?_, fun hu => ?_⟩
    all_goals simp [hs] at hu
  | privilege hs entry hsp =>
    refine ⟨fun h => ?_, fun _ ht => ?_, fun _ _ => ?_⟩
    · simp [hs] at h
    · simp [entry.super] at ht
    · exact hsp.imp_right .inr
  | operand sz ea off u ho hu done =>
    have mode : t.super = s.super := by rw [done]; exact hu.super
    refine ⟨fun hs => by rw [done]; exact hu.usp_of_super hs, fun hs _ => by rw [done]; exact hu.ssp_of_user hs,
      fun hs ht => ?_⟩
    simp [mode, hs] at ht
  | fault sz ea off u ho hu entry hsp =>
    refine ⟨fun hs => entry.usp.trans (hu.usp_of_super hs), fun _ ht => ?_, fun hs _ => ?_⟩
    · simp [entry.super] at ht
    · exact .inr (.inl (hsp.trans (by rw [hu.ssp_of_user hs])))

/-- Settles O56: no end of an instruction touches the platform's inputs, and only a double fault the run state. -/
theorem platformInputsAreKept : Obligations.PlatformInputsAreKept := by
  intro i s t h
  cases exec_end h with
  | toCcr v done => rw [done]; exact ⟨rfl, rfl, rfl, rfl, .inl rfl⟩
  | toSr v hs done => rw [done]; exact ⟨rfl, rfl, rfl, rfl, .inl rfl⟩
  | privilege hs entry hsp => exact ⟨entry.memMap, entry.addrBits, entry.inputs, entry.irqLevel, entry.run⟩
  | operand sz ea off u ho hu done =>
    rw [done]
    exact ⟨hu.memMap, hu.addrBits, hu.inputs, hu.irqLevel, .inl hu.run⟩
  | fault sz ea off u ho hu entry hsp =>
    exact ⟨entry.memMap.trans hu.memMap, entry.addrBits.trans hu.addrBits, entry.inputs.trans hu.inputs,
      entry.irqLevel.trans hu.irqLevel, hu.run ▸ entry.run⟩

/-- Settles O57: the ends that stay in user mode write the five flags of SR at most. -/
theorem userModeKeepsSystemByte : Obligations.UserModeKeepsSystemByte := by
  intro i s t h hs ht
  cases exec_end h with
  | toCcr v done => rw [done]; exact writeCcr_sr_system s v
  | toSr v hsuper done => simp [hs] at hsuper
  | privilege _ entry hsp => simp [entry.super] at ht
  | operand sz ea off u ho hu done => rw [done]; exact hu.system
  | fault sz ea off u ho hu entry hsp => simp [entry.super] at ht

end Sys2Proof.Machine
end

section
/-! PROOFS. The state (10_state.md): what every operation of a step keeps (`Keeps`, `Settled`), the invariant of the step, and the
state at reset. -/

namespace Sys2Proof.Machine

/-! ### The part of the invariant that every operation keeps -/

/-- From `s` to `t` the address width is the same, memory and what is held stay in order, and the not-implemented bits of SR
stay 0. -/
structure Keeps (s t : State) : Prop where
  addrBits : t.addrBits = s.addrBits
  cells : s.CellsOk → t.CellsOk
  reserved : s.sr &&& srImplMask = s.sr → t.sr &&& srImplMask = t.sr

theorem Keeps.refl (s : State) : Keeps s s := ⟨rfl, id, id⟩

theorem Keeps.trans {s t u : State} (h : Keeps s t) (k : Keeps t u) : Keeps s u :=
  ⟨k.addrBits.trans h.addrBits, fun c => k.cells (h.cells c), fun r => k.reserved (h.reserved r)⟩

theorem BusStep.keeps {s t : State} (h : BusStep s t) : Keeps s t :=
  ⟨h.addrBits, h.cells, fun r => by rw [h.sr, r]⟩

theorem EntryStep.keeps {s t : State} (h : EntryStep s t) : Keeps s t := ⟨h.addrBits, h.cells, h.reserved⟩

theorem OperandStep.keeps {i : Instr} {ea : Ea} {sz : Size} {s u : State} (h : OperandStep i ea sz s u) :
    Keeps s u :=
  ⟨h.addrBits, h.cells, reserved_of_system_eq h.system⟩

/-- A completed instruction adds the pc and the trace that is due. -/
theorem Completed.keeps {i : Instr} {s u t : State} (h : Completed i s u t) : Keeps u t := by
  rw [h]
  exact ⟨rfl, id, id⟩

theorem writeCcr_keeps (s : State) (v : Byte) : Keeps s (s.writeCcr v) :=
  ⟨rfl, id, reserved_of_system_eq (writeCcr_sr_system s v)⟩

theorem writeSr_keeps (s : State) (v : Word) : Keeps s (s.writeSr v) :=
  ⟨rfl, id, fun _ => by rw [State.writeSr_sr, BitVec.and_assoc, BitVec.and_self]⟩

theorem afterSample_keeps (s : State) : Keeps s s.afterSample := ⟨rfl, id, id⟩

/-- Every instruction keeps it, whatever it ends in. -/
theorem exec_keeps {i : Instr} {s t : State} (h : exec i s = .next t) : Keeps s t := by
  cases exec_end h with
  | toCcr v done => exact (writeCcr_keeps s v).trans done.keeps
  | toSr v hs done => exact (writeSr_keeps s v).trans done.keeps
  | privilege hs entry hsp => exact entry.keeps
  | operand sz ea off u ho hu done => exact hu.keeps.trans done.keeps
  | fault sz ea off u ho hu entry hsp => exact hu.keeps.trans entry.keeps

/-! ### Where a step can be, with no trace exception due -/

/-- `t` keeps what `s` has of the invariant, and no trace exception is due. -/
structure Settled (s t : State) : Prop extends Keeps s t where
  noTraceDue : t.tracePending = false

theorem Keeps.settled {s t u : State} (h : Keeps s t) (k : Settled t u) : Settled s u :=
  ⟨h.trans k.toKeeps, k.noTraceDue⟩

theorem EntryStep.settled {s t : State} (h : EntryStep s t) : Settled s t := ⟨h.keeps, h.noTraceDue⟩

theorem takeGroupZero_settled (s : State) (e : AccessFault) (inEntry : Bool) (pc0 : Addr) (ir : Option Word) :
    Settled s (s.takeGroupZero e inEntry pc0 ir) := by
  obtain ⟨entry, _⟩ := takeGroupZero_entry s e inEntry pc0 ir
  exact entry.settled

theorem takeShort_settled (s : State) (v : BitVec 8) (level : Option (BitVec 3)) (pcSaved pc0 : Addr)
    (ir : Option Word) : Settled s (s.takeShort v level pcSaved pc0 ir) := by
  obtain ⟨entry, _⟩ := takeShort_entry s v level pcSaved pc0 ir
  exact entry.settled

theorem takeTrace_settled (s : State) (pc0 : Addr) : Settled s (s.takeTrace pc0) := takeShort_settled s _ _ _ _ _

theorem takeInterrupt_settled (s : State) (level : BitVec 3) (v : VectorSource) :
    Settled s (s.takeInterrupt level v) :=
  Keeps.settled (t := { s with run := .running }) ⟨rfl, id, id⟩ (takeShort_settled _ _ _ _ _ _)

/-- The reset sequence sets SR itself (R270). -/
theorem resetSequence_settled (s : State) : Settled s s.resetSequence := by
  obtain ⟨_, _, _, hsr, htrace, _, _, _, hbits, hcells⟩ := resetSequence_changes s
  refine ⟨⟨hbits, hcells, fun _ => ?_⟩, htrace⟩
  exact reserved_of_system_eq (y := 0x2700#16) hsr (by decide)

/-! ### The first half of a step -/

/-- What the first half of a step begun in `s` leaves: a settled state, or one that keeps what `s` has for an instruction to
run in. -/
def Begun.Ok (s : State) : Begun → Prop
  | .ended o => ∀ t, o = .next t → Settled s t
  | .run _ t => Keeps s t

theorem Begun.ok_next {s t : State} (h : Settled s t) : Begun.Ok s (.ended (.next t)) := by
  intro u e
  injection e with e
  exact e ▸ h

theorem Begun.Ok.of_keeps {s t : State} {b : Begun} (h : Keeps s t) (k : Begun.Ok t b) : Begun.Ok s b := by
  cases b with
  | ended o => exact fun u e => h.settled (k u e)
  | run i u => exact h.trans k

theorem fetchInstr_ok (s : State) : Begun.Ok s s.fetchInstr := by
  unfold State.fetchInstr
  have st := fetch16_steps s s.pc
  split
  · rename_i e s1 h1
    rw [h1] at st
    exact Begun.ok_next (st.keeps.settled (takeGroupZero_settled s1 e false s.pc none))
  · rename_i op s1 h1
    rw [h1] at st
    have keep : Keeps s s1 := BusStep.keeps st
    split
    · exact fun t e => by contradiction
    · exact Begun.ok_next (keep.settled (takeShort_settled s1 _ _ _ _ _))
    · rename_i f _
      split
      · exact Begun.ok_next (keep.settled (takeShort_settled s1 _ _ _ _ _))
      · have sw := fetchWords_steps s1 (s.pc + 2#32) f.extWords
        split
        · rename_i e s2 h2
          rw [h2] at sw
          exact Begun.ok_next (keep.settled (sw.keeps.settled (takeGroupZero_settled s2 e false s.pc none)))
        · rename_i ws s2 h2
          rw [h2] at sw
          exact keep.trans (BusStep.keeps sw)

theorem beginRunning_ok (s : State) : Begun.Ok s s.beginRunning := by
  unfold State.beginRunning
  split
  · exact Begun.ok_next ((afterSample_keeps s).settled (resetSequence_settled _))
  · split
    · exact Begun.ok_next (takeTrace_settled s s.pc)
    · split
      · exact Begun.ok_next ((afterSample_keeps s).settled (takeInterrupt_settled _ _ _))
      · exact Begun.Ok.of_keeps (afterSample_keeps s) (fetchInstr_ok _)

theorem beginHalted_ok (s : State) : Begun.Ok s s.beginHalted := by
  unfold State.beginHalted
  split
  · exact fun t e => by contradiction
  · rename_i x xs _
    have keep : Keeps s { s with inputs := xs, irqLevel := x.level } := ⟨rfl, id, id⟩
    exact Begun.ok_next (keep.settled (resetSequence_settled _))

/-- A Stopped processor that nothing wakes passes the boundary; a trace would be left due only under a reset. -/
theorem beginStopped_ok (s : State) (h : s.tracePending = true → s.sample.reset = true) :
    Begun.Ok s s.beginStopped := by
  unfold State.beginStopped
  split
  · exact fun t e => by contradiction
  · split
    · exact Begun.ok_next ((afterSample_keeps s).settled (resetSequence_settled _))
    · rename_i hreset
      split
      · exact Begun.ok_next ((afterSample_keeps s).settled (takeInterrupt_settled _ _ _))
      · exact Begun.ok_next ⟨afterSample_keeps s, Bool.eq_false_iff.2 fun due => hreset (h due)⟩

theorem beginStep_ok (s : State) (h : s.tracePending = true → s.sample.reset = true) : Begun.Ok s s.beginStep := by
  unfold State.beginStep
  cases s.run with
  | running => exact beginRunning_ok s
  | halted => exact beginHalted_ok s
  | stopped => exact beginStopped_ok s h

/-! ### The whole step -/

/-- The second half of a step takes the trace that is due, unless a reset comes first (R227, R229). -/
theorem finishStep_keeps {pc0 : Addr} {o : Outcome} {t : State} (h : finishStep pc0 o = .next t) :
    ∃ u, o = .next u ∧ Keeps u t ∧ (t.tracePending = true → t.sample.reset = true) := by
  cases o with
  | fault f => contradiction
  | refused r => contradiction
  | next u =>
    unfold finishStep at h
    dsimp only at h
    split at h
    · injection h with h
      have k := takeTrace_settled u pc0
      rw [h] at k
      exact ⟨u, rfl, k.toKeeps, fun due => by simp [k.noTraceDue] at due⟩
    · rename_i hno
      injection h with h
      subst h
      exact ⟨u, rfl, Keeps.refl u, fun due => by simpa [due] using hno⟩

/-- What a step ends in if no reset cuts it short: its two halves around exec. -/
def State.wholeStep (s : State) : Outcome :=
  match s.beginStep with
  | .ended o => o
  | .run i s1 => finishStep s1.pc (exec i s1)

theorem step_eq_endStep (s : State) : step s = s.endStep s.wholeStep := rfl

theorem wholeStep_keeps {s t : State} (hs : s.tracePending = true → s.sample.reset = true)
    (h : s.wholeStep = .next t) : Keeps s t ∧ (t.tracePending = true → t.sample.reset = true) := by
  unfold State.wholeStep at h
  have ok := beginStep_ok s hs
  cases hb : s.beginStep with
  | ended o =>
    rw [hb] at ok h
    have k := ok t h
    exact ⟨k.toKeeps, fun due => by simp [k.noTraceDue] at due⟩
  | run i s1 =>
    rw [hb] at ok h
    obtain ⟨u, hu, k, due⟩ := finishStep_keeps h
    exact ⟨Keeps.trans ok ((exec_keeps hu).trans k), due⟩

/-- A step cut short by a reset ends settled (R229, R270). -/
theorem cutShort_reset_settled {s u : State} (hs : s.CellsOk) (h : Keeps s u) :
    Settled s (s.cutShort u).resetSequence := by
  have k := resetSequence_settled (s.cutShort u)
  obtain ⟨_, _, _, hsr, _, _⟩ := resetSequence_changes (s.cutShort u)
  exact ⟨⟨k.addrBits.trans h.addrBits, fun _ => k.cells (cutShort_cells s u h.addrBits hs (h.cells hs)),
    fun _ => reserved_of_system_eq (y := 0x2700#16) hsr (by decide)⟩, k.noTraceDue⟩

theorem State.Inv.cellsOk {s : State} (h : s.Inv) : s.CellsOk := ⟨h.memWf, h.memBound, h.heldRising, h.heldBound⟩

/-- The invariant is carried by what is kept, and the rule for the trace bit. -/
theorem State.Inv.of_keeps {s t : State} (h : s.Inv) (k : Keeps s t)
    (due : t.tracePending = true → t.sample.reset = true) : t.Inv := by
  obtain ⟨memWf, memBound, heldRising, heldBound⟩ := k.cells h.cellsOk
  exact ⟨memWf, memBound, k.reserved h.reserved, heldRising, heldBound, due⟩

/-- Settles O58: the whole step keeps the invariant, and so does the reset sequence after a part of it. -/
theorem stepKeepsInvariant : Obligations.StepKeepsInvariant := by
  intro s t inv h
  rw [step_eq_endStep] at h
  rcases endStep_cases s t s.wholeStep h with ⟨_, whole⟩ | ⟨u, whole, rfl⟩
  · obtain ⟨k, due⟩ := wholeStep_keeps inv.noTraceDue whole
    exact inv.of_keeps k due
  · obtain ⟨k, _⟩ := wholeStep_keeps inv.noTraceDue whole
    have settled := cutShort_reset_settled inv.cellsOk k
    exact inv.of_keeps settled.toKeeps fun due => by simp [settled.noTraceDue] at due

/-- Settles O59: memory and what is held are empty at reset, and SR is 0x2700. -/
theorem resetMeetsInvariant : Obligations.ResetMeetsInvariant :=
  ⟨Memory.wf_reset, fun _ hc => absurd hc List.not_mem_nil, by decide, rfl,
    fun _ hc => absurd hc List.not_mem_nil, fun due => absurd due Bool.false_ne_true⟩

/-- At reset memory lists nothing, so every long reads 0. -/
theorem reset_valueAt_long (a : Addr) : State.reset.valueAt a .long = 0#32 := by
  have read (b : Addr) : State.reset.byteAt b = 0#8 := rfl
  simp only [State.valueAt, read]
  rfl

/-- Settles O42: the values of R33, the vectors being those of a memory that lists nothing. -/
theorem resetHasStatedValues : Obligations.ResetHasStatedValues := by
  refine ⟨by decide, by decide, by decide, by decide, rfl, ?_, ?_⟩
  · exact (reset_valueAt_long 0#32).symm
  · exact (reset_valueAt_long 4#32).symm

end Sys2Proof.Machine
end

section
/-! PROOFS. The state (10_state.md): exception entries that meet no fault, the SR they stack, and the forms to CCR and to SR. -/

namespace Sys2Proof.Machine

/-! ### Exception entries in plain storage -/

/-- The answer of the map depends on the map, the address width and the mode (R54). -/
theorem mapAt_congr {s t : State} (hm : t.memMap = s.memMap) (ha : t.addrBits = s.addrBits)
    (hs : t.super = s.super) (a : Addr) (w : Bool) (sp : Space) : t.mapAt a w sp = s.mapAt a w sp := by
  simp only [State.mapAt, State.phys, State.physBits, hm, ha, hs]

theorem even_sub (a k : Addr) (ha : a.getLsbD 0 = false) (hk : k.getLsbD 0 = false) : (a - k).getLsbD 0 = false := by
  simp only [BitVec.getLsbD, Nat.testBit_zero, decide_eq_false_iff_not, BitVec.toNat_sub] at ha hk ⊢
  omega

theorem vectorAddr_even (v : BitVec 8) : ((v.setWidth 32 : Addr) <<< 2).getLsbD 0 = false := by simp

/-- A frame written in plain storage, and the vector read after it. -/
theorem writeFrame_readVector_plain (s : State) (ws : List PendingWord) (v : BitVec 8) (hb : s.busWrites = [])
    (ha : s.ssp.getLsbD 0 = false) (hc : Consecutive s.ssp ws) (hn : ws.length ≤ 100)
    (hw : s.writesPlain s.ssp (2 * ws.length)) (hv : s.readsPlain (v.setWidth 32 <<< 2) 4 .data) :
    ∃ t, s.writeFrame ws = .ok () t ∧ t.readVector v = .ok (t.valueAt (v.setWidth 32 <<< 2) .long) t ∧ MemOnly s t
      ∧ (∀ w ∈ ws, t.valueAt w.addr .word = w.value.setWidth 32)
      ∧ (∀ w ∈ ws, t.holdsByte w.addr (hiByte w.value) ∧ t.holdsByte (w.addr + 1#32) (loByte w.value))
      ∧ ∀ b, s.outside s.ssp (2 * ws.length) b → s.sameAt t b := by
  obtain ⟨t, e, m, words, bytes, out⟩ := writeFrame_plain s ws hb ha hc hn hw
  have hv' : t.readsPlain (v.setWidth 32 <<< 2) 4 .data := fun k hk => by
    simp only [m.mapAt]
    exact hv k hk
  exact ⟨t, e, memRead_plain t _ .long .data (m.busWrites.trans hb) (.inr (vectorAddr_even v)) hv', m, words, bytes,
    out⟩

/-- A short-frame entry that meets no fault (R221): the frame's words and bytes, no other byte, and the pc from the
vector. -/
theorem takeShort_of_canEnter (s : State) (v : BitVec 8) (level : Option (BitVec 3)) (pcSaved pc0 : Addr)
    (ir : Option Word) (h : s.canEnter 6 v) :
    ∃ t, s.takeShort v level pcSaved pc0 ir = { t with pc := t.valueAt (v.setWidth 32 <<< 2) .long }
      ∧ MemOnly (s.beginShort level) t
      ∧ (∀ w ∈ shortFrame (s.ssp - 6#32) s.srValue pcSaved, t.valueAt w.addr .word = w.value.setWidth 32)
      ∧ (∀ w ∈ shortFrame (s.ssp - 6#32) s.srValue pcSaved,
        t.holdsByte w.addr (hiByte w.value) ∧ t.holdsByte (w.addr + 1#32) (loByte w.value))
      ∧ ∀ b, s.outside (s.ssp - 6#32) 6 b → s.sameAt t b := by
  obtain ⟨hb, ha, hw, hv⟩ := h
  obtain ⟨entry, hsp⟩ := beginShort_entry s level
  have map := mapAt_congr (s := s.enterSupervisor) entry.memMap entry.addrBits
    (entry.super.trans s.enterSupervisor_super.symm)
  have bus : (s.beginShort level).busWrites = [] := by cases level <;> exact hb
  obtain ⟨t, e, r, m, words, bytes, out⟩ := writeFrame_readVector_plain (s.beginShort level)
    (shortFrame (s.beginShort level).ssp s.srValue pcSaved) v bus
    (by rw [hsp]; exact even_sub _ _ ha rfl) (shortFrame_consecutive _ _ _) (Nat.le_of_ble_eq_true rfl)
    (fun k hk => by rw [map, hsp]; exact hw k hk) (fun k hk => by rw [map]; exact hv k hk)
  rw [hsp] at e words bytes out
  have same (b : Addr) (hb' : s.outside (s.ssp - 6#32) 6 b) : s.sameAt t b := by
    cases level <;> exact out b hb'
  refine ⟨t, ?_, m, words, bytes, same⟩
  unfold State.takeShort
  simp only [hsp, e, r]

/-- What a group 0 entry sets before it writes the frame (R222). -/
def State.beginGroupZero (s : State) : State :=
  { s.enterSupervisor with ssp := s.ssp - 14#32, draws := s.draws + 3, tracePending := false }

/-- The long frame of a group 0 entry (R222). -/
def State.groupZeroFrame (s : State) (e : AccessFault) (inEntry : Bool) (pc0 : Addr) (ir : Option Word) :
    List PendingWord :=
  longFrame (s.ssp - 14#32) (infoWord e inEntry (Config.freeWord s.draws)) e.addr
    (ir.getD (Config.freeWord (s.draws + 1))) s.srValue (groupZeroPc pc0 (Config.freePick (s.draws + 2)))

/-- A group 0 entry that meets no fault (R222): the frame's words and bytes, no other byte, and the pc from the vector. -/
theorem takeGroupZero_of_canEnter (s : State) (e : AccessFault) (inEntry : Bool) (pc0 : Addr) (ir : Option Word)
    (h : s.canEnter 14 e.vector) :
    ∃ t, s.takeGroupZero e inEntry pc0 ir = { t with pc := t.valueAt (e.vector.setWidth 32 <<< 2) .long }
      ∧ MemOnly s.beginGroupZero t
      ∧ (∀ w ∈ s.groupZeroFrame e inEntry pc0 ir, t.valueAt w.addr .word = w.value.setWidth 32)
      ∧ (∀ w ∈ s.groupZeroFrame e inEntry pc0 ir,
        t.holdsByte w.addr (hiByte w.value) ∧ t.holdsByte (w.addr + 1#32) (loByte w.value))
      ∧ ∀ b, s.outside (s.ssp - 14#32) 14 b → s.sameAt t b := by
  obtain ⟨hb, ha, hw, hv⟩ := h
  obtain ⟨t, written, read, m, words, bytes, out⟩ := writeFrame_readVector_plain s.beginGroupZero
    (s.groupZeroFrame e inEntry pc0 ir) e.vector hb (even_sub _ _ ha rfl) (longFrame_consecutive _ _ _ _ _ _)
    (Nat.le_of_ble_eq_true rfl) hw hv
  refine ⟨t, ?_, m, words, bytes, out⟩
  unfold State.groupZeroFrame State.beginGroupZero at written
  unfold State.takeGroupZero
  simp only [written, read]

/-! ### The stacked SR -/

/-- A stacked SR has the not-implemented bits 0, as SR has when it is read (R27). -/
theorem srValue_setWidth_reserved (s : State) : s.srValue.setWidth 32 &&& 0xFFFF58E0#32 = 0#32 := by
  rw [State.srValue, BitVec.setWidth_and, BitVec.and_assoc]
  exact BitVec.and_zero

/-- The SR word of the short frame (R221) is SR as it is read. -/
theorem takeShort_stacked_sr (s : State) (v : BitVec 8) (level : Option (BitVec 3)) (pcSaved pc0 : Addr)
    (ir : Option Word) (h : s.canEnter 6 v) :
    (s.takeShort v level pcSaved pc0 ir).valueAt (s.ssp - 6#32) .word = s.srValue.setWidth 32 := by
  obtain ⟨t, e, _, words, _⟩ := takeShort_of_canEnter s v level pcSaved pc0 ir h
  rw [e]
  exact words { addr := s.ssp - 6#32, access := s.ssp - 6#32, value := s.srValue } List.mem_cons_self

/-- So is that of the long frame (R222). -/
theorem takeGroupZero_stacked_sr (s : State) (e : AccessFault) (inEntry : Bool) (pc0 : Addr) (ir : Option Word)
    (h : s.canEnter 14 e.vector) :
    (s.takeGroupZero e inEntry pc0 ir).valueAt (s.ssp - 6#32) .word = s.srValue.setWidth 32 := by
  obtain ⟨t, eq, _, words, _⟩ := takeGroupZero_of_canEnter s e inEntry pc0 ir h
  have place : s.ssp - 14#32 + 8#32 = s.ssp - 6#32 := by bv_omega
  rw [eq, ← place]
  exact words { addr := s.ssp - 14#32 + 8#32, access := s.ssp - 14#32 + 8#32, value := s.srValue }
    (by simp [State.groupZeroFrame, longFrame, longWords])

/-! ### The forms to CCR and to SR -/

/-- The three operations on words (R138). -/
def wordOp (o : LogicOp) (x y : Word) : Word :=
  match o with
  | .or => x ||| y
  | .and => x &&& y
  | .eor => x ^^^ y

/-- On words, an operation of the processor is that of the word. -/
theorem logicOp_setWidth_word (o : LogicOp) (x y : Word) :
    (logicOp o (x.setWidth 32) (y.setWidth 32)).setWidth 16 = wordOp o x y := by
  cases o
  · simp [logicOp, wordOp, BitVec.setWidth_or]
  · simp [logicOp, wordOp, BitVec.setWidth_and]
  · simp [logicOp, wordOp, BitVec.setWidth_xor]

/-- The five flags of a byte result are those of the word result (R25). -/
theorem logicOp_setWidth_flags (o : LogicOp) (x : Word) (y : Byte) :
    ((logicOp o (x.setWidth 32) (y.setWidth 32)).setWidth 8).setWidth 16 &&& 0x001F#16
      = wordOp o x (y.setWidth 16) &&& 0x001F#16 := by
  have wide : (y.setWidth 16).setWidth 32 = y.setWidth 32 := BitVec.setWidth_setWidth (by decide)
  have low (w : Word) : (w.setWidth 8).setWidth 16 &&& 0x001F#16 = w &&& 0x001F#16 := by
    apply BitVec.eq_of_getLsbD_eq
    intro k hk
    simp only [BitVec.getLsbD_and, BitVec.getLsbD_setWidth]
    interval_cases k <;> simp
  have narrow (r : Long) : (r.setWidth 16).setWidth 8 = r.setWidth 8 := BitVec.setWidth_setWidth_of_le r (by decide)
  rw [← logicOp_setWidth_word, wide, ← low ((logicOp o _ _).setWidth 16), narrow]

/-- What a to-CCR form does (R153, R172, R203). -/
theorem runToCcr_eq (i : Instr) (o : LogicOp) (data : Byte) (s : State) :
    runToCcr i o data s = .next { s with
      sr := (s.sr &&& 0xFFE0#16) ||| (wordOp o s.sr (data.setWidth 16) &&& 0x001F#16)
      pc := s.pc + BitVec.ofNat 32 (instrLength i)
      tracePending := s.traceBit } := by
  rw [runToCcr, complete, State.writeCcr, logicOp_setWidth_flags]

/-- What a to-SR form does in supervisor mode (R154, R173, R204). -/
theorem runToSr_eq_of_super (i : Instr) (o : LogicOp) (data : Word) (s : State) (h : s.super = true) :
    runToSr i o data s = .next { s with
      sr := wordOp o s.sr data &&& srImplMask
      pc := s.pc + BitVec.ofNat 32 (instrLength i)
      tracePending := s.traceBit } := by
  rw [runToSr, if_pos h, complete, State.writeSr, logicOp_setWidth_word]

/-- Settles O15: each form is `runToCcr` with its operation, four bytes long. -/
theorem toCcrFormsWriteFiveFlags : Obligations.ToCcrFormsWriteFiveFlags := by
  intro s data i v h
  simp only [List.mem_cons, Prod.mk.injEq, List.not_mem_nil, or_false] at h
  rcases h with ⟨rfl, rfl⟩ | ⟨rfl, rfl⟩ | ⟨rfl, rfl⟩
  · exact runToCcr_eq (.oriCcr data) .or data s
  · exact runToCcr_eq (.andiCcr data) .and data s
  · exact runToCcr_eq (.eoriCcr data) .eor data s

/-- ORI to SR with all bits set sets every implemented bit (R27, R204). -/
theorem exec_oriSr_ones (s : State) (h : s.super = true) :
    ∃ t, exec (.oriSr 0xFFFF#16) s = .next t ∧ t.sr = 0xA71F#16 := by
  refine ⟨_, runToSr_eq_of_super (.oriSr 0xFFFF#16) .or 0xFFFF#16 s h, ?_⟩
  have ones : s.sr ||| 0xFFFF#16 = 0xFFFF#16 := BitVec.or_allOnes
  simp only [wordOp, ones]
  rfl

/-- ORI to CCR with all bits set sets the five flags and no other bit of the low byte (R27, R203). -/
theorem exec_oriCcr_ones (s : State) (h : s.sr &&& srImplMask = s.sr) :
    ∃ t, exec (.oriCcr 0xFF#8) s = .next t ∧ t.sr.setWidth 8 = 0x1F#8 := by
  refine ⟨_, runToCcr_eq (.oriCcr 0xFF#8) .or 0xFF#8 s, ?_⟩
  have upper : (s.sr &&& 0xFFE0#16).setWidth 8 = 0#8 := by
    rw [← h, BitVec.and_assoc, BitVec.setWidth_and]
    exact BitVec.and_zero
  have ones : s.sr.setWidth 8 ||| 0xFF#8 = 0xFF#8 := BitVec.or_allOnes
  have flags : ((s.sr ||| 0x00FF#16) &&& 0x001F#16).setWidth 8 = 0x1F#8 := by
    rw [BitVec.setWidth_and, BitVec.setWidth_or]
    exact congrArg (· &&& 0x1F#8) ones
  calc ((s.sr &&& 0xFFE0#16) ||| ((s.sr ||| 0x00FF#16) &&& 0x001F#16)).setWidth 8
      = (s.sr &&& 0xFFE0#16).setWidth 8 ||| ((s.sr ||| 0x00FF#16) &&& 0x001F#16).setWidth 8 := BitVec.setWidth_or
    _ = 0x1F#8 := by rw [upper, flags, BitVec.zero_or]

/-- Settles O14: what is read, what is written, and what an entry pushes, which is the SR that is read. -/
theorem notImplementedSrBitsStayZero : Obligations.NotImplementedSrBitsStayZero := by
  refine ⟨fun s => ?_, State.writeSr_sr, fun s v => ⟨writeCcr_sr_flags s v, writeCcr_sr_system s v⟩,
    exec_oriSr_ones, exec_oriCcr_ones, fun s v level pcSaved pc0 ir h => ?_, fun s e inEntry pc0 ir h => ?_⟩
  · rw [← and_srImplMask_eq_self_iff, State.srValue, BitVec.and_assoc, BitVec.and_self]
  · rw [takeShort_stacked_sr s v level pcSaved pc0 ir h]
    exact srValue_setWidth_reserved s
  · rw [takeGroupZero_stacked_sr s e inEntry pc0 ir h]
    exact srValue_setWidth_reserved s

end Sys2Proof.Machine
end

section
/-! PROOFS. Memory (20_memory.md): when an access is made and when it aborts, odd addresses, faults of the map, and the writes
that store nothing. -/

namespace Sys2Proof.Machine

/-! ### When an access is made -/

/-- At an odd address a word or long read is not made (R53). -/
theorem memRead_of_odd (s : State) (a : Addr) (sz : Size) (sp : Space) (h : oddFor sz a = true) :
    s.memRead a sz sp = .abort (s.misalignedAt a false sp) s := by
  unfold State.memRead
  rw [if_pos h]

/-- At an odd address a word or long write is not made (R53). -/
theorem memWrite_of_odd (s : State) (a : Addr) (sz : Size) (v : Long) (h : oddFor sz a = true) :
    s.memWrite a sz v = .abort (s.misalignedAt a true .data) s := by
  unfold State.memWrite
  rw [if_pos h]

/-- At an odd address a fetch is not made (R53). -/
theorem fetch16_of_odd (s : State) (a : Addr) (h : a.getLsbD 0 = true) :
    s.fetch16 a = .abort (s.misalignedAt a false .prog) s := by
  rw [State.fetch16, if_pos h]

theorem not_oddFor_of_aligned {sz : Size} {a : Addr} (h : alignedFor sz a) : ¬ oddFor sz a = true := by
  rw [oddFor_aligned sz a h]
  exact Bool.false_ne_true

/-- Where the map faults a byte, an aligned read is not made (R59). -/
theorem memRead_of_anyFault (s : State) (a : Addr) (sz : Size) (sp : Space) (ha : alignedFor sz a)
    (hf : s.anyFault a false sp sz.bytes = true) : s.memRead a sz sp = .abort (s.busErrorAt a false sp) s := by
  unfold State.memRead
  rw [if_neg (not_oddFor_of_aligned ha), if_pos hf]

/-- Where the map faults a byte, an aligned write aborts; only a long one may have done a part (R55, R59). -/
theorem memWrite_of_anyFault (s : State) (a : Addr) (sz : Size) (v : Long) (ha : alignedFor sz a)
    (hf : s.anyFault a true .data sz.bytes = true) :
    ∃ t, s.memWrite a sz v = .abort (s.busErrorAt a true .data) t ∧ (sz ≠ .long → t = s) := by
  unfold State.memWrite
  rw [if_neg (not_oddFor_of_aligned ha), if_pos hf]
  refine ⟨_, rfl, fun hsz => ?_⟩
  cases sz with
  | byte => rfl
  | word => rfl
  | long => exact absurd rfl hsz

/-- An aligned read that aborts does so for a fault of the map (R59). -/
theorem memRead_abort_busError {s t : State} {a : Addr} {sz : Size} {sp : Space} {e : AccessFault}
    (ha : alignedFor sz a) (h : s.memRead a sz sp = .abort e t) : e = s.busErrorAt a false sp := by
  unfold State.memRead at h
  rw [if_neg (not_oddFor_of_aligned ha)] at h
  split at h
  · injection h with he
    exact he.symm
  · cases sz <;> contradiction

/-- An aligned write that aborts does so for a fault of the map (R59). -/
theorem memWrite_abort_busError {s t : State} {a : Addr} {sz : Size} {v : Long} {e : AccessFault}
    (ha : alignedFor sz a) (h : s.memWrite a sz v = .abort e t) : e = s.busErrorAt a true .data := by
  unfold State.memWrite at h
  rw [if_neg (not_oddFor_of_aligned ha)] at h
  split at h
  · injection h with he
    exact he.symm
  · cases sz <;> contradiction

/-- A fetch at an even address that aborts does so for a fault of the map (R59). -/
theorem fetch16_abort_busError {s t : State} {a : Addr} {e : AccessFault} (ha : a.getLsbD 0 = false)
    (h : s.fetch16 a = .abort e t) : e = s.busErrorAt a false .prog := by
  rw [State.fetch16, if_neg (ha ▸ Bool.false_ne_true)] at h
  split at h
  · injection h with he
    exact he.symm
  · contradiction

/-- Every size but a byte must be even (R53). -/
theorem oddFor_of_ne_byte {sz : Size} (a : Addr) (h : sz ≠ .byte) : oddFor sz a = a.getLsbD 0 := by
  cases sz with
  | byte => exact absurd rfl h
  | word => rfl
  | long => rfl

/-- Settles O9: the odd access is turned away before the map is asked, and every other abort is a bus error. -/
theorem oddAddressRaisesAddressError : Obligations.OddAddressRaisesAddressError := by
  intro s a sp v
  refine ⟨fun sz hsz odd => ?_, fetch16_of_odd s a, fun sz aligned => ⟨fun e t h => ?_, fun e t h => ?_⟩,
    fun even e t h => ?_⟩
  · have hodd : oddFor sz a = true := (oddFor_of_ne_byte a hsz).trans odd
    exact ⟨memRead_of_odd s a sz sp hodd, memWrite_of_odd s a sz v hodd⟩
  · rw [memRead_abort_busError aligned h]
    rfl
  · rw [memWrite_abort_busError aligned h]
    rfl
  · rw [fetch16_abort_busError even h]
    rfl

/-! ### Faults of the map -/

/-- `anyFault` asks the map for each byte of the access (R54). -/
theorem anyFault_iff (s : State) (a : Addr) (write : Bool) (sp : Space) (n : Nat) :
    s.anyFault a write sp n = true ↔ ∃ k < n, s.mapAt (a + BitVec.ofNat 32 k) write sp = .fault := by
  induction n with
  | zero => simp [State.anyFault]
  | succ n ih => simp only [State.anyFault, Bool.or_eq_true, ih, beq_iff_eq, Nat.lt_succ_iff_lt_or_eq, or_and_right,
      exists_or, exists_eq_left]

/-- Settles O10: one faulted byte is enough for the access to be turned away. -/
theorem mapFaultRaisesBusError : Obligations.MapFaultRaisesBusError := by
  intro s a sz sp v k aligned hk
  refine ⟨fun fault => ?_, fun fault => ?_⟩
  · exact memRead_of_anyFault s a sz sp aligned ((anyFault_iff s a false sp sz.bytes).2 ⟨k, hk, fault⟩)
  · exact memWrite_of_anyFault s a sz v aligned ((anyFault_iff s a true .data sz.bytes).2 ⟨k, hk, fault⟩)

/-! ### Writes that store nothing -/

/-- The map lets a write of the byte at `a` complete without storing it (R54, log 8). -/
abbrev State.storesNothing (s : State) (a : Addr) : Prop :=
  s.mapAt a true .data = .rom ∨ s.mapAt a true .data = .device ∨ s.mapAt a true .data = .nothing

theorem storeByte_of_storesNothing (s : State) (a : Addr) (v : Byte) (h : s.storesNothing a) :
    s.storeByte a v = s := by
  rcases h with h | h | h <;> simp only [State.storeByte, h]

theorem anyFault_of_storesNothing (s : State) (a : Addr) (n : Nat)
    (h : ∀ k < n, s.storesNothing (a + BitVec.ofNat 32 k)) : s.anyFault a true .data n = false := by
  rw [Bool.eq_false_iff, Ne, anyFault_iff]
  rintro ⟨k, hk, fault⟩
  simpa [State.storesNothing, fault] using h k hk

theorem storeWordCycle_of_storesNothing (s : State) (a : Addr) (v : Word) (hb : s.busWrites = [])
    (h0 : s.storesNothing a) (h1 : s.storesNothing (a + 1#32)) : s.storeWordCycle a v = s := by
  rw [State.storeWordCycle, s.busTurn_quiet hb, storeByte_of_storesNothing s a _ h0,
    storeByte_of_storesNothing s (a + 1#32) _ h1]

/-- Settles O11: each byte cycle, and so each word cycle, leaves the state as it is. -/
theorem romAndDeviceWritesStoreNothing : Obligations.RomAndDeviceWritesStoreNothing := by
  intro s a sz v hb aligned hmap
  have h0 : s.storesNothing a := by simpa using hmap 0 (by cases sz <;> decide)
  unfold State.memWrite
  rw [if_neg (not_oddFor_of_aligned aligned), anyFault_of_storesNothing s a sz.bytes hmap, if_neg Bool.false_ne_true]
  cases sz with
  | byte =>
    simp only [State.storeByteCycle, s.busTurn_quiet hb, storeByte_of_storesNothing s a _ h0]
  | word =>
    simp only [storeWordCycle_of_storesNothing s a _ hb h0 (hmap 1 (by decide))]
  | long =>
    have high := storeWordCycle_of_storesNothing s a (hiWord v) hb h0 (hmap 1 (by decide))
    have low := storeWordCycle_of_storesNothing s (a + 2#32) (loWord v) hb (hmap 2 (by decide))
      (by rw [add_two_one]; exact hmap 3 (by decide))
    simp only [s.storeWordsFree_quiet _ hb, longWords, State.storeWords, high, low]

/-! ### Other bus masters -/

/-- A turn in which another master writes one byte of the physical address space (R60). -/
theorem busTurn_of_oneByte (s : State) (a : Addr) (b : Byte) (rest : List (List Host.Cell))
    (h : s.busWrites = [(s.phys a, b)] :: rest) :
    s.busTurn = { s with busWrites := rest, mem := s.mem.write (s.phys a) b } := by
  have hp : s.phys a % 2 ^ s.physBits = s.phys a := Nat.mod_eq_of_lt (phys_lt s a)
  simp only [State.busTurn, h, List.foldl_cons, List.foldl_nil, hp]

/-- A byte read in plain storage gives what memory holds after the other masters' turn (R54, R60). -/
theorem memRead_byte_plain (s : State) (a : Addr) (sp : Space) (h : s.readsPlain a 1 sp) :
    s.memRead a .byte sp = .ok ((s.busTurn.byteAt a).setWidth 32) s.busTurn := by
  have map : s.busTurn.mapAt a false sp = s.mapAt a false sp :=
    mapAt_congr s.busTurn_memMap s.busTurn_addrBits (busStep_busTurn s).super a false sp
  have plain : s.busTurn.mapAt a false sp = .ram ∨ s.busTurn.mapAt a false sp = .rom := by
    rw [map]
    simpa using h 0 Nat.one_pos
  have made : s.anyFault a false sp Size.byte.bytes = false := s.anyFault_readsPlain a sp _ h
  unfold State.memRead
  rw [if_neg (not_oddFor_of_aligned (.inl rfl)), made, if_neg Bool.false_ne_true]
  simp only [State.readByteCycle, s.busTurn.readByte_plain a sp plain]

/-- Settles O12: the byte is read after the turn, and the turn put it there. -/
theorem busMasterWritesAreSeenByTheNextCycle : Obligations.BusMasterWritesAreSeenByTheNextCycle := by
  intro s a b sp rest hw hr
  have turn := busTurn_of_oneByte s a b rest hw
  have there : s.busTurn.byteAt a = b := by
    rw [turn]
    exact Memory.read_write_self s.mem (s.phys a) b
  refine ⟨s.busTurn, ?_, there, ?_⟩
  · rw [memRead_byte_plain s a sp hr, there]
  · rw [turn]

end Sys2Proof.Machine
end

section
/-! PROOFS. Memory (20_memory.md): the bytes a write in plain storage leaves, in memory and for an instruction fetch, and the byte
order of memory, of fetches and of the encoder. -/

namespace Sys2Proof.Machine

/-! ### The bytes of a value -/

/-- The byte of a value of a size that is stored `k` bytes above its address: the most significant one first (R51). -/
def storedByte (sz : Size) (v : Long) (k : Nat) : Byte := v.extractLsb' (8 * (sz.bytes - 1 - k)) 8

theorem extractLsb'_extractLsb'_of_le {w n m : Nat} (x : BitVec w) (i j : Nat) (h : j + m ≤ n) :
    (x.extractLsb' i n).extractLsb' j m = x.extractLsb' (i + j) m := by
  apply BitVec.eq_of_getLsbD_eq
  intro k hk
  have : j + k < n := by omega
  simp [hk, this, Nat.add_assoc]

theorem hiByte_setWidth (v : Long) : hiByte (v.setWidth 16) = v.extractLsb' 8 8 :=
  BitVec.extractLsb'_setWidth_of_le (by decide)

theorem loByte_setWidth (v : Long) : loByte (v.setWidth 16) = v.extractLsb' 0 8 :=
  BitVec.extractLsb'_setWidth_of_le (by decide)

theorem hiByte_hiWord (v : Long) : hiByte (hiWord v) = v.extractLsb' 24 8 :=
  extractLsb'_extractLsb'_of_le v 16 8 (by decide)

theorem loByte_hiWord (v : Long) : loByte (hiWord v) = v.extractLsb' 16 8 :=
  extractLsb'_extractLsb'_of_le v 16 0 (by decide)

theorem hiByte_loWord (v : Long) : hiByte (loWord v) = v.extractLsb' 8 8 :=
  extractLsb'_extractLsb'_of_le v 0 8 (by decide)

theorem loByte_loWord (v : Long) : loByte (loWord v) = v.extractLsb' 0 8 :=
  extractLsb'_extractLsb'_of_le v 0 0 (by decide)

/-- The two halves of 16 bits of a value make them up. -/
theorem wordOfBytes_extractLsb' (v : Long) (i : Nat) :
    wordOfBytes (v.extractLsb' (i + 8) 8) (v.extractLsb' i 8) = v.extractLsb' i 16 :=
  BitVec.extractLsb'_append_extractLsb'_eq_extractLsb' rfl

/-- The four bytes of a long make it up. -/
theorem append_bytes_long (v : Long) :
    v.extractLsb' 24 8 ++ v.extractLsb' 16 8 ++ v.extractLsb' 8 8 ++ v.extractLsb' 0 8 = v := by
  rw [← longOfWords_bytes, wordOfBytes_extractLsb' v 16, wordOfBytes_extractLsb' v 0]
  exact longOfWords_hi_lo v

/-! ### What a write leaves -/

/-- `t` is `s` with the bytes of `v` stored at `a`, big-endian: they are in memory and an instruction fetch sees them, and
every other byte is as it was (R51, R54, R62). -/
structure BytesStored (s t : State) (a : Addr) (sz : Size) (v : Long) : Prop where
  memOnly : MemOnly s t
  stored : ∀ k < sz.bytes, t.holdsByte (a + BitVec.ofNat 32 k) (storedByte sz v k)
  others : ∀ b, s.outside a sz.bytes b → s.sameAt t b

theorem storeByte_bytesStored (s : State) (a : Addr) (v : Long) (h : s.mapAt a true .data = .ram) :
    BytesStored s (s.storeByte a (v.setWidth 8)) a .byte v := by
  have view := s.storeByte_fetchView a (v.setWidth 8) h
  have low : v.setWidth 8 = storedByte .byte v 0 := BitVec.setWidth_eq_extractLsb' (by decide)
  rw [s.storeByte_plain a _ h] at view ⊢
  refine ⟨rfl, fun k hk => ?_, fun b out => ?_⟩
  · obtain rfl : k = 0 := Nat.lt_one_iff.1 hk
    rw [BitVec.add_zero, ← low]
    exact ⟨Memory.read_write_self _ _ _, (view (s.phys a)).trans (if_pos rfl)⟩
  · have other : s.phys b ≠ s.phys a := by simpa using out 0 Nat.one_pos
    exact ⟨Memory.read_write_other _ _ _ _ other, (view (s.phys b)).trans (if_neg other)⟩

theorem storeWordCycle_bytesStored (s : State) (a : Addr) (v : Long) (hb : s.busWrites = []) (h : s.writesPlain a 2) :
    BytesStored s (s.storeWordCycle a (v.setWidth 16)) a .word v := by
  obtain ⟨memOnly, high, low, others⟩ := s.storeWordCycle_plain a (v.setWidth 16) hb h
  rw [hiByte_setWidth] at high
  rw [loByte_setWidth] at low
  refine ⟨memOnly, fun k hk => ?_, others⟩
  match k, hk with
  | 0, _ => rw [BitVec.add_zero]; exact high
  | 1, _ => exact low

theorem longWords_consecutive (a : Addr) (v : Long) : Consecutive a (longWords a v) := ⟨rfl, rfl, trivial⟩

theorem storeWords_longWords_bytesStored (s : State) (a : Addr) (v : Long) (hb : s.busWrites = [])
    (h : s.writesPlain a 4) : BytesStored s (s.storeWords (longWords a v)) a .long v := by
  have words := longWords_consecutive a v
  have within {w : PendingWord} (hw : w ∈ longWords a v) (k : Nat) (hk : k < 2) :
      ∃ j < 4, w.addr + BitVec.ofNat 32 k = a + BitVec.ofNat 32 j := by
    obtain ⟨i, hi, e⟩ := words.addr_mem hw
    have : i < 2 := hi
    exact ⟨2 * i + k, by omega, by rw [e, BitVec.add_assoc, BitVec.ofNat_add]⟩
  obtain ⟨memOnly, stored, others⟩ := s.storeWords_plain (longWords a v) hb
    (fun w hw k hk => by
      obtain ⟨j, hj, e⟩ := within hw k hk
      rw [e]
      exact h j hj)
    (words.pairwise s (Nat.le_of_ble_eq_true rfl))
  obtain ⟨b0, b1⟩ := stored _ List.mem_cons_self
  obtain ⟨b2, b3⟩ := stored _ (List.mem_cons_of_mem _ List.mem_cons_self)
  rw [hiByte_hiWord] at b0
  rw [loByte_hiWord] at b1
  rw [hiByte_loWord] at b2
  rw [loByte_loWord, add_two_one] at b3
  refine ⟨memOnly, fun k hk => ?_, fun b out => others b fun w hw k hk => ?_⟩
  · match k, hk with
    | 0, _ => rw [BitVec.add_zero]; exact b0
    | 1, _ => exact b1
    | 2, _ => exact b2
    | 3, _ => exact b3
  · obtain ⟨j, hj, e⟩ := within hw k hk
    rw [e]
    exact out j hj

/-- A write in plain storage with no other bus master at work completes and stores the value's bytes (R51, R54, R62). -/
theorem memWrite_bytesStored (s : State) (a : Addr) (sz : Size) (v : Long) (hb : s.busWrites = [])
    (ha : alignedFor sz a) (h : s.writesPlain a sz.bytes) :
    ∃ t, s.memWrite a sz v = .ok () t ∧ BytesStored s t a sz v := by
  unfold State.memWrite
  rw [if_neg (not_oddFor_of_aligned ha), s.anyFault_writesPlain a _ h, if_neg Bool.false_ne_true]
  cases sz with
  | byte =>
    refine ⟨_, rfl, ?_⟩
    rw [State.storeByteCycle, s.busTurn_quiet hb]
    exact storeByte_bytesStored s a v (by simpa using h 0 Nat.one_pos)
  | word => exact ⟨_, rfl, storeWordCycle_bytesStored s a v hb h⟩
  | long =>
    refine ⟨_, rfl, ?_⟩
    rw [s.storeWordsFree_quiet _ hb]
    exact storeWords_longWords_bytesStored s a v hb h

/-! ### Fetching what may be held -/

/-- A byte fetched from plain storage is what the instruction stream shows, and it is held no more (R62). -/
theorem fetchByte_streamAt (s : State) (a : Addr)
    (h : s.mapAt a false .prog = .ram ∨ s.mapAt a false .prog = .rom) :
    s.fetchByte a = (s.streamAt a, { s with held := dropCell s.held (s.phys a) }) := by
  rcases h with h | h <;> simp only [State.fetchByte, h, State.streamAt]

/-- Fetching one byte leaves what the stream shows of another. -/
theorem streamAt_dropCell (s : State) (a b : Addr) (h : s.phys b ≠ s.phys a) :
    { s with held := dropCell s.held (s.phys a) : State }.streamAt b = s.streamAt b := by
  change Option.getD (findCell (dropCell s.held (s.phys a)) (s.phys b)) (s.mem.read (s.phys b)) = _
  rw [findCell_dropCell, if_neg h]
  rfl

/-- `Fetch16` in plain storage, whatever is held (R54, R62). -/
theorem fetch16_streamAt (s : State) (a : Addr) (hb : s.busWrites = []) (ha : a.getLsbD 0 = false)
    (h : s.readsPlain a 2 .prog) :
    ∃ u, s.fetch16 a = .ok (wordOfBytes (s.streamAt a) (s.streamAt (a + 1#32))) u := by
  have h0 : s.mapAt a false .prog = .ram ∨ s.mapAt a false .prog = .rom := by simpa using h 0 Nat.two_pos
  have next : s.phys (a + 1#32) ≠ s.phys a := (s.phys_ne_add a 1#32 (by decide) (by decide)).symm
  have low := fetchByte_streamAt { s with held := dropCell s.held (s.phys a) } (a + 1#32) (h 1 Nat.one_lt_two)
  refine ⟨(s.fetchCycle a).2, ?_⟩
  rw [State.fetch16, ha, if_neg Bool.false_ne_true, s.anyFault_readsPlain a .prog 2 h, if_neg Bool.false_ne_true]
  simp only [State.fetchCycle, s.busTurn_quiet hb, fetchByte_streamAt s a h0, low, streamAt_dropCell s a _ next]

/-! ### Big-endian memory -/

/-- Reads and fetches of the bytes of a long that is in memory and in the instruction stream (R51). -/
theorem reads_of_longStored (t : State) (a : Addr) (v : Long) (hb : t.busWrites = []) (ha : a.getLsbD 0 = false)
    (data : t.readsPlain a 4 .data) (prog : t.readsPlain a 4 .prog)
    (stored : ∀ k < 4, t.holdsByte (a + BitVec.ofNat 32 k) (storedByte .long v k)) :
    t.memRead a .byte .data = .ok ((v.extractLsb' 24 8).setWidth 32) t
      ∧ t.memRead (a + 3#32) .byte .data = .ok ((v.extractLsb' 0 8).setWidth 32) t
      ∧ t.memRead a .word .data = .ok ((v.extractLsb' 16 16).setWidth 32) t
      ∧ t.memRead (a + 2#32) .word .data = .ok ((v.extractLsb' 0 16).setWidth 32) t
      ∧ t.memRead a .long .data = .ok v t
      ∧ (∃ u, t.fetch16 a = .ok (v.extractLsb' 16 16) u)
      ∧ (∃ u, t.fetch16 (a + 2#32) = .ok (v.extractLsb' 0 16) u) := by
  obtain ⟨m0, f0⟩ : t.holdsByte a (v.extractLsb' 24 8) := by
    have lowest := stored 0 (by decide)
    rw [BitVec.add_zero] at lowest
    exact lowest
  obtain ⟨m1, f1⟩ : t.holdsByte (a + 1#32) (v.extractLsb' 16 8) := stored 1 (by decide)
  obtain ⟨m2, f2⟩ : t.holdsByte (a + 2#32) (v.extractLsb' 8 8) := stored 2 (by decide)
  obtain ⟨m3, f3⟩ : t.holdsByte (a + 2#32 + 1#32) (v.extractLsb' 0 8) := by
    rw [add_two_one]
    exact stored 3 (by decide)
  have part {sp : Space} (h : t.readsPlain a 4 sp) (j n : Nat) (hn : j + n ≤ 4) :
      t.readsPlain (a + BitVec.ofNat 32 j) n sp := fun k hk => by
    rw [BitVec.add_assoc, ← BitVec.ofNat_add]
    exact h (j + k) (by omega)
  have start {sp : Space} (h : t.readsPlain a 4 sp) (n : Nat) (hn : n ≤ 4) : t.readsPlain a n sp :=
    fun k hk => h k (by omega)
  have even2 := even_add_two a ha
  refine ⟨?_, ?_, ?_, ?_, ?_, ?_, ?_⟩
  · rw [memRead_plain t a .byte .data hb (.inl rfl) (start data 1 (by decide)), State.valueAt, m0]
  · rw [memRead_plain t _ .byte .data hb (.inl rfl) (part data 3 1 (by decide)), State.valueAt, ← add_two_one, m3]
  · rw [memRead_plain t a .word .data hb (.inr ha) (start data 2 (by decide)), State.valueAt, m0, m1]
    exact congrArg (fun w => Access.ok (BitVec.setWidth 32 w) t) (wordOfBytes_extractLsb' v 16)
  · rw [memRead_plain t _ .word .data hb (.inr even2) (part data 2 2 (by decide)), State.valueAt, m2, m3]
    exact congrArg (fun w => Access.ok (BitVec.setWidth 32 w) t) (wordOfBytes_extractLsb' v 0)
  · rw [memRead_plain t a .long .data hb (.inr ha) data, State.valueAt, m0, m1, m2, ← add_two_one, m3,
      append_bytes_long]
  · obtain ⟨u, e⟩ := fetch16_streamAt t a hb ha (start prog 2 (by decide))
    rw [f0, f1, wordOfBytes_extractLsb' v 16] at e
    exact ⟨u, e⟩
  · obtain ⟨u, e⟩ := fetch16_streamAt t (a + 2#32) hb even2 (part prog 2 2 (by decide))
    rw [f2, f3, wordOfBytes_extractLsb' v 0] at e
    exact ⟨u, e⟩

/-- An Absolute Long operand ends an instruction, high word first (R51, R129). -/
theorem encode_drop_absLong (v : Long) (i : Instr) (sz : Size) (off : Nat)
    (h : operandOf i = some (sz, .absLong v, off)) :
    (encode i).drop (off / 2) = [hiWord v, loWord v] := by
  unfold operandOf at h
  unfold encode
  cases hi : i.shape
  case toCcr => simp [hi] at h
  case toSr => simp [hi] at h
  all_goals
    simp only [hi, Option.some.injEq, Prod.mk.injEq] at h
    obtain ⟨rfl, rfl, rfl⟩ := h
  case immToEa o z data => cases z <;> rfl
  all_goals rfl

/-- Settles O8: the four bytes a long write leaves answer every narrower read and fetch, and the encoder and the decoder
put the high word first. -/
theorem memoryIsBigEndian : Obligations.MemoryIsBigEndian := by
  refine ⟨fun s a v hb ha hw data prog => ?_, fun v ea i hi => ?_, fun v n i hi => ?_, encode_drop_absLong,
    fun hi lo ws sz => ⟨rfl, rfl, rfl⟩, fun w ws => rfl⟩
  · obtain ⟨t, written, memOnly, stored, _⟩ := memWrite_bytesStored s a .long v hb (.inr ha) hw
    have plain {sp : Space} (h : s.readsPlain a 4 sp) : t.readsPlain a 4 sp := fun k hk => by
      rw [memOnly.mapAt]
      exact h k hk
    exact ⟨t, written, reads_of_longStored t a v (memOnly.busWrites.trans hb) ha (plain data) (plain prog) stored⟩
  · simp only [List.mem_cons, List.not_mem_nil, or_false] at hi
    rcases hi with rfl | rfl | rfl <;> rfl
  · simp only [List.mem_cons, List.not_mem_nil, or_false] at hi
    rcases hi with rfl | rfl <;> rfl

end Sys2Proof.Machine
end

section
/-! PROOFS. Memory (20_memory.md): what an instruction fetch sees of a store into the prefetch window (R62, R274). -/

namespace Sys2Proof.Machine

/-! ### The bytes the hazard may keep -/

/-- `p` is one of the `n` bytes of a store at `a`, in the prefetch window and in storage (R274). -/
def State.windowByte (s : State) (pc0 : Addr) (len : Nat) (a : Addr) (n p : Nat) : Prop :=
  ∃ k < n, s.inWindow pc0 len (a + BitVec.ofNat 32 k) = true
    ∧ s.mapAt (a + BitVec.ofNat 32 k) true .data = .ram ∧ s.phys (a + BitVec.ofNat 32 k) = p

/-- `windowCells` lists these bytes, each as a fetch sees it now. -/
theorem mem_windowCells_iff (s : State) (pc0 : Addr) (len : Nat) (a : Addr) (n : Nat) (c : Host.Cell) :
    c ∈ s.windowCells pc0 len a n ↔ s.windowByte pc0 len a n c.1 ∧ c.2 = s.fetchView c.1 := by
  refine ⟨fun h => ⟨?_, (windowCells_old s pc0 len a n c h).1⟩, ?_⟩
  · induction n with
    | zero => exact absurd h List.not_mem_nil
    | succ n ih =>
      have earlier (h : c ∈ s.windowCells pc0 len a n) : s.windowByte pc0 len a (n + 1) c.1 :=
        (ih h).imp fun _ hk => ⟨Nat.lt_succ_of_lt hk.1, hk.2⟩
      unfold State.windowCells at h
      dsimp only at h
      split at h
      · rename_i last
        simp only [Bool.and_eq_true, beq_iff_eq] at last
        rcases List.mem_cons.1 h with rfl | h
        · exact ⟨n, Nat.lt_succ_self n, last.1, last.2, rfl⟩
        · exact earlier h
      · exact earlier h
  · rintro ⟨⟨k, hk, window, ram, hp⟩, old⟩
    obtain rfl : c = (s.phys (a + BitVec.ofNat 32 k), s.fetchView (s.phys (a + BitVec.ofNat 32 k))) :=
      Prod.ext hp.symm (old.trans (by rw [hp]))
    induction n with
    | zero => exact absurd hk (Nat.not_lt_zero k)
    | succ n ih =>
      unfold State.windowCells
      rcases Nat.lt_succ_iff_lt_or_eq.1 hk with earlier | rfl
      · dsimp only
        split
        · exact List.mem_cons_of_mem _ (ih earlier)
        · exact ih earlier
      · simp [window, ram]

/-- Cells put in one after the other, their values a function of the address: an address of one of them reads as that
function says, another as before. -/
theorem findCell_foldl_putCell (f : Nat → Byte) (cs h : List Host.Cell) (p : Nat) (hf : ∀ c ∈ cs, c.2 = f c.1) :
    findCell (cs.foldl (fun h c => putCell h c.1 c.2) h) p
      = if p ∈ cs.map Prod.fst then some (f p) else findCell h p := by
  induction cs generalizing h with
  | nil => rfl
  | cons c cs ih =>
    rw [List.foldl_cons, ih _ fun x hx => hf x (List.mem_cons_of_mem _ hx), findCell_putCell, List.map_cons]
    by_cases later : p ∈ cs.map Prod.fst
    · simp [later]
    · by_cases here : p = c.1
      · simp [here, hf c List.mem_cons_self]
      · simp [later, here]

/-- What a fetch sees once such cells are held (R62). -/
theorem fetchView_hold (s : State) (f : Nat → Byte) (cs : List Host.Cell) (n p : Nat) (hf : ∀ c ∈ cs, c.2 = f c.1) :
    { s with held := cs.foldl (fun h c => putCell h c.1 c.2) s.held, draws := n : State }.fetchView p
      = if p ∈ cs.map Prod.fst then f p else s.fetchView p := by
  change (findCell (cs.foldl _ s.held) p).getD (s.mem.read p) = _
  rw [findCell_foldl_putCell f cs s.held p hf]
  split <;> rfl

/-- What a fetch sees after the hazard (R274): everything new, or the window's bytes of the store as they were before it and
every other byte new. -/
theorem holdPrefetched_fetchView (before after : State) (pc0 : Addr) (len : Nat) (a : Addr) (n : Nat) :
    (∀ p, (holdPrefetched before after pc0 len a n).fetchView p = after.fetchView p)
    ∨ ∀ p, (before.windowByte pc0 len a n p →
        (holdPrefetched before after pc0 len a n).fetchView p = before.fetchView p)
      ∧ (¬ before.windowByte pc0 len a n p →
        (holdPrefetched before after pc0 len a n).fetchView p = after.fetchView p) := by
  unfold holdPrefetched
  dsimp only
  split
  · exact .inl fun p => rfl
  · cases Config.freeFlag after.draws with
    | false => exact .inl fun p => rfl
    | true =>
      refine .inr fun p => ?_
      have cell (c : Host.Cell) :
          c ∈ (before.windowCells pc0 len a n).filter (fun c => after.fetchView c.1 != c.2)
            ↔ (before.windowByte pc0 len a n c.1 ∧ c.2 = before.fetchView c.1) ∧ after.fetchView c.1 ≠ c.2 := by
        rw [List.mem_filter, mem_windowCells_iff, bne_iff_ne]
      have view := fetchView_hold after before.fetchView _ (after.draws + 1) p fun c hc => ((cell c).1 hc).1.2
      have listed : p ∈ ((before.windowCells pc0 len a n).filter (fun c => after.fetchView c.1 != c.2)).map Prod.fst
          ↔ before.windowByte pc0 len a n p ∧ after.fetchView p ≠ before.fetchView p := by
        simp only [List.mem_map, cell]
        refine ⟨?_, fun h => ⟨(p, before.fetchView p), ⟨⟨h.1, rfl⟩, h.2⟩, rfl⟩⟩
        rintro ⟨c, ⟨⟨window, old⟩, changed⟩, rfl⟩
        exact ⟨window, old ▸ changed⟩
      rw [cond_true, view]
      refine ⟨fun window => ?_, fun out => if_neg fun h => out (listed.1 h).1⟩
      by_cases same : after.fetchView p = before.fetchView p
      · rw [if_neg fun h => (listed.1 h).2 same, same]
      · rw [if_pos (listed.2 ⟨window, same⟩)]

/-- The window is one of physical addresses. -/
theorem inWindow_congr (s : State) (pc0 : Addr) (len : Nat) {a b : Addr} (h : s.phys a = s.phys b) :
    s.inWindow pc0 len a = s.inWindow pc0 len b := by
  simp only [State.inWindow, h]

/-- The hazard leaves memory as it is. -/
theorem holdPrefetched_mem (before after : State) (pc0 : Addr) (len : Nat) (a : Addr) (n : Nat) :
    (holdPrefetched before after pc0 len a n).mem = after.mem := by
  obtain ⟨_, _, e, _⟩ := holdPrefetched_cases before after pc0 len a n
  rw [e]

theorem holdPrefetched_phys (before after : State) (pc0 : Addr) (len : Nat) (a : Addr) (n : Nat) (b : Addr) :
    (holdPrefetched before after pc0 len a n).phys b = after.phys b := by
  obtain ⟨_, _, e, _⟩ := holdPrefetched_cases before after pc0 len a n
  rw [e]
  rfl

theorem holdPrefetched_byteAt (before after : State) (pc0 : Addr) (len : Nat) (a : Addr) (n : Nat) (b : Addr) :
    (holdPrefetched before after pc0 len a n).byteAt b = after.byteAt b := by
  rw [State.byteAt, holdPrefetched_mem, holdPrefetched_phys, State.byteAt]

/-- `WriteLoc` to plain memory is the stored bytes and then the hazard (R135, R274). -/
theorem writeLoc_bytesStored {s t : State} {a : Addr} {sp : Space} {sz : Size} {v : Long} {pc0 : Addr} {len : Nat}
    (hb : s.busWrites = []) (ha : alignedFor sz a) (hw : s.writesPlain a sz.bytes)
    (h : writeLoc (.mem a sp) sz v pc0 len s = .ok () t) :
    ∃ u, BytesStored s u a sz v ∧ t = holdPrefetched s u pc0 len a sz.bytes := by
  obtain ⟨u, written, stored⟩ := memWrite_bytesStored s a sz v hb ha hw
  simp only [writeLoc, written, Access.ok.injEq, true_and] at h
  exact ⟨u, stored, h.symm⟩

/-- Settles O13: a stored byte outside the window and a byte not stored to are no byte the hazard may keep. -/
theorem prefetchWindowShowsOldOrNewBytes : Obligations.PrefetchWindowShowsOldOrNewBytes := by
  intro s t a sp sz v pc0 len hb ha hw h
  obtain ⟨u, ⟨memOnly, stored, others⟩, rfl⟩ := writeLoc_bytesStored hb ha hw h
  have new (k : Nat) (hk : k < sz.bytes) :
      u.fetchView (s.phys (a + BitVec.ofNat 32 k)) = u.byteAt (a + BitVec.ofNat 32 k) := by
    obtain ⟨inMemory, inStream⟩ := stored k hk
    rw [← memOnly.phys]
    exact inStream.trans inMemory.symm
  have hazard := holdPrefetched_fetchView s u pc0 len a sz.bytes
  have outsideWindow (p : Nat) (hp : ¬ s.windowByte pc0 len a sz.bytes p) :
      (holdPrefetched s u pc0 len a sz.bytes).fetchView p = u.fetchView p :=
    hazard.elim (fun allNew => allNew p) fun old => (old p).2 hp
  refine ⟨fun k hk out => ?_, ?_, fun b out => ⟨?_, ?_⟩⟩
  · rw [holdPrefetched_byteAt, outsideWindow _ ?_, new k hk]
    rintro ⟨j, _, inside, _, same⟩
    rw [inWindow_congr s pc0 len same, out] at inside
    exact Bool.false_ne_true inside
  · refine hazard.imp (fun allNew k hk => ?_) fun old k hk inside => ?_
    · rw [allNew, holdPrefetched_byteAt, new k hk]
    · exact (old _).1 ⟨k, hk, inside, hw k hk, rfl⟩
  · rw [holdPrefetched_byteAt]
    exact (others b out).1
  · rw [State.streamAt, holdPrefetched_phys, outsideWindow _ ?_]
    · exact (others b out).2
    · rintro ⟨j, hj, _, _, same⟩
      exact out j hj ((memOnly.phys b).symm.trans same.symm)

end Sys2Proof.Machine
end

section
/-! PROOFS. Encoding (30_encoding.md): the fields of an operation word, the word a form is read from (`OpForm.code`),
and what `classify` answers for it (R82 to R90). -/

namespace Sys2Proof

/-! ### Fields of an operation word -/

/-- The size field (R86, R88, R89) is read as it is written. -/
theorem sizeField_eq_some_iff {ss : Nat} {sz : Size} : sizeField ss = some sz ↔ ss = sz.code := by
  constructor
  · intro h
    unfold sizeField at h
    split at h <;> cases h <;> rfl
  · rintro rfl
    cases sz <;> rfl

theorem sizeField_eq_none_iff {ss : Nat} (h : ss < 4) : sizeField ss = none ↔ ss = 3 := by
  interval_cases ss <;> simp [sizeField]

theorem Size.code_lt (sz : Size) : sz.code < 3 := by cases sz <;> decide

/-- The number of an operation in the operation field of format I (R86). -/
def LogicOp.immCode : LogicOp → Nat
  | .or => 0
  | .and => 1
  | .eor => 5

theorem LogicOp.immBase_eq (o : LogicOp) : o.immBase = 512 * o.immCode := by cases o <;> rfl

theorem LogicOp.immCode_lt (o : LogicOp) : o.immCode < 8 := by cases o <;> decide

/-- The operation field of format I (R86) is read as it is written. -/
theorem immOpField_eq_some_iff {x : Nat} {o : LogicOp} : immOpField x = some o ↔ x = o.immCode := by
  constructor
  · intro h
    unfold immOpField at h
    split at h <;> cases h <;> rfl
  · rintro rfl
    cases o <;> rfl

/-- The six bits an addressing mode is read from (R82). -/
def EaField.code : EaField → Nat
  | .dreg n => n.val
  | .ind n => 16 + n.val
  | .postinc n => 24 + n.val
  | .predec n => 32 + n.val
  | .disp n => 40 + n.val
  | .index n => 48 + n.val
  | .absShort => 56
  | .absLong => 57
  | .pcDisp => 58
  | .pcIndex => 59
  | .imm => 60

theorem EaField.code_lt (m : EaField) : m.code < 61 := by
  cases m <;> simp only [EaField.code] <;> omega

/-- The mode table of R82 answers every mode for its own six bits. -/
theorem eaField_code (m : EaField) : eaField (m.code / 8) (m.code % 8) = some m := by
  cases m with
  | dreg n | ind n | postinc n | predec n | disp n | index n => revert n; decide
  | absShort | absLong | pcDisp | pcIndex | imm => rfl

/-- The mode table of R82, read in both directions. -/
theorem eaField_eq_some_iff {w : Nat} {m : EaField} : eaField (w / 8 % 8) (w % 8) = some m ↔ w % 64 = m.code := by
  constructor
  · intro h
    unfold eaField at h
    split at h
    case h_7 => split at h <;> cases h <;> simp only [EaField.code] <;> omega
    all_goals cases h <;> simp only [EaField.code, regNumber] <;> omega
  · intro h
    have mode : w / 8 % 8 = m.code / 8 := by omega
    have reg : w % 8 = m.code % 8 := by omega
    rw [mode, reg, eaField_code]

/-! ### The word of a form -/

/-- The operation word of each form (R86 to R89). -/
def OpForm.code : OpForm → Nat
  | .toCcr o => o.immBase + 0x3C
  | .toSr o => o.immBase + 0x7C
  | .immToEa o sz m => o.immBase + sz.code * 64 + m.code
  | .notEa sz m => 0x4600 + sz.code * 64 + m.code
  | .orToReg sz dn m => 0x8000 + dn.val * 512 + sz.code * 64 + m.code
  | .andToReg sz dn m => 0xC000 + dn.val * 512 + sz.code * 64 + m.code
  | .orToEa sz dn m => 0x8000 + dn.val * 512 + 256 + sz.code * 64 + m.code
  | .andToEa sz dn m => 0xC000 + dn.val * 512 + 256 + sz.code * 64 + m.code
  | .eorToEa sz dn m => 0xB000 + dn.val * 512 + 256 + sz.code * 64 + m.code

/-- The operand is in the category its position takes (R120). -/
def OpForm.wf : OpForm → Bool
  | .toCcr _ => true
  | .toSr _ => true
  | .immToEa _ _ m => m.dataAlterable
  | .notEa _ m => m.dataAlterable
  | .orToReg _ _ _ => true
  | .andToReg _ _ _ => true
  | .orToEa _ _ m => m.alterableMemory
  | .andToEa _ _ m => m.alterableMemory
  | .eorToEa _ _ m => m.dataAlterable

theorem EaField.le_code_of_alterableMemory {m : EaField} (h : m.alterableMemory = true) : 16 ≤ m.code := by
  cases m <;> simp [EaField.alterableMemory] at h <;> simp only [EaField.code] <;> omega

theorem EaField.code_of_dataAlterable {m : EaField} (h : m.dataAlterable = true) :
    m.code < 8 ∨ 16 ≤ m.code ∧ m.code < 58 := by
  cases m <;> simp [EaField.dataAlterable, EaField.alterableMemory] at h <;> simp only [EaField.code] <;> omega

theorem regNumber_eq_iff {x : Nat} {n : Fin 8} : regNumber x = n ↔ x % 8 = n.val := Fin.ext_iff

/-! ### What `classify` answers for a word -/

/-- An operand field answers a form exactly if it is a mode of the category. -/
theorem classifyEa_eq_form_iff {w : Nat} {ok : EaField → Bool} {g : EaField → OpForm} {f : OpForm} :
    classifyEa (eaField (w / 8 % 8) (w % 8)) ok g = .form f ↔ ∃ m, w % 64 = m.code ∧ ok m = true ∧ g m = f := by
  simp only [← eaField_eq_some_iff]
  cases eaField (w / 8 % 8) (w % 8) with
  | none => simp [classifyEa]
  | some m => cases hm : ok m <;> simp [classifyEa, hm]

theorem classifyImmediate_form {w : Nat} {f : OpForm} (hw : w < 4096) (h : classifyImmediate w = .form f) :
    f.wf = true ∧ w = f.code := by
  unfold classifyImmediate at h
  split at h
  · cases h
  split at h
  · cases h
  next dir _ o ho =>
  have base := o.immBase_eq
  rw [immOpField_eq_some_iff] at ho
  split at h
  · cases h
    exact ⟨rfl, by simp only [OpForm.code]; omega⟩
  split at h
  · cases h
    exact ⟨rfl, by simp only [OpForm.code]; omega⟩
  split at h
  · cases h
  next sz hsz =>
  rw [sizeField_eq_some_iff] at hsz
  obtain ⟨m, hm, hok, rfl⟩ := classifyEa_eq_form_iff.1 h
  exact ⟨hok, by simp only [OpForm.code]; omega⟩

theorem classifyNot_form {w : Nat} {f : OpForm} (hw : w / 4096 = 4) (h : classifyNot w = .form f) :
    f.wf = true ∧ w = f.code := by
  unfold classifyNot at h
  split at h
  case isFalse => cases h
  split at h
  · cases h
  next sz hsz =>
  rw [sizeField_eq_some_iff] at hsz
  obtain ⟨m, hm, hok, rfl⟩ := classifyEa_eq_form_iff.1 h
  exact ⟨hok, by simp only [OpForm.code]; omega⟩

/-- In lines 1000 and 1100 the forms of `toReg` and `toEa` are read, and no others. -/
theorem classifyOrAnd_form {w : Nat} {toReg toEa : Size → Fin 8 → EaField → OpForm} {regPattern : Size → Nat → OpClass}
    {f : OpForm} (hr : ∀ sz mode, regPattern sz mode ≠ .form f) (h : classifyOrAnd w toReg toEa regPattern = .form f) :
    ∃ sz dn m, w % 4096 / 512 = dn.val ∧ w / 64 % 4 = sz.code ∧ w % 64 = m.code ∧
      (w / 256 % 2 = 0 ∧ toReg sz dn m = f ∨ w / 256 % 2 = 1 ∧ m.alterableMemory = true ∧ toEa sz dn m = f) := by
  unfold classifyOrAnd at h
  split at h
  · cases h
  next sz hsz =>
  rw [sizeField_eq_some_iff] at hsz
  have dn : w % 4096 / 512 = (regNumber (w / 512)).val := by simp only [regNumber]; omega
  split at h
  next dir =>
    obtain ⟨m, hm, -, rfl⟩ := classifyEa_eq_form_iff.1 h
    exact ⟨sz, _, m, dn, hsz, hm, .inl ⟨dir, rfl⟩⟩
  next dir =>
    split at h
    · exact absurd h (hr _ _)
    obtain ⟨m, hm, hok, rfl⟩ := classifyEa_eq_form_iff.1 h
    exact ⟨sz, _, m, dn, hsz, hm, .inr ⟨by omega, hok, rfl⟩⟩

theorem classifyEor_form {w : Nat} {f : OpForm} (hw : w / 4096 = 11) (h : classifyEor w = .form f) :
    f.wf = true ∧ w = f.code := by
  unfold classifyEor at h
  split at h
  · cases h
  next sz hsz =>
  rw [sizeField_eq_some_iff] at hsz
  split at h
  · cases h
  split at h
  · cases h
  obtain ⟨m, hm, hok, rfl⟩ := classifyEa_eq_form_iff.1 h
  exact ⟨hok, by simp only [OpForm.code, regNumber]; omega⟩

theorem classifyOrRegister_ne_form (sz : Size) (f : OpForm) : classifyOrRegister sz ≠ .form f := by
  cases sz <;> simp [classifyOrRegister]

theorem classifyAndRegister_ne_form (sz : Size) (mode : Nat) (f : OpForm) : classifyAndRegister sz mode ≠ .form f := by
  unfold classifyAndRegister
  split
  · simp
  · simp
  · split <;> simp

/-- A word that `classify` reads as a form is the word of that form, and its operand is in the category (R90). -/
theorem classify_form {op : Word} {f : OpForm} (h : classify op = .form f) : f.wf = true ∧ op.toNat = f.code := by
  unfold classify at h
  split at h
  next line => exact classifyImmediate_form (by omega) h
  next line => exact classifyNot_form line h
  next line =>
    obtain ⟨sz, dn, m, hdn, hsz, hm, ⟨dir, rfl⟩ | ⟨dir, ok, rfl⟩⟩ :=
      classifyOrAnd_form (fun sz _ => classifyOrRegister_ne_form sz f) h
    · exact ⟨rfl, by simp only [OpForm.code]; omega⟩
    · exact ⟨ok, by simp only [OpForm.code]; omega⟩
  next line => exact classifyEor_form line h
  next line =>
    obtain ⟨sz, dn, m, hdn, hsz, hm, ⟨dir, rfl⟩ | ⟨dir, ok, rfl⟩⟩ :=
      classifyOrAnd_form (fun sz mode => classifyAndRegister_ne_form sz mode f) h
    · exact ⟨rfl, by simp only [OpForm.code]; omega⟩
    · exact ⟨ok, by simp only [OpForm.code]; omega⟩
  · cases h

/-! ### What `classify` answers for the word of a form -/

theorem classifyEa_of_code {w : Nat} {m : EaField} {ok : EaField → Bool} (g : EaField → OpForm) (hm : w % 64 = m.code)
    (hok : ok m = true) : classifyEa (eaField (w / 8 % 8) (w % 8)) ok g = .form (g m) :=
  classifyEa_eq_form_iff.2 ⟨m, hm, hok, rfl⟩

theorem classifyImmediate_of_code {w : Nat} {o : LogicOp} {sz : Size} {m : EaField} (h : m.dataAlterable = true)
    (hw : w = (OpForm.immToEa o sz m).code) : classifyImmediate w = .form (.immToEa o sz m) := by
  have base := o.immBase_eq
  have ho := o.immCode_lt
  have hs := sz.code_lt
  have hm := EaField.code_of_dataAlterable h
  simp only [OpForm.code] at hw
  unfold classifyImmediate
  rw [if_neg (by omega), immOpField_eq_some_iff.2 (show w / 512 % 8 = o.immCode by omega)]
  simp only
  rw [if_neg (by omega), if_neg (by omega), sizeField_eq_some_iff.2 (show w / 64 % 4 = sz.code by omega)]
  exact classifyEa_of_code _ (by omega) h

theorem classifyImmediate_toCcr (o : LogicOp) : classifyImmediate (OpForm.toCcr o).code = .form (.toCcr o) := by
  cases o <;> rfl

theorem classifyImmediate_toSr (o : LogicOp) : classifyImmediate (OpForm.toSr o).code = .form (.toSr o) := by
  cases o <;> rfl

theorem classifyNot_of_code {w : Nat} {sz : Size} {m : EaField} (h : m.dataAlterable = true)
    (hw : w = (OpForm.notEa sz m).code) : classifyNot w = .form (.notEa sz m) := by
  have hs := sz.code_lt
  have hm := m.code_lt
  simp only [OpForm.code] at hw
  unfold classifyNot
  rw [if_pos (by omega), sizeField_eq_some_iff.2 (show w / 64 % 4 = sz.code by omega)]
  exact classifyEa_of_code _ (by omega) h

theorem classifyOrAnd_of_toReg {w : Nat} {sz : Size} {dn : Fin 8} {m : EaField}
    {toReg toEa : Size → Fin 8 → EaField → OpForm} {regPattern : Size → Nat → OpClass}
    (hw : w % 4096 = dn.val * 512 + sz.code * 64 + m.code) :
    classifyOrAnd w toReg toEa regPattern = .form (toReg sz dn m) := by
  have hs := sz.code_lt
  have hm := m.code_lt
  have hdn : regNumber (w / 512) = dn := regNumber_eq_iff.2 (by omega)
  unfold classifyOrAnd
  rw [sizeField_eq_some_iff.2 (show w / 64 % 4 = sz.code by omega)]
  simp only
  rw [if_pos (by omega), hdn]
  exact classifyEa_of_code _ (by omega) rfl

theorem classifyOrAnd_of_toEa {w : Nat} {sz : Size} {dn : Fin 8} {m : EaField}
    {toReg toEa : Size → Fin 8 → EaField → OpForm} {regPattern : Size → Nat → OpClass} (h : m.alterableMemory = true)
    (hw : w % 4096 = dn.val * 512 + 256 + sz.code * 64 + m.code) :
    classifyOrAnd w toReg toEa regPattern = .form (toEa sz dn m) := by
  have hs := sz.code_lt
  have hm := m.code_lt
  have mem := EaField.le_code_of_alterableMemory h
  have hdn : regNumber (w / 512) = dn := regNumber_eq_iff.2 (by omega)
  unfold classifyOrAnd
  rw [sizeField_eq_some_iff.2 (show w / 64 % 4 = sz.code by omega)]
  simp only
  rw [if_neg (by omega), if_neg (by omega), hdn]
  exact classifyEa_of_code _ (by omega) h

theorem classifyEor_of_code {w : Nat} {sz : Size} {dn : Fin 8} {m : EaField} (h : m.dataAlterable = true)
    (hw : w = (OpForm.eorToEa sz dn m).code) : classifyEor w = .form (.eorToEa sz dn m) := by
  have hs := sz.code_lt
  have hm := EaField.code_of_dataAlterable h
  simp only [OpForm.code] at hw
  have hdn : regNumber (w / 512) = dn := regNumber_eq_iff.2 (by omega)
  unfold classifyEor
  rw [sizeField_eq_some_iff.2 (show w / 64 % 4 = sz.code by omega)]
  simp only
  rw [if_neg (by omega), if_neg (by omega), hdn]
  exact classifyEa_of_code _ (by omega) h

/-- The first four bits of the word of a form pick the classifier of its line (R90). -/
theorem OpForm.code_line (f : OpForm) : f.code / 4096 =
    match f with
    | .toCcr _ | .toSr _ | .immToEa _ _ _ => 0
    | .notEa _ _ => 4
    | .orToReg _ _ _ | .orToEa _ _ _ => 8
    | .eorToEa _ _ _ => 11
    | .andToReg _ _ _ | .andToEa _ _ _ => 12 := by
  cases f with
  | toCcr o | toSr o => cases o <;> rfl
  | immToEa o sz m =>
    have := o.immBase_eq
    have := o.immCode_lt
    have := sz.code_lt
    have := m.code_lt
    simp only [OpForm.code]
    omega
  | notEa sz m | orToReg sz dn m | andToReg sz dn m | orToEa sz dn m | andToEa sz dn m | eorToEa sz dn m =>
    have := sz.code_lt
    have := m.code_lt
    simp only [OpForm.code]
    omega

/-- The word of a form whose operand is in the category is read as that form (R90). -/
theorem classify_of_code {op : Word} {f : OpForm} (hf : f.wf = true) (h : op.toNat = f.code) :
    classify op = .form f := by
  have line := f.code_line
  unfold classify
  rw [h, line]
  cases f with
  | toCcr o => exact classifyImmediate_toCcr o
  | toSr o => exact classifyImmediate_toSr o
  | immToEa o sz m => exact classifyImmediate_of_code hf rfl
  | notEa sz m => exact classifyNot_of_code hf rfl
  | orToReg sz dn m => exact classifyOrAnd_of_toReg (by simp only [OpForm.code] at line ⊢; omega)
  | andToReg sz dn m => exact classifyOrAnd_of_toReg (by simp only [OpForm.code] at line ⊢; omega)
  | orToEa sz dn m => exact classifyOrAnd_of_toEa hf (by simp only [OpForm.code] at line ⊢; omega)
  | andToEa sz dn m => exact classifyOrAnd_of_toEa hf (by simp only [OpForm.code] at line ⊢; omega)
  | eorToEa sz dn m => exact classifyEor_of_code hf rfl

end Sys2Proof
end

section
/-! PROOFS. Encoding (30_encoding.md): operands and whole instructions as a form and its extension words, and from these
the round trip of encoder and decoder and the lengths (R80 to R91). -/

namespace Sys2Proof

/-! ### Immediates and index words -/

theorem loByte_eq_setWidth (w : Word) : loByte w = w.setWidth 8 := by
  simp [loByte, BitVec.setWidth_eq_extractLsb']

theorem and_mask_byte (v : Long) : v &&& Size.byte.mask = (v.setWidth 8).setWidth 32 := by
  apply BitVec.eq_of_toNat_eq
  have := Nat.and_two_pow_sub_one_eq_mod v.toNat 8
  simp [Size.mask] at this ⊢
  omega

theorem and_mask_word (v : Long) : v &&& Size.word.mask = (v.setWidth 16).setWidth 32 := by
  apply BitVec.eq_of_toNat_eq
  have := Nat.and_two_pow_sub_one_eq_mod v.toNat 16
  simp [Size.mask] at this ⊢
  omega

theorem and_mask_long (v : Long) : v &&& Size.long.mask = v := BitVec.and_allOnes

/-- The immediate of a size is read back from its words, cut to the size (R85). -/
theorem immOfWords_append (sz : Size) (v : Long) (ws : List Word) :
    immOfWords sz (wordsOfImm sz v ++ ws) = v &&& sz.mask := by
  cases sz with
  | byte => simp [immOfWords, wordsOfImm, extWord, loByte_eq_setWidth, and_mask_byte]
  | word => simp [immOfWords, wordsOfImm, extWord, and_mask_word]
  | long => simp [immOfWords, wordsOfImm, extWord, and_mask_long]

/-- An immediate that is read is a value of the size (R132). -/
theorem immOfWords_and_mask (sz : Size) (ws : List Word) : immOfWords sz ws &&& sz.mask = immOfWords sz ws := by
  cases sz with
  | byte => simp [immOfWords, and_mask_byte]
  | word => simp [immOfWords, and_mask_word]
  | long => exact and_mask_long _

theorem wordsOfImm_length (sz : Size) (v : Long) : (wordsOfImm sz v).length = immWords sz := by cases sz <;> rfl

theorem immBytes_eq (sz : Size) : immBytes sz = 2 * immWords sz := by cases sz <;> rfl

theorem toNat_append_eq {m n : Nat} (x : BitVec m) (y : BitVec n) : (x ++ y).toNat = x.toNat * 2 ^ n + y.toNat := by
  rw [BitVec.toNat_append, Nat.shiftLeft_eq, Nat.mul_comm, Nat.two_pow_add_eq_or_of_lt y.isLt]

/-- The fields of the brief extension word (R84) as digits of a number. -/
theorem wordOfIndex_toNat (x : IndexWord) : (wordOfIndex x).toNat =
    x.isAddr.toNat * 32768 + x.reg.val * 4096 + x.isLong.toNat * 2048 + x.disp.toNat := by
  change (BitVec.ofBool x.isAddr ++ BitVec.ofNat 3 x.reg.val ++ BitVec.ofBool x.isLong ++ 0#3 ++ x.disp).toNat = _
  simp only [toNat_append_eq, BitVec.toNat_ofBool, BitVec.toNat_ofNat]
  omega

/-- The brief extension word is read back as it is written (R84). -/
theorem indexOfWord_wordOfIndex (x : IndexWord) : indexOfWord (wordOfIndex x) = x := by
  have digits := wordOfIndex_toNat x
  have addrBit := x.isAddr.toNat_lt
  have longBit := x.isLong.toNat_lt
  have addr : (wordOfIndex x).getLsbD 15 = x.isAddr := by
    rw [BitVec.getLsbD, digits, Nat.testBit_eq_decide_div_mod_eq]
    cases x.isAddr <;> simp <;> omega
  have long : (wordOfIndex x).getLsbD 11 = x.isLong := by
    rw [BitVec.getLsbD, digits, Nat.testBit_eq_decide_div_mod_eq]
    cases x.isLong <;> simp <;> omega
  have disp : loByte (wordOfIndex x) = x.disp := by
    apply BitVec.eq_of_toNat_eq
    rw [loByte_eq_setWidth, BitVec.toNat_setWidth, digits]
    omega
  have reg : regNumber ((wordOfIndex x).toNat / 4096) = x.reg := by
    rw [digits, regNumber_eq_iff]
    omega
  unfold indexOfWord
  rw [addr, long, disp, reg]

/-! ### Operands -/

/-- The mode of an operand, without what its extension words hold (R82). -/
def Ea.mode : Ea → EaField
  | .dreg n => .dreg n
  | .ind n => .ind n
  | .postinc n => .postinc n
  | .predec n => .predec n
  | .disp n _ => .disp n
  | .index n _ => .index n
  | .absShort _ => .absShort
  | .absLong _ => .absLong
  | .pcDisp _ => .pcDisp
  | .pcIndex _ => .pcIndex
  | .imm _ => .imm

@[simp] theorem Ea.mode_dataAlterable (ea : Ea) : ea.mode.dataAlterable = ea.dataAlterable := by cases ea <;> rfl

@[simp] theorem Ea.mode_alterableMemory (ea : Ea) : ea.mode.alterableMemory = ea.alterableMemory := by cases ea <;> rfl

theorem Ea.field_eq (ea : Ea) : ea.field = ea.mode.code := by
  cases ea <;> simp [Ea.mode, EaField.code, Ea.field, Ea.modeReg]

theorem Ea.dataSource_of_dataAlterable {ea : Ea} (sz : Size) (h : ea.dataAlterable = true) :
    ea.dataSource sz = true := by
  cases ea with
  | imm v => cases h
  | _ => rfl

theorem Ea.dataAlterable_of_alterableMemory {ea : Ea} (h : ea.alterableMemory = true) : ea.dataAlterable = true := by
  unfold Ea.dataAlterable
  split
  · rfl
  · exact h

theorem Ea.extension_length (sz : Size) (ea : Ea) : (ea.extension sz).length = ea.mode.words sz := by
  cases ea with
  | imm v => exact wordsOfImm_length sz v
  | _ => rfl

/-- The table of R95 in bytes is the one in words. -/
theorem Ea.extBytes_eq (sz : Size) (ea : Ea) : ea.extBytes sz = 2 * ea.mode.words sz := by
  cases ea with
  | imm v => exact immBytes_eq sz
  | _ => rfl

@[simp] theorem eaOfWords_mode (sz : Size) (ws : List Word) (m : EaField) : (eaOfWords sz ws m).mode = m := by
  cases m <;> rfl

theorem eaOfWords_dataSource (sz : Size) (ws : List Word) (m : EaField) : (eaOfWords sz ws m).dataSource sz = true := by
  cases m with
  | imm => exact beq_iff_eq.2 (immOfWords_and_mask sz ws)
  | _ => rfl

/-- An operand is read back from its mode and its extension words (R82 to R85). -/
theorem eaOfWords_extension {sz : Size} {ea : Ea} (h : ea.dataSource sz = true) :
    eaOfWords sz (ea.extension sz) ea.mode = ea := by
  cases ea with
  | dreg n | ind n | postinc n | predec n | disp n d | absShort w | pcDisp d => rfl
  | index n x | pcIndex x => simp [eaOfWords, Ea.mode, Ea.extension, extWord, indexOfWord_wordOfIndex]
  | absLong a => simp [eaOfWords, Ea.mode, Ea.extension, extWord]
  | imm v =>
    have read := immOfWords_append sz v []
    rw [List.append_nil, beq_iff_eq.1 h] at read
    exact congrArg Ea.imm read

/-! ### Instructions by the parts they are made of -/

theorem mkToCcr_shape (o : LogicOp) (data : Byte) : (mkToCcr o data).shape = .toCcr o data := by cases o <;> rfl

theorem mkToSr_shape (o : LogicOp) (data : Word) : (mkToSr o data).shape = .toSr o data := by cases o <;> rfl

theorem mkImmToEa_shape (o : LogicOp) (sz : Size) (data : Long) (ea : Ea) :
    (mkImmToEa o sz data ea).shape = .immToEa o sz (data &&& sz.mask) ea := by
  cases sz with
  | byte => rw [and_mask_byte]; cases o <;> rfl
  | word => rw [and_mask_word]; cases o <;> rfl
  | long => rw [and_mask_long]; cases o <;> rfl

theorem mkNot_shape (sz : Size) (ea : Ea) : (mkNot sz ea).shape = .notEa sz ea := by cases sz <;> rfl

theorem mkOrToReg_shape (sz : Size) (dn : Fin 8) (ea : Ea) : (mkOrToReg sz dn ea).shape = .eaToReg .or sz dn ea := by
  cases sz <;> rfl

theorem mkAndToReg_shape (sz : Size) (dn : Fin 8) (ea : Ea) : (mkAndToReg sz dn ea).shape = .eaToReg .and sz dn ea := by
  cases sz <;> rfl

theorem mkOrToEa_shape (sz : Size) (dn : Fin 8) (ea : Ea) : (mkOrToEa sz dn ea).shape = .regToEa .or sz dn ea := by
  cases sz <;> rfl

theorem mkAndToEa_shape (sz : Size) (dn : Fin 8) (ea : Ea) : (mkAndToEa sz dn ea).shape = .regToEa .and sz dn ea := by
  cases sz <;> rfl

theorem mkEorToEa_shape (sz : Size) (dn : Fin 8) (ea : Ea) : (mkEorToEa sz dn ea).shape = .regToEa .eor sz dn ea := by
  cases sz <;> rfl

/-- The instruction of a shape; EOR has no direction `<ea>,Dn` (R89). -/
def Shape.instr? : Shape → Option Instr
  | .toCcr o data => some (mkToCcr o data)
  | .toSr o data => some (mkToSr o data)
  | .immToEa o sz data ea => some (mkImmToEa o sz data ea)
  | .notEa sz ea => some (mkNot sz ea)
  | .eaToReg .or sz dn ea => some (mkOrToReg sz dn ea)
  | .eaToReg .and sz dn ea => some (mkAndToReg sz dn ea)
  | .eaToReg .eor _ _ _ => none
  | .regToEa .or sz dn ea => some (mkOrToEa sz dn ea)
  | .regToEa .and sz dn ea => some (mkAndToEa sz dn ea)
  | .regToEa .eor sz dn ea => some (mkEorToEa sz dn ea)

/-- An instruction is determined by its shape. -/
theorem Instr.shape_instr? (i : Instr) : i.shape.instr? = some i := by
  cases i with
  | oriB data ea | andiB data ea | eoriB data ea | oriW data ea | andiW data ea | eoriW data ea =>
    simp [Instr.shape, Shape.instr?, mkImmToEa]
  | _ => rfl

/-! ### Forms and the instructions built from them -/

/-- Every well-formed shape is a form with its operand in the category, filled with the shape's own extension words. -/
theorem Shape.exists_form {x : Shape} (h : x.wf = true) :
    ∃ f : OpForm, f.wf = true ∧ x.instr? = some (f.build x.extension) := by
  cases x with
  | toCcr o data =>
    refine ⟨.toCcr o, rfl, ?_⟩
    simp [OpForm.build, Shape.instr?, Shape.extension, extWord, loByte_eq_setWidth]
  | toSr o data => exact ⟨.toSr o, rfl, rfl⟩
  | immToEa o sz data ea =>
    obtain ⟨hdata, hea⟩ := Bool.and_eq_true_iff.1 h
    refine ⟨.immToEa o sz ea.mode, ea.mode_dataAlterable.trans hea, ?_⟩
    simp only [OpForm.build, Shape.instr?, Shape.extension]
    rw [immOfWords_append, beq_iff_eq.1 hdata, List.drop_left' (wordsOfImm_length sz data),
      eaOfWords_extension (Ea.dataSource_of_dataAlterable sz hea)]
  | notEa sz ea =>
    refine ⟨.notEa sz ea.mode, ea.mode_dataAlterable.trans h, ?_⟩
    simp only [OpForm.build, Shape.instr?, Shape.extension, eaOfWords_extension (Ea.dataSource_of_dataAlterable sz h)]
  | eaToReg o sz dn ea =>
    obtain ⟨ho, hea⟩ := Bool.and_eq_true_iff.1 h
    have operand := eaOfWords_extension hea
    cases o with
    | or => exact ⟨.orToReg sz dn ea.mode, rfl, by simp only [OpForm.build, Shape.instr?, Shape.extension, operand]⟩
    | and => exact ⟨.andToReg sz dn ea.mode, rfl, by simp only [OpForm.build, Shape.instr?, Shape.extension, operand]⟩
    | eor => cases ho
  | regToEa o sz dn ea =>
    have alterable : ea.dataAlterable = true := by
      cases o with
      | or | and => exact Ea.dataAlterable_of_alterableMemory h
      | eor => exact h
    have operand := eaOfWords_extension (Ea.dataSource_of_dataAlterable sz alterable)
    cases o with
    | or =>
      refine ⟨.orToEa sz dn ea.mode, ea.mode_alterableMemory.trans h, ?_⟩
      simp only [OpForm.build, Shape.instr?, Shape.extension, operand]
    | and =>
      refine ⟨.andToEa sz dn ea.mode, ea.mode_alterableMemory.trans h, ?_⟩
      simp only [OpForm.build, Shape.instr?, Shape.extension, operand]
    | eor =>
      refine ⟨.eorToEa sz dn ea.mode, ea.mode_dataAlterable.trans h, ?_⟩
      simp only [OpForm.build, Shape.instr?, Shape.extension, operand]

/-- What a form builds, whatever the words after it, as a shape. -/
theorem OpForm.build_shape (f : OpForm) (ws : List Word) : (f.build ws).shape =
    match f with
    | .toCcr o => .toCcr o (loByte (extWord ws 0))
    | .toSr o => .toSr o (extWord ws 0)
    | .immToEa o sz m => .immToEa o sz (immOfWords sz ws) (eaOfWords sz (ws.drop (immWords sz)) m)
    | .notEa sz m => .notEa sz (eaOfWords sz ws m)
    | .orToReg sz dn m => .eaToReg .or sz dn (eaOfWords sz ws m)
    | .andToReg sz dn m => .eaToReg .and sz dn (eaOfWords sz ws m)
    | .orToEa sz dn m => .regToEa .or sz dn (eaOfWords sz ws m)
    | .andToEa sz dn m => .regToEa .and sz dn (eaOfWords sz ws m)
    | .eorToEa sz dn m => .regToEa .eor sz dn (eaOfWords sz ws m) := by
  cases f with
  | toCcr o => exact mkToCcr_shape _ _
  | toSr o => exact mkToSr_shape _ _
  | immToEa o sz m =>
    have s := mkImmToEa_shape o sz (immOfWords sz ws) (eaOfWords sz (ws.drop (immWords sz)) m)
    rwa [immOfWords_and_mask] at s
  | notEa sz m => exact mkNot_shape _ _
  | orToReg sz dn m => exact mkOrToReg_shape _ _ _
  | andToReg sz dn m => exact mkAndToReg_shape _ _ _
  | orToEa sz dn m => exact mkOrToEa_shape _ _ _
  | andToEa sz dn m => exact mkAndToEa_shape _ _ _
  | eorToEa sz dn m => exact mkEorToEa_shape _ _ _

/-- A form with its operand in the category builds only well-formed instructions. -/
theorem OpForm.build_wf {f : OpForm} (hf : f.wf = true) (ws : List Word) : (f.build ws).wf = true := by
  have data {sz : Size} {m : EaField} (ws : List Word) (h : m.dataAlterable = true) :
      (eaOfWords sz ws m).dataAlterable = true := by rwa [← Ea.mode_dataAlterable, eaOfWords_mode]
  have mem {sz : Size} {m : EaField} (ws : List Word) (h : m.alterableMemory = true) :
      (eaOfWords sz ws m).alterableMemory = true := by rwa [← Ea.mode_alterableMemory, eaOfWords_mode]
  rw [Instr.wf, f.build_shape]
  cases f with
  | toCcr o | toSr o => rfl
  | immToEa o sz m => exact Bool.and_eq_true_iff.2 ⟨beq_iff_eq.2 (immOfWords_and_mask sz ws), data _ hf⟩
  | notEa sz m => exact data _ hf
  | orToReg sz dn m | andToReg sz dn m => exact eaOfWords_dataSource sz ws m
  | orToEa sz dn m | andToEa sz dn m => exact mem _ hf
  | eorToEa sz dn m => exact data _ hf

/-- The operation word of what a form builds is the form's. -/
theorem OpForm.build_opWord (f : OpForm) (ws : List Word) : opWord (f.build ws) = BitVec.ofNat 16 f.code := by
  rw [opWord, f.build_shape]
  cases f <;> simp only [Shape.opWord, OpForm.code, Ea.field_eq, eaOfWords_mode, LogicOp.lineBase]

/-- What a form builds has as many extension words as the form says. -/
theorem OpForm.build_extension_length (f : OpForm) (ws : List Word) :
    (f.build ws).shape.extension.length = f.extWords := by
  rw [f.build_shape]
  cases f <;> simp only [Shape.extension, OpForm.extWords, List.length_append, wordsOfImm_length, Ea.extension_length,
    eaOfWords_mode, List.length_singleton]

theorem OpForm.code_lt (f : OpForm) : f.code < 65536 := by
  have line := f.code_line
  split at line <;> omega

/-- The operation word of a well-formed instruction is read as a form that builds it from its own extension words. -/
theorem Instr.exists_form {i : Instr} (h : i.wf = true) :
    ∃ f, classify (opWord i) = .form f ∧ f.build i.shape.extension = i ∧ i.shape.extension.length = f.extWords := by
  obtain ⟨f, hf, built⟩ := Shape.exists_form h
  rw [i.shape_instr?, Option.some.injEq] at built
  have word : opWord i = BitVec.ofNat 16 f.code := (congrArg opWord built).trans (f.build_opWord _)
  refine ⟨f, classify_of_code hf ?_, built.symm,
    (congrArg (fun j => j.shape.extension.length) built).trans (f.build_extension_length _)⟩
  rw [word, BitVec.toNat_ofNat, Nat.mod_eq_of_lt f.code_lt]

/-- What is built from the form of a word is a well-formed instruction with that operation word. -/
theorem build_of_classify {op : Word} {f : OpForm} (h : classify op = .form f) (ws : List Word) :
    (f.build ws).wf = true ∧ opWord (f.build ws) = op := by
  obtain ⟨hf, word⟩ := classify_form h
  exact ⟨OpForm.build_wf hf ws, by rw [f.build_opWord, ← word, BitVec.ofNat_toNat, BitVec.setWidth_eq]⟩

/-! ### Lengths -/

/-- The lengths of R95 count two bytes for each word of the encoding. -/
theorem instrLength_eq (i : Instr) : instrLength i = 2 * (encode i).length := by
  unfold instrLength encode
  cases i.shape <;> simp only [Shape.length, Shape.extension, List.length_cons, List.length_append, List.length_nil,
    Ea.extBytes_eq, Ea.extension_length, immBytes_eq, wordsOfImm_length] <;> omega

/-- The length depends on the form alone, so on the operation word alone (R80). -/
theorem OpForm.build_length (f : OpForm) (ws : List Word) : instrLength (f.build ws) = 2 * (f.extWords + 1) := by
  rw [instrLength_eq, encode, List.length_cons, f.build_extension_length]

theorem EaField.words_le (sz : Size) (m : EaField) : m.words sz ≤ 2 := by
  cases m with
  | imm => cases sz <;> decide
  | _ => simp [EaField.words]

theorem OpForm.extWords_le (f : OpForm) : f.extWords ≤ 4 := by
  cases f with
  | toCcr o | toSr o => simp [OpForm.extWords]
  | immToEa o sz m =>
    have imm : immWords sz ≤ 2 := by cases sz <;> decide
    have := m.words_le sz
    simp only [OpForm.extWords]
    omega
  | notEa sz m | orToReg sz dn m | andToReg sz dn m | orToEa sz dn m | andToEa sz dn m | eorToEa sz dn m =>
    have := m.words_le sz
    simp only [OpForm.extWords]
    omega

/-! ### The round trip -/

/-- Decoding an operation word that is read as a form, followed by enough words (R90). -/
theorem decodeWords_of_form {op : Word} {f : OpForm} {ext rest : List Word} (h : classify op = .form f)
    (hl : ext.length = f.extWords) : decodeWords (op :: (ext ++ rest)) = .ok (f.build ext, rest) := by
  unfold decodeWords
  simp only [h]
  rw [if_neg (by rw [List.length_append]; omega), List.take_left' hl, List.drop_left' hl]

/-- What a list of words decodes to is built from the form of its first word and the extension words after it (R90). -/
theorem decodeWords_ok {op : Word} {ws rest : List Word} {i : Instr} (h : decodeWords (op :: ws) = .ok (i, rest)) :
    ∃ f, classify op = .form f ∧ f.extWords ≤ ws.length ∧ i = f.build (ws.take f.extWords)
      ∧ rest = ws.drop f.extWords := by
  unfold decodeWords at h
  simp only at h
  split at h
  · cases h
  · cases h
  next f hf =>
  split at h
  · cases h
  next enough =>
  cases h
  exact ⟨f, hf, by omega, rfl, rfl⟩

/-- Settles O48: the operation word gives the form back, and the form the instruction from its own extension words. -/
theorem decodeOfEncode : Obligations.DecodeOfEncode := by
  intro i rest hi
  obtain ⟨f, hf, built, words⟩ := Instr.exists_form hi
  have decoded := decodeWords_of_form (rest := rest) hf words
  rwa [built] at decoded

/-- Settles O49: what decodes is built from the form of its operation word, which fixes its length. -/
theorem decodedInstructionIsWellFormed : Obligations.DecodedInstructionIsWellFormed := by
  intro op ws rest i h
  obtain ⟨f, hf, enough, rfl, rfl⟩ := decodeWords_ok h
  obtain ⟨wf, word⟩ := build_of_classify hf (ws.take f.extWords)
  have length := f.build_length (ws.take f.extWords)
  have words : instrLength (f.build (ws.take f.extWords)) / 2 - 1 = f.extWords := by omega
  exact ⟨wf, word, by rw [words], by omega⟩

/-- Settles O50: the operation word determines the form, and the form the length. -/
theorem lengthFromOperationWord : Obligations.LengthFromOperationWord := by
  refine ⟨fun i hi => ⟨?_, instrLength_eq i⟩, fun i j hi hj same => ?_⟩
  · obtain ⟨f, -, built, -⟩ := Instr.exists_form hi
    have length := f.build_length i.shape.extension
    have short := f.extWords_le
    rw [built] at length
    simp only [List.mem_cons, List.not_mem_nil, or_false]
    omega
  · obtain ⟨f, hf, builtI, -⟩ := Instr.exists_form hi
    obtain ⟨g, hg, builtJ, -⟩ := Instr.exists_form hj
    obtain rfl : f = g := OpClass.form.inj (by rw [← hf, ← hg, same])
    rw [← builtI, ← builtJ, f.build_length, f.build_length]

/-- Settles O51: the rows are well-formed and encode to their words, and so their words decode to them. -/
theorem workedEncodingsDecode : Obligations.WorkedEncodingsDecode := by
  intro p hp
  have row : p.2.1.wf = true ∧ encode p.2.1 = p.1 ∧ instrLength p.2.1 = p.2.2 := by
    revert p
    decide
  obtain ⟨wf, words, length⟩ := row
  have decoded := decodeOfEncode p.2.1 [] wf
  rw [List.append_nil, words] at decoded
  exact ⟨decoded, words, length⟩

end Sys2Proof
end

section
/-! PROOFS. Encoding (30_encoding.md): the words `classify` calls illegal are the table of illegal patterns (R93), and a
step at a word outside the spec is refused (R94). -/

namespace Sys2Proof.Machine

/-! ### Operand fields and their categories -/

/-- An operand field answers an illegal pattern exactly if it is no mode of the category. -/
theorem classifyEa_eq_illegal_iff {m : Option EaField} {ok : EaField → Bool} {g : EaField → OpForm} :
    classifyEa m ok g = .illegal ↔ ¬ m.any ok = true := by
  cases m with
  | none => simp [classifyEa]
  | some m => cases h : ok m <;> simp [classifyEa, h]

/-- The fields that name a mode of the spec (R82, R122). -/
theorem eaField_any_iff : ∀ mode < 8, ∀ reg < 8,
    ((eaField mode reg).any (fun _ => true) = true ↔ mode ≠ 1 ∧ (mode = 7 → reg < 5)) := by decide

/-- The fields of the data alterable modes (R120). -/
theorem eaField_dataAlterable_iff : ∀ mode < 8, ∀ reg < 8,
    ((eaField mode reg).any EaField.dataAlterable = true ↔ mode ≠ 1 ∧ (mode = 7 → reg < 2)) := by decide

/-- The fields of the alterable memory modes (R120). -/
theorem eaField_alterableMemory_iff : ∀ mode < 8, ∀ reg < 8,
    ((eaField mode reg).any EaField.alterableMemory = true ↔ 2 ≤ mode ∧ (mode = 7 → reg < 2)) := by decide

theorem immOpField_ne_none_iff : ∀ x < 8, (immOpField x ≠ none ↔ x = 0 ∨ x = 1 ∨ x = 5) := by decide

/-! ### The illegal patterns of each line -/

theorem classifyImmediate_eq_illegal_iff {w : Nat} (line : w / 4096 = 0) :
    classifyImmediate w = .illegal ↔ immediateGroup w ∧ w % 256 ≠ 0x3C ∧ w % 256 ≠ 0x7C
      ∧ (w / 64 % 4 = 3 ∨ w / 8 % 8 = 1 ∨ w / 8 % 8 = 7 ∧ 2 ≤ w % 8) := by
  have group := immOpField_ne_none_iff (w / 512 % 8) (by omega)
  have operand := eaField_dataAlterable_iff (w / 8 % 8) (by omega) (w % 8) (by omega)
  unfold classifyImmediate immediateGroup
  split
  case isTrue dir => simp [dir]
  next dir =>
  have dir : w / 256 % 2 = 0 := by omega
  cases op : immOpField (w / 512 % 8) with
  | none => simp [op] at group ⊢; omega
  | some o =>
  simp only [op, ne_eq, reduceCtorEq, not_false_eq_true, true_iff] at group
  simp only [line, dir, group, true_and]
  split
  case isTrue ccr => simp [ccr]
  split
  case isTrue sr => simp [sr]
  cases size : sizeField (w / 64 % 4) with
  | none => simp_all [sizeField_eq_none_iff (ss := w / 64 % 4) (by omega)]
  | some sz =>
    have := sz.code_lt
    rw [sizeField_eq_some_iff] at size
    simp only [classifyEa_eq_illegal_iff, operand]
    omega

theorem classifyNot_eq_illegal_iff {w : Nat} (line : w / 4096 = 4) :
    classifyNot w = .illegal ↔ notGroup w ∧ (w / 8 % 8 = 1 ∨ w / 8 % 8 = 7 ∧ 2 ≤ w % 8) := by
  have operand := eaField_dataAlterable_iff (w / 8 % 8) (by omega) (w % 8) (by omega)
  unfold classifyNot notGroup
  split
  case isFalse other => simp; omega
  next group =>
  cases size : sizeField (w / 64 % 4) with
  | none =>
    rw [sizeField_eq_none_iff (by omega)] at size
    simp [size]
  | some sz =>
    have := sz.code_lt
    rw [sizeField_eq_some_iff] at size
    simp only [classifyEa_eq_illegal_iff, operand]
    omega

/-- Lines 1000 and 1100: `pattern` says for which sizes `regPattern` calls direction `Dn,<ea>` with mode 000 or 001
illegal. -/
theorem classifyOrAnd_eq_illegal_iff {w : Nat} {toReg toEa : Size → Fin 8 → EaField → OpForm}
    {regPattern : Size → Nat → OpClass} {pattern : Nat → Prop} (line : w / 4096 = 8 ∨ w / 4096 = 12)
    (hp : ∀ sz, regPattern sz (w / 8 % 8) = .illegal ↔ pattern sz.code) :
    classifyOrAnd w toReg toEa regPattern = .illegal ↔
      toRegGroup w ∧ (w / 8 % 8 = 1 ∨ w / 8 % 8 = 7 ∧ 5 ≤ w % 8)
      ∨ toEaGroup w ∧ (w / 8 % 8 = 7 ∧ 2 ≤ w % 8 ∨ w / 8 % 8 < 2 ∧ pattern (w / 64 % 4)) := by
  have any := eaField_any_iff (w / 8 % 8) (by omega) (w % 8) (by omega)
  have memory := eaField_alterableMemory_iff (w / 8 % 8) (by omega) (w % 8) (by omega)
  unfold classifyOrAnd toRegGroup toEaGroup
  cases size : sizeField (w / 64 % 4) with
  | none =>
    rw [sizeField_eq_none_iff (by omega)] at size
    simp [size]
  | some sz =>
    have := sz.code_lt
    rw [sizeField_eq_some_iff] at size
    simp only [size]
    split
    · simp only [classifyEa_eq_illegal_iff, any]
      omega
    split
    · rw [hp]
      refine ⟨fun h => .inr ⟨by omega, .inr ⟨by assumption, h⟩⟩, ?_⟩
      rintro (h | ⟨-, h | ⟨-, h⟩⟩)
      · omega
      · omega
      · exact h
    · simp only [classifyEa_eq_illegal_iff, memory]
      omega

theorem classifyEor_eq_illegal_iff {w : Nat} (line : w / 4096 = 11) :
    classifyEor w = .illegal ↔ toEaGroup w ∧ w / 8 % 8 = 7 ∧ 2 ≤ w % 8 := by
  have operand := eaField_dataAlterable_iff (w / 8 % 8) (by omega) (w % 8) (by omega)
  unfold classifyEor toEaGroup
  cases size : sizeField (w / 64 % 4) with
  | none =>
    rw [sizeField_eq_none_iff (by omega)] at size
    simp [size]
  | some sz =>
    have := sz.code_lt
    rw [sizeField_eq_some_iff] at size
    simp only
    split
    · simp; omega
    split
    · simp; omega
    · simp only [classifyEa_eq_illegal_iff, operand]
      omega

theorem classifyOrRegister_eq_illegal_iff (sz : Size) : classifyOrRegister sz = .illegal ↔ 1 ≤ sz.code := by
  cases sz <;> simp [classifyOrRegister, Size.code]

theorem classifyAndRegister_eq_illegal_iff (sz : Size) (mode : Nat) :
    classifyAndRegister sz mode = .illegal ↔ sz.code = 2 ∧ mode = 0 := by
  cases sz <;> simp [classifyAndRegister, Size.code]

/-- Settles O44: each line's classifier answers illegal for the rows of R93 that speak of the groups in the line. -/
theorem illegalPatternsAreTheTable : Obligations.IllegalPatternsAreTheTable := by
  intro op
  unfold classify illegalPattern
  generalize op.toNat = w
  have immediate (h : immediateGroup w) : w / 4096 = 0 := h.1
  have notWord (h : notGroup w) : w / 4096 = 4 := by have high := h.1; omega
  have toReg (h : toRegGroup w) : w / 4096 = 8 ∨ w / 4096 = 12 := h.1
  have toEa (h : toEaGroup w) : w / 4096 = 8 ∨ w / 4096 = 11 ∨ w / 4096 = 12 := h.1
  simp only
  split
  next line =>
    simp [line] at notWord toReg toEa
    rw [classifyImmediate_eq_illegal_iff line]
    by_cases group : immediateGroup w
    · simp [group, notWord, toReg, toEa]
      omega
    · simp [group, notWord, toReg, toEa]
  next line =>
    simp [line] at immediate toReg toEa
    rw [classifyNot_eq_illegal_iff line]
    by_cases group : notGroup w
    · simp [group, immediate, toReg, toEa]
      omega
    · simp [group, immediate, toReg, toEa]
  next line =>
    simp [line] at immediate notWord
    rw [classifyOrAnd_eq_illegal_iff (.inl line) classifyOrRegister_eq_illegal_iff]
    by_cases source : toRegGroup w <;> by_cases destination : toEaGroup w <;>
      simp [line, immediate, notWord, source, destination] <;> omega
  next line =>
    simp [line] at immediate notWord toReg
    rw [classifyEor_eq_illegal_iff line]
    by_cases group : toEaGroup w
    · simp [group, line, immediate, notWord, toReg]
      omega
    · simp [group, immediate, notWord, toReg]
  next line =>
    simp [line] at immediate notWord
    rw [classifyOrAnd_eq_illegal_iff (.inr line) (pattern := fun size => size = 2 ∧ w / 8 % 8 = 0)
      (classifyAndRegister_eq_illegal_iff · _)]
    by_cases source : toRegGroup w <;> by_cases destination : toEaGroup w <;>
      simp [line, immediate, notWord, source, destination] <;> omega
  next noImmediate noNot noOr noEor noAnd =>
    have noGroup : ¬ immediateGroup w ∧ ¬ notGroup w ∧ ¬ toRegGroup w ∧ ¬ toEaGroup w :=
      ⟨noImmediate ∘ immediate, noNot ∘ notWord, by tauto, by tauto⟩
    simp [noGroup]

/-! ### A step at a word outside the spec -/

/-- Where nothing comes first at a boundary, the step begins with a fetch (R241). -/
theorem beginStep_of_undisturbed {s : State} (h : s.undisturbed) : s.beginStep = s.afterSample.fetchInstr := by
  obtain ⟨run, trace, ⟨reset, -⟩, masked⟩ := h
  have quiet : s.accepts s.sample.level = false := by simpa [State.accepts] using masked
  simp [State.beginStep, run, State.beginRunning, reset, trace, quiet]

theorem step_of_noReset {s : State} (h : s.noReset) : step s = s.wholeStep := by
  rw [step_eq_endStep, endStep_whole _ _ h.2]

/-- The operation word of an undisturbed step in plain storage is what memory holds. -/
theorem fetch16_of_readyToFetch {s : State} (h : s.readyToFetch) (plain : s.readsPlain s.pc 2 .prog) :
    s.afterSample.fetch16 s.afterSample.pc
      = .ok (wordOfBytes (s.byteAt s.pc) (s.byteAt (s.pc + 1#32))) s.afterSample := by
  obtain ⟨-, bus, held, even⟩ := h
  exact fetch16_plain s.afterSample s.pc bus held even plain

/-- A word that is no illegal pattern and no instruction's operation word is classified as out of scope (R94). -/
theorem classify_outOfScope {op : Word} (legal : ¬ illegalPattern op)
    (foreign : ∀ i : Instr, i.wf = true → opWord i ≠ op) : classify op = .outOfScope := by
  cases h : classify op with
  | outOfScope => rfl
  | illegal => exact absurd ((illegalPatternsAreTheTable op).1 h) legal
  | form f =>
    obtain ⟨wf, word⟩ := build_of_classify h []
    exact absurd word (foreign _ wf)

/-- Settles O46: the operation word is classified as out of scope, and the fetch refuses it. -/
theorem outOfScopeWordIsRefused : Obligations.OutOfScopeWordIsRefused := by
  intro s ready plain legal foreign
  obtain ⟨-, -, whole, -⟩ := ready.1
  rw [step_of_noReset whole, State.wholeStep, beginStep_of_undisturbed ready.1, State.fetchInstr,
    fetch16_of_readyToFetch ready plain]
  simp only [classify_outOfScope legal foreign]

end Sys2Proof.Machine
end

section
/-! PROOFS. Encoding (30_encoding.md): AND and OR of an immediate to a data register have two encodings with one effect
(R100). -/

namespace Sys2Proof.Machine

/-- With an immediate source or with the immediate form, the same result goes to the same data register (R100). -/
theorem runEaToReg_imm_eq_runImmToEa_dreg {i j : Instr} (o : LogicOp) (sz : Size) (n : Fin 8) {v : Long} (s : State)
    (hv : v &&& sz.mask = v) (hl : instrLength i = instrLength j) :
    runEaToReg i o sz n (.imm v) s = runImmToEa j o sz v (.dreg n) s := by
  simp only [runEaToReg, runImmToEa, runModify, eaLoc, eaStep, readLoc, writeLoc, hv, complete, hl]

/-- Direction `<ea>,Dn` is in lines 1000 to 1100 (R89), the immediate forms are in line 0000 (R86). -/
theorem opWord_eaToReg_ne_immToEa (o : LogicOp) (sz : Size) (n : Fin 8) (v : Long) :
    (Shape.eaToReg o sz n (.imm v)).opWord ≠ (Shape.immToEa o sz v (.dreg n)).opWord := by
  intro same
  have size := sz.code_lt
  have words := congrArg BitVec.toNat same
  simp only [Shape.opWord, Ea.field, Ea.modeReg, BitVec.toNat_ofNat] at words
  cases o <;> simp only [LogicOp.lineBase, LogicOp.immBase] at words <;> omega

/-- The two forms of one immediate operation to a data register (R100). -/
theorem immediateForms_agree {i j : Instr} {o : LogicOp} {sz : Size} {n : Fin 8} {v : Long}
    (hi : i.shape = .eaToReg o sz n (.imm v)) (hj : j.shape = .immToEa o sz v (.dreg n))
    (hv : v &&& sz.mask = v) :
    instrLength i = instrLength j ∧ opWord i ≠ opWord j ∧ ∀ s, exec i s = exec j s := by
  have length : instrLength i = instrLength j := by
    unfold instrLength
    rw [hi, hj]
    cases sz <;> rfl
  refine ⟨length, ?_, fun s => ?_⟩
  · rw [opWord, opWord, hi, hj]
    exact opWord_eaToReg_ne_immToEa o sz n v
  · rw [exec_eq_runShape, exec_eq_runShape, hi, hj]
    exact runEaToReg_imm_eq_runImmToEa_dreg o sz n s hv length

/-- Settles O27: each row is an operation and a size of the agreement above, with an immediate of the size. -/
theorem immediateSourceEqualsImmediateForm : Obligations.ImmediateSourceEqualsImmediateForm := by
  intro x y z n i j h
  have byte : x.setWidth 32 &&& Size.byte.mask = x.setWidth 32 := by simp [and_mask_byte]
  have word : y.setWidth 32 &&& Size.word.mask = y.setWidth 32 := by simp [and_mask_word]
  have long := and_mask_long z
  simp only [List.mem_cons, Prod.mk.injEq, List.not_mem_nil, or_false] at h
  obtain ⟨rfl, rfl⟩ | ⟨rfl, rfl⟩ | ⟨rfl, rfl⟩ | ⟨rfl, rfl⟩ | ⟨rfl, rfl⟩ | ⟨rfl, rfl⟩ := h
  · exact immediateForms_agree rfl rfl byte
  · exact immediateForms_agree rfl rfl word
  · exact immediateForms_agree rfl rfl long
  · exact immediateForms_agree rfl rfl byte
  · exact immediateForms_agree rfl rfl word
  · exact immediateForms_agree rfl rfl long

end Sys2Proof.Machine
end

section
/-! PROOFS. The operations and the flag rule (40_operands.md): the masks of the sizes and the flags bit by bit, and from
these the laws of R138 and R139 and the agreement of EORI with all ones and NOT (R141, R190). -/

namespace Sys2Proof.Machine

/-! ### The masks of the sizes -/

theorem sizeMask_toNat (sz : Size) : sz.mask.toNat = 2 ^ sz.bits - 1 := by cases sz <;> rfl

/-- The mask has the bits up to `msb` (R8). -/
theorem getLsbD_sizeMask (sz : Size) (k : Nat) : sz.mask.getLsbD k = decide (k ≤ sz.msb) := by
  have bits : sz.bits = sz.msb + 1 := by cases sz <;> rfl
  rw [BitVec.getLsbD, sizeMask_toNat, Nat.testBit_two_pow_sub_one, bits]
  exact decide_eq_decide.2 Nat.lt_succ_iff

/-- What the mask leaves of a value is the value modulo the size (R8). -/
theorem toNat_and_mask (sz : Size) (x : Long) : (x &&& sz.mask).toNat = x.toNat % 2 ^ sz.bits := by
  rw [BitVec.toNat_and, sizeMask_toNat, Nat.and_two_pow_sub_one_eq_mod]

theorem toNat_lt_of_masked {sz : Size} {x : Long} (h : x &&& sz.mask = x) : x.toNat < 2 ^ sz.bits := by
  rw [← h, toNat_and_mask]
  exact Nat.mod_lt _ (Nat.two_pow_pos _)

theorem and_mask_masked (sz : Size) (x : Long) : x &&& sz.mask &&& sz.mask = x &&& sz.mask := by
  rw [BitVec.and_assoc, BitVec.and_self]

/-! ### The four operations -/

theorem notOp_masked {sz : Size} {x : Long} (h : x &&& sz.mask = x) : notOp sz x &&& sz.mask = notOp sz x := by
  rw [notOp_eq_xor sz x h]
  exact logicOp_masked .eor sz x sz.mask h (BitVec.and_self)

/-- NOT inverts every bit of the size (R138). -/
theorem getLsbD_notOp {sz : Size} {x : Long} (h : x &&& sz.mask = x) {k : Nat} (hk : k ≤ sz.msb) :
    (notOp sz x).getLsbD k = !x.getLsbD k := by
  rw [notOp_eq_xor sz x h, BitVec.getLsbD_xor, getLsbD_sizeMask, decide_eq_true hk, Bool.xor_true]

theorem notOp_notOp {sz : Size} {x : Long} (h : x &&& sz.mask = x) : notOp sz (notOp sz x) = x := by
  rw [notOp_eq_xor sz _ (notOp_masked h), notOp_eq_xor sz x h, BitVec.xor_assoc, BitVec.xor_self, BitVec.xor_zero]

theorem or_mask_of_masked {sz : Size} {x : Long} (h : x &&& sz.mask = x) : x ||| sz.mask = sz.mask := by
  apply BitVec.eq_of_getLsbD_eq
  intro k hk
  rw [← h, BitVec.getLsbD_or, BitVec.getLsbD_and]
  cases x.getLsbD k <;> simp

theorem logicOp_comm (o : LogicOp) (x y : Long) : logicOp o x y = logicOp o y x := by
  cases o with
  | or => exact BitVec.or_comm x y
  | and => exact BitVec.and_comm x y
  | eor => exact BitVec.xor_comm x y

/-- Settles O1: NOT within a size is the exclusive or with its mask, and the rest are laws of the operations on bits. -/
theorem logicOperationsAreBitwise : Obligations.LogicOperationsAreBitwise := by
  refine ⟨fun x y k => ?_, fun sz x h => ?_, fun x y => ?_⟩
  · exact ⟨BitVec.getLsbD_and, BitVec.getLsbD_or, BitVec.getLsbD_xor⟩
  · exact ⟨rfl, notOp_eq_xor sz x h, fun _ => getLsbD_notOp h, notOp_notOp h, h, or_mask_of_masked h⟩
  · exact ⟨BitVec.and_self, BitVec.or_self, BitVec.xor_self, BitVec.and_zero, BitVec.or_zero, BitVec.xor_zero,
      fun o => logicOp_comm o x y⟩

/-! ### The flag rule -/

/-- N is bit 3 and Z is bit 2, and there is no other bit (R139). -/
theorem getLsbD_flagsNZ (sz : Size) (r : Long) (k : Nat) :
    (flagsNZ sz r).getLsbD k = (decide (3 = k) && r.getLsbD sz.msb || decide (2 = k) && decide (r = 0#32)) := by
  have n : (0x0008#16).getLsbD k = decide (3 = k) := BitVec.getLsbD_twoPow 3 k (w := 16)
  have z : (0x0004#16).getLsbD k = decide (2 = k) := BitVec.getLsbD_twoPow 2 k (w := 16)
  rw [flagsNZ, BitVec.getLsbD_or, apply_ite (BitVec.getLsbD · k), apply_ite (BitVec.getLsbD · k), n, z]
  cases r.getLsbD sz.msb <;> by_cases zero : r = 0#32 <;> simp [zero]

/-- The four low bits of SR are those of the flags (R139). -/
theorem getLsbD_logicFlags_of_lt (sz : Size) (r : Long) (s : State) {k : Nat} (hk : k < 4) :
    (logicFlags sz r s).sr.getLsbD k
      = (decide (3 = k) && r.getLsbD sz.msb || decide (2 = k) && decide (r = 0#32)) := by
  have cleared : (0xFFF0#16).getLsbD k = false := by interval_cases k <;> rfl
  rw [logicFlags_sr, BitVec.getLsbD_or, BitVec.getLsbD_and, cleared, Bool.and_false, Bool.false_or, getLsbD_flagsNZ]

/-- The others are as they were (R139). -/
theorem getLsbD_logicFlags_of_ge (sz : Size) (r : Long) (s : State) {k : Nat} (hk : 4 ≤ k) :
    (logicFlags sz r s).sr.getLsbD k = s.sr.getLsbD k := by
  by_cases inside : k < 16
  · have kept : (0xFFF0#16).getLsbD k = true := by interval_cases k <;> rfl
    simpa only [BitVec.getLsbD_and, kept, Bool.and_true] using
      congrArg (BitVec.getLsbD · k) (logicFlags_sr_upper sz r s)
  · rw [BitVec.getLsbD_of_ge _ k (by omega), BitVec.getLsbD_of_ge _ k (by omega)]

/-- Settles O2: the bits of SR one by one; a result with its top bit set is not zero. -/
theorem logicFlagsSetNZClearVC : Obligations.LogicFlagsSetNZClearVC := by
  intro sz r s
  have n : (logicFlags sz r s).sr.getLsbD 3 = r.getLsbD sz.msb :=
    (getLsbD_logicFlags_of_lt sz r s (by decide)).trans (by simp)
  have z : (logicFlags sz r s).sr.getLsbD 2 = decide (r = 0#32) :=
    (getLsbD_logicFlags_of_lt sz r s (by decide)).trans (by simp)
  refine ⟨n, z, getLsbD_logicFlags_of_lt sz r s (by decide), getLsbD_logicFlags_of_lt sz r s (by decide),
    fun k => getLsbD_logicFlags_of_ge sz r s, rfl, ?_⟩
  rw [n, z, decide_eq_true_eq]
  rintro ⟨negative, rfl⟩
  simp at negative

/-! ### EORI with all ones, and NOT -/

/-- Read, compute, write back in a data register (R135, R137). -/
theorem runModify_dreg (i : Instr) (sz : Size) (f : Long → Long) (cur : Addr) (n : Fin 8) (s : State) :
    runModify i sz f cur (.dreg n) s
      = complete i s ((logicFlags sz (f (s.dReg n &&& sz.mask)) s).setD sz n (f (s.dReg n &&& sz.mask))) := rfl

/-- EORI with the mask and NOT leave the same data register, flags and trace (R141, R190); their lengths differ. -/
theorem runImmToEa_eor_mask_agrees_runNot {i j : Instr} {sz : Size} {n : Fin 8} {s t u : State}
    (ht : runImmToEa i .eor sz sz.mask (.dreg n) s = .next t) (hu : runNot j sz (.dreg n) s = .next u) :
    { t with pc := u.pc } = u := by
  have result : logicOp .eor (s.dReg n &&& sz.mask) sz.mask = notOp sz (s.dReg n &&& sz.mask) :=
    (notOp_eq_xor sz _ (and_mask_masked sz _)).symm
  rw [runImmToEa, runModify_dreg, result] at ht
  rw [runNot, runModify_dreg] at hu
  cases ht
  cases hu
  rfl

/-- Settles O28: each row is a size of the agreement above, its immediate the mask of the size. -/
theorem eoriOfOnesIsNot : Obligations.EoriOfOnesIsNot := by
  intro n i j s t u h ht hu
  simp only [List.mem_cons, Prod.mk.injEq, List.not_mem_nil, or_false] at h
  obtain ⟨rfl, rfl⟩ | ⟨rfl, rfl⟩ | ⟨rfl, rfl⟩ := h
  · exact runImmToEa_eor_mask_agrees_runNot (sz := .byte) ht hu
  · exact runImmToEa_eor_mask_agrees_runNot (sz := .word) ht hu
  · exact runImmToEa_eor_mask_agrees_runNot (sz := .long) ht hu

end Sys2Proof.Machine
end

section
/-! PROOFS. Operands (40_operands.md): where each addressing mode points and what it does to its register (R121 to R133,
R136), and what reading and writing a location does (R134, R135). -/

namespace Sys2Proof.Machine

/-! ### Registers -/

theorem regNumber_val (n : Fin 8) : regNumber n.val = n := regNumber_eq_iff.2 (Nat.mod_eq_of_lt n.isLt)

/-- A write of an address register leaves every other, A7 included (R21, R22). -/
theorem setA_aReg_ne (s : State) {n m : Fin 8} (v : Long) (h : m ≠ n) : (s.setA n v).aReg m = s.aReg m := by
  by_cases hm : m.val < 7
  · exact setA_aReg_other s n m v hm h.symm
  · have hn : n.val < 7 := by omega
    unfold State.setA State.aReg
    rw [dif_pos hn, dif_neg hm, dif_neg hm]
    rfl

/-- A write of an address register sets it and changes nothing else (R10, R22). -/
theorem addressRegisterSet_setA (s : State) (n : Fin 8) (v : Long) : AddressRegisterSet s (s.setA n v) n v := by
  refine ⟨s.setA_aReg_self n v, fun m => setA_aReg_ne s v, setA_usp_of_super s n v, setA_ssp_of_user s n v, ?_⟩
  unfold State.setA
  split
  · rfl
  · split <;> rfl

theorem stepSize_of_ne (n : Fin 8) (sz : Size) (h : ¬ (n = 7 ∧ sz = .byte)) :
    stepSize n sz = BitVec.ofNat 32 sz.bytes :=
  if_neg (by simpa using h)

/-- Settles O3: the step is 2 by its definition, and it is the step of A7 that moves the stack pointer. -/
theorem byteStepThroughStackPointerIsTwo : Obligations.ByteStepThroughStackPointerIsTwo :=
  ⟨stepSize_of_ne, rfl, fun s _ => ⟨rfl, rfl, s.setA_aReg_self 7 _, s.setA_aReg_self 7 _⟩⟩

/-! ### The brief extension word -/

/-- The register field of the brief extension word is its bits 14:12 (R84). -/
theorem regNumber_extWord (w : Word) : (regNumber (w.toNat / 4096)).val = (w.extractLsb' 12 3).toNat := by
  rw [BitVec.extractLsb'_toNat, Nat.shiftRight_eq_div_pow]
  rfl

/-- Bits 10:8 of the brief extension word are ignored (R84, U3). -/
theorem indexOfWord_and_used (w : Word) : indexOfWord (w &&& 0xF8FF#16) = indexOfWord w := by
  have field (i n : Nat) (h : (0xF8FF#16).extractLsb' i n = BitVec.allOnes n) :
      (w &&& 0xF8FF#16).extractLsb' i n = w.extractLsb' i n := by
    rw [BitVec.extractLsb'_and, h, BitVec.and_allOnes]
  have reg : regNumber ((w &&& 0xF8FF#16).toNat / 4096) = regNumber (w.toNat / 4096) := by
    rw [Fin.ext_iff, regNumber_extWord, regNumber_extWord, field 12 3 rfl]
  have disp : loByte (w &&& 0xF8FF#16) = loByte w := field 0 8 rfl
  have isAddr : (w &&& 0xF8FF#16).getLsbD 15 = w.getLsbD 15 := BitVec.getLsbD_and.trans (Bool.and_true _)
  have isLong : (w &&& 0xF8FF#16).getLsbD 11 = w.getLsbD 11 := BitVec.getLsbD_and.trans (Bool.and_true _)
  rw [indexOfWord, isAddr, reg, isLong, disp]
  rfl

/-- The index of a brief extension word: the register its bits 15:12 name, or its sign-extended low word (R133). -/
theorem indexValue_indexOfWord (s : State) (w : Word) :
    s.indexValue (indexOfWord w)
      = if w.getLsbD 11 then
          (if w.getLsbD 15 then s.aReg (regNumber (w.toNat / 4096)) else s.dReg (regNumber (w.toNat / 4096)))
        else
          ((if w.getLsbD 15 then s.aReg (regNumber (w.toNat / 4096))
            else s.dReg (regNumber (w.toNat / 4096))).setWidth 16).signExtend 32 := rfl

/-- Settles O5: the index is a function of the fields of the word, and none of them has bits 10:8. -/
theorem indexRegisterAndSize : Obligations.IndexRegisterAndSize := by
  refine fun s w => ⟨indexValue_indexOfWord s w, regNumber_extWord w, fun w' same => ?_⟩
  rw [← indexOfWord_and_used w', same, indexOfWord_and_used w]

/-! ### The addressing modes -/

/-- The displacement of an indexed mode is the low byte of its extension word (R84). -/
theorem sext8_disp_indexOfWord (w : Word) : sext8 (indexOfWord w).disp = (w.setWidth 8).signExtend 32 :=
  congrArg sext8 (loByte_eq_setWidth w)

/-- Settles O4: the mode table, the extension words and the location of each mode, by the definitions; the two modes
that step their register do so by a write of it. -/
theorem addressingModesLocateOperands : Obligations.AddressingModesLocateOperands := by
  intro n sz s cur hi lo
  have mode (f : Fin 8 → EaField) : some (f (regNumber n.val)) = some (f n) := by rw [regNumber_val]
  refine ⟨⟨mode .dreg, rfl, rfl, rfl⟩, ⟨mode .ind, rfl, rfl, rfl⟩,
    ⟨mode .postinc, rfl, rfl, addressRegisterSet_setA s n _⟩,
    ⟨mode .predec, rfl, rfl, addressRegisterSet_setA s n _⟩,
    ⟨mode .disp, rfl, rfl, rfl⟩, ⟨mode .index, rfl, ?_, rfl⟩,
    ⟨rfl, rfl, rfl, rfl⟩, ⟨rfl, rfl, rfl, rfl⟩, ⟨rfl, rfl, rfl, rfl⟩, ⟨rfl, rfl, ?_, rfl⟩,
    ⟨rfl, rfl, rfl, rfl, ?_, rfl, rfl, fun _ => ⟨rfl, rfl⟩⟩⟩
  · rw [← sext8_disp_indexOfWord]
    rfl
  · rw [← sext8_disp_indexOfWord]
    rfl
  · rw [← loByte_eq_setWidth]
    rfl

/-! ### Reading and writing a location -/

/-- What a memory read gives is zero above the size (R54). -/
theorem memRead_masked {s t : State} {a : Addr} {sz : Size} {sp : Space} {v : Long}
    (h : s.memRead a sz sp = .ok v t) : v &&& sz.mask = v := by
  unfold State.memRead at h
  split at h
  · cases h
  · split at h
    · cases h
    · cases sz with
      | byte => cases h; simp [and_mask_byte]
      | word => cases h; simp [and_mask_word]
      | long => exact and_mask_long v

/-- `ReadLoc` gives a value of the size (R134). -/
theorem readLoc_masked {s t : State} {loc : Loc} {sz : Size} {v : Long}
    (h : readLoc loc sz s = .ok v t) : v &&& sz.mask = v := by
  cases loc with
  | dreg n => cases h; exact and_mask_masked sz _
  | mem a sp => exact memRead_masked h
  | imm w => cases h; exact and_mask_masked sz w

/-- Settles O6: each location by the definition, and the bound from the mask. -/
theorem readLocGivesValueOfSize : Obligations.ReadLocGivesValueOfSize :=
  fun _ s => ⟨fun _ => rfl, fun _ _ => rfl, fun _ h => congrArg (Access.ok · s) h,
    fun _ _ _ h => toNat_lt_of_masked (readLoc_masked h)⟩

/-- A write of a data register puts the value in the part of the size (R135). -/
theorem setD_dReg_low (s : State) (sz : Size) (n : Fin 8) (v : Long) :
    (s.setD sz n v).dReg n &&& sz.mask = v &&& sz.mask := by
  rw [State.setD_dReg_self, BitVec.and_or_distrib_right]
  simp [BitVec.and_assoc]

/-- It keeps the bits above (R20, R135). -/
theorem setD_dReg_high (s : State) (sz : Size) (n : Fin 8) (v : Long) :
    (s.setD sz n v).dReg n &&& ~~~sz.mask = s.dReg n &&& ~~~sz.mask := by
  rw [State.setD_dReg_self, BitVec.and_or_distrib_right]
  simp [BitVec.and_assoc]

/-- Settles O7: the register's write is `setD`, and after a store, completed or not, the prefetch hazard changes what is
held and the counter alone. -/
theorem writeLocKeepsUpperBits : Obligations.WriteLocKeepsUpperBits := by
  intro sz s v pc0 len
  refine ⟨fun n => ?_, fun a sp t stored => ?_, fun a sp e t stopped => ?_, fun _ => rfl⟩
  · exact ⟨s.setD sz n v, rfl, setD_dReg_low s sz n v, setD_dReg_high s sz n v,
      fun m => s.setD_dReg_other sz n m v, rfl⟩
  · obtain ⟨h, k, hazard, -⟩ := holdPrefetched_cases s t pc0 len a sz.bytes
    exact ⟨h, k, by simp only [writeLoc, stored, hazard]⟩
  · obtain ⟨h, k, hazard, -⟩ := holdPrefetched_cases s t pc0 len a sz.bytes
    exact ⟨h, k, by simp only [writeLoc, stopped, hazard]⟩

end Sys2Proof.Machine
end

section
/-! PROOFS. AND and ANDI (41_and.md): their results, and that of the forms to SR in supervisor mode, from lemmas that hold
for every operation and size: the shape of the rows of a statement, and what an instruction of a shape leaves when its
operand is in plain storage or in a data register. -/

namespace Sys2Proof.Machine

/-! ### The rows of a statement -/

/-- Three instructions, one for each size, that are of one shape but for the size. -/
theorem shape_of_sizeRow (f : Size → Shape) {b w l i : Instr} {sz : Size} (hb : b.shape = f .byte)
    (hw : w.shape = f .word) (hl : l.shape = f .long) (h : (sz, i) ∈ [(Size.byte, b), (.word, w), (.long, l)]) :
    i.shape = f sz := by
  simp only [List.mem_cons, Prod.mk.injEq, List.not_mem_nil, or_false] at h
  obtain ⟨rfl, rfl⟩ | ⟨rfl, rfl⟩ | ⟨rfl, rfl⟩ := h
  · exact hb
  · exact hw
  · exact hl

/-- The same of three immediate forms; the immediate of each is within its size (R85). -/
theorem shape_of_immRow {o : LogicOp} {ea : Ea} {x : Byte} {y : Word} {z : Long} {b w l i : Instr} {sz : Size}
    {data : Long} (hb : b.shape = .immToEa o .byte (x.setWidth 32) ea)
    (hw : w.shape = .immToEa o .word (y.setWidth 32) ea) (hl : l.shape = .immToEa o .long z ea)
    (h : (sz, i, data) ∈ [(Size.byte, b, x.setWidth 32), (.word, w, y.setWidth 32), (.long, l, z)]) :
    i.shape = .immToEa o sz data ea ∧ data &&& sz.mask = data := by
  simp only [List.mem_cons, Prod.mk.injEq, List.not_mem_nil, or_false] at h
  obtain ⟨rfl, rfl, rfl⟩ | ⟨rfl, rfl, rfl⟩ | ⟨rfl, rfl, rfl⟩ := h
  · exact ⟨hb, by simp [and_mask_byte]⟩
  · exact ⟨hw, by simp [and_mask_word]⟩
  · exact ⟨hl, and_mask_long _⟩

/-! ### Results by shape -/

section
variable {i : Instr} {o : LogicOp} {sz : Size} {dn : Fin 8} {ea : Ea} {data : Long} {s : State} {a : Addr} {sp : Space}

/-- `<ea>,Dn` (R150, R200) with an operand that can be read. -/
theorem exec_eaToReg_regWritten (hi : i.shape = .eaToReg o sz dn ea) (hb : s.busWrites = [])
    (h : locReadable s (eaLoc ea sz (s.pc + 2#32) s) sz) :
    ∃ t, exec i s = .next t
      ∧ RegWritten s t ea sz dn (logicOp o (s.dReg dn &&& sz.mask) (locValue s (eaLoc ea sz (s.pc + 2#32) s) sz))
          (2 + ea.extBytes sz) := by
  have length : instrLength i = 2 + ea.extBytes sz := congrArg Shape.length hi
  rw [exec_eq_runShape, hi, ← length]
  exact runEaToReg_plain i o sz dn ea s hb h

/-- `Dn,<ea>` (R151, R170, R201) with its destination in plain storage. -/
theorem exec_regToEa_memWritten (hi : i.shape = .regToEa o sz dn ea) (hl : eaLoc ea sz (s.pc + 2#32) s = .mem a sp)
    (hb : s.busWrites = []) (ha : alignedFor sz a) (hr : s.readsPlain a sz.bytes sp) (hw : s.writesPlain a sz.bytes) :
    ∃ t, exec i s = .next t
      ∧ MemWritten s t ea sz a (logicOp o (s.valueAt a sz) (s.dReg dn &&& sz.mask)) (2 + ea.extBytes sz) := by
  have length : instrLength i = 2 + ea.extBytes sz := congrArg Shape.length hi
  have size := logicOp_masked o sz _ _ (and_mask_valueAt s a sz) (and_mask_masked sz (s.dReg dn))
  rw [exec_eq_runShape, hi, ← length]
  exact runModify_memory i sz (fun x => logicOp o x (s.dReg dn &&& sz.mask)) _ ea s a sp hl hb ha hr hw size

/-- `#<data>,<ea>` (R152, R171, R202) with its destination in plain storage. -/
theorem exec_immToEa_memWritten (hi : i.shape = .immToEa o sz data ea) (hd : data &&& sz.mask = data)
    (hl : eaLoc ea sz (s.pc + 2#32 + BitVec.ofNat 32 (immBytes sz)) s = .mem a sp)
    (hb : s.busWrites = []) (ha : alignedFor sz a) (hr : s.readsPlain a sz.bytes sp) (hw : s.writesPlain a sz.bytes) :
    ∃ t, exec i s = .next t
      ∧ MemWritten s t ea sz a (logicOp o (s.valueAt a sz) data) (2 + immBytes sz + ea.extBytes sz) := by
  have length : instrLength i = 2 + immBytes sz + ea.extBytes sz := congrArg Shape.length hi
  have size := logicOp_masked o sz _ data (and_mask_valueAt s a sz) hd
  rw [exec_eq_runShape, hi, ← length]
  exact runModify_memory i sz (fun x => logicOp o x data) _ ea s a sp hl hb ha hr hw size

/-- `#<data>,Dn` (R152, R171, R202), which has no extension word but the immediate's. -/
theorem exec_immToEa_regWritten (hi : i.shape = .immToEa o sz data (.dreg dn)) (hd : data &&& sz.mask = data)
    (s : State) :
    ∃ t, exec i s = .next t
      ∧ RegWritten s t (.dreg dn) sz dn (logicOp o (s.dReg dn &&& sz.mask) data) (2 + immBytes sz) := by
  have length : instrLength i = 2 + immBytes sz := congrArg Shape.length hi
  have size := logicOp_masked o sz _ data (and_mask_masked sz (s.dReg dn)) hd
  rw [exec_eq_runShape, hi, ← length]
  exact runModify_register i sz (fun x => logicOp o x data) (s.pc + 2#32 + BitVec.ofNat 32 (immBytes sz)) dn s size

end

/-! ### The statements -/

/-- Settles O16: each form is `runToSr` with its operation, four bytes long. -/
theorem toSrFormsInSupervisorMode : Obligations.ToSrFormsInSupervisorMode := by
  intro s data i v hs h
  simp only [List.mem_cons, Prod.mk.injEq, List.not_mem_nil, or_false] at h
  obtain ⟨rfl, rfl⟩ | ⟨rfl, rfl⟩ | ⟨rfl, rfl⟩ := h
  · exact runToSr_eq_of_super (.oriSr data) .or data s hs
  · exact runToSr_eq_of_super (.andiSr data) .and data s hs
  · exact runToSr_eq_of_super (.eoriSr data) .eor data s hs

/-- Settles O18: the three sizes of `<ea>,Dn` with AND. -/
theorem andToRegisterResult : Obligations.AndToRegisterResult := by
  intro dn ea s sz i h hb readable
  exact exec_eaToReg_regWritten (o := .and) (shape_of_sizeRow (.eaToReg .and · dn ea) rfl rfl rfl h) hb readable

/-- Settles O20: the three sizes of `Dn,<ea>` with AND. -/
theorem andToMemoryResult : Obligations.AndToMemoryResult := by
  intro dn ea s a sp sz i h hl hb ha hr hw
  exact exec_regToEa_memWritten (o := .and) (shape_of_sizeRow (.regToEa .and · dn ea) rfl rfl rfl h) hl hb ha hr hw

/-- Settles O23: the three sizes of `#<data>,<ea>` with AND, in memory and in a data register. -/
theorem andiResult : Obligations.AndiResult := by
  refine ⟨fun x y z ea s a sp sz i data h hl hb ha hr hw => ?_, fun x y z n s sz i data h => ?_⟩
  · obtain ⟨shape, fits⟩ := shape_of_immRow (o := .and) (ea := ea) rfl rfl rfl h
    exact exec_immToEa_memWritten (o := .and) shape fits hl hb ha hr hw
  · obtain ⟨shape, fits⟩ := shape_of_immRow (o := .and) (ea := .dreg n) rfl rfl rfl h
    exact exec_immToEa_regWritten (o := .and) shape fits s

end Sys2Proof.Machine
end

section
/-! PROOFS. EOR and EORI (42_eor.md): their results, in memory and in a data register. The rows of the statements and the
other forms are those of the AND family; `Dn,<ea>` to a data register, which only EOR has, is here. -/

namespace Sys2Proof.Machine

/-- `Dm,Dn` (R170): a data register holds the size's part of both operands, and there is no extension word. -/
theorem exec_regToEa_regWritten {i : Instr} {o : LogicOp} {sz : Size} {dn n : Fin 8}
    (hi : i.shape = .regToEa o sz dn (.dreg n)) (s : State) :
    ∃ t, exec i s = .next t
      ∧ RegWritten s t (.dreg n) sz n (logicOp o (s.dReg n &&& sz.mask) (s.dReg dn &&& sz.mask)) 2 := by
  have length : instrLength i = 2 := congrArg Shape.length hi
  have size := logicOp_masked o sz _ _ (and_mask_masked sz (s.dReg n)) (and_mask_masked sz (s.dReg dn))
  rw [exec_eq_runShape, hi, ← length]
  exact runModify_register i sz (fun x => logicOp o x (s.dReg dn &&& sz.mask)) (s.pc + 2#32) n s size

/-- The size's part of an exclusive or is the exclusive or of the parts (R138). -/
theorem logicOp_eor_masked (sz : Size) (x y : Long) :
    logicOp .eor (x &&& sz.mask) (y &&& sz.mask) = (x ^^^ y) &&& sz.mask := by
  apply BitVec.eq_of_getLsbD_eq
  intro k hk
  simp only [logicOp, BitVec.getLsbD_and, BitVec.getLsbD_xor, Bool.and_xor_distrib_right]

/-- Settles O22: the three sizes of `Dn,<ea>` with EOR, in memory and in a data register. -/
theorem eorResult : Obligations.EorResult := by
  refine ⟨fun dn ea s a sp sz i h hl hb ha hr hw => ?_, fun dn n s sz i h => ?_⟩
  · have shape := shape_of_sizeRow (.regToEa .eor · dn ea) rfl rfl rfl h
    exact exec_regToEa_memWritten (o := .eor) shape hl hb ha hr hw
  · have shape := shape_of_sizeRow (.regToEa .eor · dn (.dreg n)) rfl rfl rfl h
    rw [← logicOp_eor_masked]
    exact exec_regToEa_regWritten shape s

/-- Settles O24: the three sizes of `#<data>,<ea>` with EOR, in memory and in a data register. -/
theorem eoriResult : Obligations.EoriResult := by
  refine ⟨fun x y z ea s a sp sz i data h hl hb ha hr hw => ?_, fun x y z n s sz i data h => ?_⟩
  · obtain ⟨shape, fits⟩ := shape_of_immRow (o := .eor) (ea := ea) rfl rfl rfl h
    exact exec_immToEa_memWritten (o := .eor) shape fits hl hb ha hr hw
  · obtain ⟨shape, fits⟩ := shape_of_immRow (o := .eor) (ea := .dreg n) rfl rfl rfl h
    exact exec_immToEa_regWritten (o := .eor) shape fits s

end Sys2Proof.Machine
end

section
/-! PROOFS. NOT (43_not.md): its result, in memory and in a data register. -/

namespace Sys2Proof.Machine

/-- NotOp of the size's part of a value is the size's part of its complement (R138). -/
theorem notOp_and_mask (sz : Size) (x : Long) : notOp sz (x &&& sz.mask) = ~~~x &&& sz.mask := by
  rw [notOp_eq_xor sz _ (and_mask_masked sz x)]
  apply BitVec.eq_of_getLsbD_eq
  intro k hk
  simp only [BitVec.getLsbD_xor, BitVec.getLsbD_and, BitVec.getLsbD_not, hk, decide_true, Bool.true_and]
  cases x.getLsbD k with
  | false => exact Bool.false_xor _
  | true => exact Bool.xor_self _

section
variable {i : Instr} {sz : Size} {ea : Ea} {s : State} {a : Addr} {sp : Space}

/-- NOT `<ea>` (R190) with its destination in plain storage. -/
theorem exec_notEa_memWritten (hi : i.shape = .notEa sz ea) (hl : eaLoc ea sz (s.pc + 2#32) s = .mem a sp)
    (hb : s.busWrites = []) (ha : alignedFor sz a) (hr : s.readsPlain a sz.bytes sp) (hw : s.writesPlain a sz.bytes) :
    ∃ t, exec i s = .next t ∧ MemWritten s t ea sz a (~~~ s.valueAt a sz &&& sz.mask) (2 + ea.extBytes sz) := by
  have length : instrLength i = 2 + ea.extBytes sz := congrArg Shape.length hi
  have result := notOp_and_mask sz (s.valueAt a sz)
  rw [and_mask_valueAt] at result
  rw [exec_eq_runShape, hi, ← length, ← result]
  exact runModify_memory i sz (notOp sz) _ ea s a sp hl hb ha hr hw (notOp_masked (and_mask_valueAt s a sz))

/-- NOT `Dn` (R190), which has no extension word. -/
theorem exec_notEa_regWritten {n : Fin 8} (hi : i.shape = .notEa sz (.dreg n)) (s : State) :
    ∃ t, exec i s = .next t ∧ RegWritten s t (.dreg n) sz n (~~~ s.dReg n &&& sz.mask) 2 := by
  have length : instrLength i = 2 := congrArg Shape.length hi
  rw [exec_eq_runShape, hi, ← length, ← notOp_and_mask]
  exact runModify_register i sz (notOp sz) (s.pc + 2#32) n s (notOp_masked (and_mask_masked sz (s.dReg n)))

end

/-- Settles O26: the three sizes of NOT, in memory and in a data register. -/
theorem notResult : Obligations.NotResult := by
  refine ⟨fun ea s a sp sz i h hl hb ha hr hw => ?_, fun n s sz i h => ?_⟩
  · exact exec_notEa_memWritten (shape_of_sizeRow (.notEa · ea) rfl rfl rfl h) hl hb ha hr hw
  · exact exec_notEa_regWritten (shape_of_sizeRow (.notEa · (.dreg n)) rfl rfl rfl h) s

end Sys2Proof.Machine
end

section
/-! PROOFS. OR and ORI (44_or.md): their results. The rows of the statements and the lemmas that hold for every operation
are those of the AND family. -/

namespace Sys2Proof.Machine

/-- Settles O19: the three sizes of `<ea>,Dn` with OR. -/
theorem orToRegisterResult : Obligations.OrToRegisterResult := by
  intro dn ea s sz i h hb readable
  have shape : i.shape = .eaToReg .or sz dn ea := shape_of_sizeRow (.eaToReg .or · dn ea) rfl rfl rfl h
  exact exec_eaToReg_regWritten (o := .or) shape hb readable

/-- Settles O21: the three sizes of `Dn,<ea>` with OR. -/
theorem orToMemoryResult : Obligations.OrToMemoryResult := by
  intro dn ea s a sp sz i h hl hb ha hr hw
  have shape : i.shape = .regToEa .or sz dn ea := shape_of_sizeRow (.regToEa .or · dn ea) rfl rfl rfl h
  exact exec_regToEa_memWritten (o := .or) shape hl hb ha hr hw

/-- Settles O25: the three sizes of `#<data>,<ea>` with OR, in memory and in a data register. -/
theorem oriResult : Obligations.OriResult := by
  refine ⟨fun x y z ea s a sp sz i data h hl hb ha hr hw => ?_, fun x y z n s sz i data h => ?_⟩
  · obtain ⟨shape, fits⟩ := shape_of_immRow (o := .or) (ea := ea) rfl rfl rfl h
    exact exec_immToEa_memWritten (o := .or) shape fits hl hb ha hr hw
  · obtain ⟨shape, fits⟩ := shape_of_immRow (o := .or) (ea := .dreg n) rfl rfl rfl h
    exact exec_immToEa_regWritten (o := .or) shape fits s

end Sys2Proof.Machine
end

section
/-! PROOFS. Exceptions (60_exceptions.md): the two frames in plain storage, what an entry leaves (R221, R222), and what
follows for the privilege violation, for a fault in a short-frame entry and for the return from one (R223, R231, R232). -/

namespace Sys2Proof.Machine

/-! ### SR after an entry -/

/-- `SR.S <- 1; SR.T <- 0` keeps the other bits of SR (R221, R222). -/
theorem enterSupervisor_enteredSr (s : State) : EnteredSr s.sr s.enterSupervisor.sr none := by
  refine ⟨s.enterSupervisor_traceBit, s.enterSupervisor_super, ?_, fun k h15 h13 _ => ?_⟩
  · apply BitVec.eq_of_getLsbD_eq
    intro k hk
    simp only [State.enterSupervisor, Option.getD_none, BitVec.getLsbD_extractLsb', BitVec.getLsbD_or, BitVec.getLsbD_and]
    interval_cases k <;> simp
  · by_cases hk : k < 16
    · simp only [State.enterSupervisor, BitVec.getLsbD_or, BitVec.getLsbD_and]
      interval_cases k <;> simp at h15 h13 ⊢
    · rw [BitVec.getLsbD_of_ge _ k (by omega), BitVec.getLsbD_of_ge _ k (by omega)]

/-- The mask of an interrupt replaces SR[10:8] alone (R221). -/
theorem EnteredSr.setMask {sr : Word} {s : State} (h : EnteredSr sr s.sr none) (l : BitVec 3) :
    EnteredSr sr (s.setMask l).sr (some l) := by
  have other (k : Nat) (hk : ¬ (8 ≤ k ∧ k ≤ 10)) : (s.setMask l).sr.getLsbD k = s.sr.getLsbD k := by
    by_cases hk' : k < 16
    · simp only [State.setMask, BitVec.getLsbD_or, BitVec.getLsbD_and, BitVec.getLsbD_shiftLeft, BitVec.getLsbD_setWidth]
      interval_cases k <;> simp at hk ⊢
    · rw [BitVec.getLsbD_of_ge _ k (by omega), BitVec.getLsbD_of_ge _ k (by omega)]
  obtain ⟨trace, super, -, rest⟩ := h
  refine ⟨(other 15 (by decide)).trans trace, (other 13 (by decide)).trans super, ?_,
    fun k h15 h13 hm => (other k hm).trans (rest k h15 h13 hm)⟩
  apply BitVec.eq_of_getLsbD_eq
  intro k hk
  simp only [State.setMask, Option.getD_some, BitVec.getLsbD_extractLsb', BitVec.getLsbD_or, BitVec.getLsbD_and,
    BitVec.getLsbD_shiftLeft, BitVec.getLsbD_setWidth]
  interval_cases k <;> simp

theorem beginShort_enteredSr (s : State) (level : Option (BitVec 3)) :
    EnteredSr s.sr (s.beginShort level).sr level := by
  cases level with
  | none => exact enterSupervisor_enteredSr s
  | some l => exact (enterSupervisor_enteredSr s).setMask l

/-! ### A frame in plain storage -/

theorem phys_congr {s t : State} (h : t.addrBits = s.addrBits) (a : Addr) : t.phys a = s.phys a := by
  simp only [State.phys, State.physBits, h]

/-- A part of a range of plain storage is plain storage. -/
theorem writesPlain_part {s : State} {a : Addr} {n : Nat} (j m : Nat) (hn : j + m ≤ n) (h : s.writesPlain a n) :
    s.writesPlain (a + BitVec.ofNat 32 j) m := fun k hk => by
  rw [BitVec.add_assoc, ← BitVec.ofNat_add]
  exact h (j + k) (by omega)

/-- A part of a range that can be read can be read. -/
theorem readsPlain_part {s : State} {a : Addr} {n : Nat} {sp : Space} (j m : Nat) (hn : j + m ≤ n)
    (h : s.readsPlain a n sp) : s.readsPlain (a + BitVec.ofNat 32 j) m sp := fun k hk => by
  rw [BitVec.add_assoc, ← BitVec.ofNat_add]
  exact h (j + k) (by omega)

/-- Every byte of the place of a frame belongs to one of its words. -/
theorem Consecutive.exists_word {a : Addr} {ws : List PendingWord} (h : Consecutive a ws) {k : Nat}
    (hk : k < 2 * ws.length) :
    ∃ w ∈ ws, a + BitVec.ofNat 32 k = w.addr ∨ a + BitVec.ofNat 32 k = w.addr + 1#32 := by
  induction ws generalizing a k with
  | nil => exact absurd hk (Nat.not_lt_zero k)
  | cons w ws ih =>
    obtain ⟨here, above⟩ := h
    match k, hk with
    | 0, _ => exact ⟨w, List.mem_cons_self, .inl ((BitVec.add_zero a).trans here.symm)⟩
    | 1, _ => exact ⟨w, List.mem_cons_self, .inr (congrArg (· + 1#32) here.symm)⟩
    | j + 2, hk =>
      simp only [List.length_cons] at hk
      obtain ⟨x, hx, e⟩ := ih above (k := j) (by omega)
      rw [BitVec.add_assoc, ← BitVec.ofNat_add, Nat.add_comm] at e
      exact ⟨x, List.mem_cons_of_mem _ hx, e⟩

/-- The words of a list are in memory, and an instruction fetch of their bytes sees them (R62). -/
def State.HoldsWords (t : State) (ws : List PendingWord) : Prop :=
  ∀ w ∈ ws, t.holdsByte w.addr (hiByte w.value) ∧ t.holdsByte (w.addr + 1#32) (loByte w.value)

theorem State.HoldsWords.mono {t : State} {ws vs : List PendingWord} (h : t.HoldsWords ws) (sub : vs ⊆ ws) :
    t.HoldsWords vs := fun w hw => h w (sub hw)

theorem State.HoldsWords.valueAt_word {t : State} {ws : List PendingWord} (h : t.HoldsWords ws) {w : PendingWord}
    (hw : w ∈ ws) : t.valueAt w.addr .word = w.value.setWidth 32 := by
  obtain ⟨high, low⟩ := h w hw
  exact t.valueAt_word _ _ high.1 low.1

/-- The two words of a long read as that long (R51). -/
theorem State.HoldsWords.valueAt_long {t : State} {a : Addr} {v : Long} (h : t.HoldsWords (longWords a v)) :
    t.valueAt a .long = v := by
  obtain ⟨b0, b1⟩ := h _ List.mem_cons_self
  obtain ⟨b2, b3⟩ := h _ (List.mem_cons_of_mem _ List.mem_cons_self)
  rw [add_two_one] at b3
  exact t.valueAt_long a v b0.1 b1.1 b2.1 b3.1

/-- An instruction fetch of a byte of a stacked frame sees the frame (R62). -/
theorem State.HoldsWords.streamAt_eq_byteAt {t : State} {a : Addr} {ws : List PendingWord} (h : t.HoldsWords ws)
    (hc : Consecutive a ws) {b : Addr} (hb : ¬ t.outside a (2 * ws.length) b) : t.streamAt b = t.byteAt b := by
  simp only [State.outside, not_forall, not_not] at hb
  obtain ⟨k, hk, hp⟩ := hb
  have seen {v : Byte} (held : t.holdsByte (a + BitVec.ofNat 32 k) v) : t.streamAt b = t.byteAt b := by
    rw [State.streamAt, State.byteAt, hp]
    exact held.2.trans held.1.symm
  obtain ⟨w, hw, e | e⟩ := hc.exists_word hk
  · exact seen (e ▸ (h w hw).1)
  · exact seen (e ▸ (h w hw).2)

/-! ### The short frame -/

/-- What a short-frame entry has done once its frame is stacked, before the pc is loaded (R221). -/
structure ShortStacked (s t : State) (level : Option (BitVec 3)) (pcSaved : Addr) : Prop where
  entered : EnteredSr s.sr t.sr level
  rest : t = { s with mem := t.mem, held := t.held, sr := t.sr, ssp := s.ssp - 6#32, tracePending := false }
  savedSr : t.valueAt (s.ssp - 6#32) .word = s.srValue.setWidth 32
  savedPc : t.valueAt (s.ssp - 4#32) .long = pcSaved
  bytes : ∀ b, (s.outside (s.ssp - 6#32) 6 b → s.sameAt t b)
    ∧ (¬ s.outside (s.ssp - 6#32) 6 b → t.streamAt b = t.byteAt b)

theorem beginShort_eq (s : State) (level : Option (BitVec 3)) :
    s.beginShort level
      = { s with sr := (s.beginShort level).sr, ssp := s.ssp - 6#32, tracePending := false } := by
  cases level <;> rfl

theorem shortStacked_of_holdsWords {s t : State} {level : Option (BitVec 3)} {pcSaved : Addr}
    (m : MemOnly (s.beginShort level) t) (words : t.HoldsWords (shortFrame (s.ssp - 6#32) s.srValue pcSaved))
    (others : ∀ b, s.outside (s.ssp - 6#32) 6 b → s.sameAt t b) : ShortStacked s t level pcSaved := by
  have sr : t.sr = (s.beginShort level).sr := by rw [m]
  have bits : t.addrBits = s.addrBits := by rw [m, beginShort_eq]
  have pcPlace : s.ssp - 6#32 + 2#32 = s.ssp - 4#32 := by bv_omega
  have savedSr : t.valueAt (s.ssp - 6#32) .word = s.srValue.setWidth 32 :=
    words.valueAt_word (w := { addr := s.ssp - 6#32, access := s.ssp - 6#32, value := s.srValue }) List.mem_cons_self
  refine ⟨sr ▸ beginShort_enteredSr s level, ?_, savedSr, ?_, fun b =>
    ⟨others b, fun inside => words.streamAt_eq_byteAt (shortFrame_consecutive _ _ _) fun out => inside ?_⟩⟩
  · rw [m, beginShort_eq]
  · rw [← pcPlace]
    exact (words.mono (List.subset_cons_self _ _)).valueAt_long
  · exact fun k hk => by simpa only [phys_congr bits] using out k hk

/-- What memory holds does not depend on the pc. -/
theorem valueAt_withPc (t : State) (p a : Addr) (sz : Size) : { t with pc := p : State }.valueAt a sz = t.valueAt a sz :=
  rfl

/-- Settles O29: the frame is stacked and the pc comes from the vector. -/
theorem shortFrameEntry : Obligations.ShortFrameEntry := by
  intro s v level pcSaved pc0 ir h
  obtain ⟨t, entry, m, -, words, others⟩ := takeShort_of_canEnter s v level pcSaved pc0 ir h
  obtain ⟨entered, rest, savedSr, savedPc, bytes⟩ := shortStacked_of_holdsWords m words others
  rw [entry]
  refine ⟨⟨t.mem, t.held, t.sr, entered, ?_⟩, (valueAt_withPc t _ _ _).trans savedSr,
    (valueAt_withPc t _ _ _).trans savedPc, bytes⟩
  rw [valueAt_withPc]
  exact congrArg (fun u : State => { u with pc := t.valueAt (v.setWidth 32 <<< 2) .long }) rest

/-- What an entry needs of a state is said by its bus writes, SSP and the map (R221, R222). -/
theorem canEnter_congr {s t : State} (hb : t.busWrites = s.busWrites) (hssp : t.ssp = s.ssp)
    (hm : t.memMap = s.memMap) (ha : t.addrBits = s.addrBits) {n : Nat} {v : BitVec 8} (h : s.canEnter n v) :
    t.canEnter n v := by
  have map := mapAt_congr (s := s.enterSupervisor) (t := t.enterSupervisor) hm ha
    (t.enterSupervisor_super.trans s.enterSupervisor_super.symm)
  obtain ⟨bus, even, writes, reads⟩ := h
  refine ⟨hb.trans bus, hssp ▸ even, fun k hk => ?_, fun k hk => ?_⟩
  · rw [map, hssp]
    exact writes k hk
  · rw [map]
    exact reads k hk

/-- Settles O17: in user mode a form to SR is the short-frame entry through vector 8 (R223). -/
theorem toSrFormsInUserModeTrap : Obligations.ToSrFormsInUserModeTrap := by
  intro s data i user room hi
  have privilege (j : Instr) (o : LogicOp) : runToSr j o data s = .next (s.takePrivilege (opWord j)) :=
    if_neg (by simp [user])
  refine ⟨s.takePrivilege (opWord i), ?_, shortFrameEntry s 8#8 none s.pc s.pc (some (opWord i)) room⟩
  simp only [List.mem_cons, List.not_mem_nil, or_false] at hi
  obtain rfl | rfl | rfl := hi
  · exact privilege (.oriSr data) .or
  · exact privilege (.andiSr data) .and
  · exact privilege (.eoriSr data) .eor

/-! ### The return from a short frame -/

/-- Settles O39: the two reads of the return find the frame that the entry stacked. -/
theorem returnUndoesShortEntry : Obligations.ReturnUndoesShortEntry := by
  intro s v level pcSaved pc0 ir room readable
  obtain ⟨entry, -⟩ := takeShort_entry s v level pcSaved pc0 ir
  obtain ⟨⟨m, h, sr', -, rest⟩, savedSr, savedPc, -⟩ := shortFrameEntry s v level pcSaved pc0 ir room
  generalize s.takeShort v level pcSaved pc0 ir = t at *
  have bus : t.busWrites = [] := by rw [rest]; exact room.1
  have ssp : t.ssp = s.ssp - 6#32 := by rw [rest]
  have even : (s.ssp - 6#32).getLsbD 0 = false := even_sub _ _ room.2.1 rfl
  have pcPlace : s.ssp - 6#32 + 2#32 = s.ssp - 4#32 := by bv_omega
  have map := mapAt_congr (s := s.enterSupervisor) entry.memMap entry.addrBits
    (entry.super.trans s.enterSupervisor_super.symm)
  have plain : t.readsPlain (s.ssp - 6#32) 6 .data := fun k hk => by
    rw [map]
    exact readable k hk
  have readSr : t.memRead (s.ssp - 6#32) .word .data = .ok (s.srValue.setWidth 32) t := by
    rw [memRead_plain t _ .word .data bus (.inr even) (fun k hk => plain k (hk.trans (by decide))), savedSr]
  have readPc : t.memRead (s.ssp - 6#32 + 2#32) .long .data = .ok pcSaved t := by
    rw [memRead_plain t _ .long .data bus (.inr (even_add_two _ even)) (readsPlain_part 2 4 (by decide) plain), pcPlace, savedPc]
  have popped : s.ssp - 6#32 + 6#32 = s.ssp := by bv_omega
  have sr : (s.srValue.setWidth 32).setWidth 16 &&& srImplMask = s.srValue := by
    rw [BitVec.setWidth_setWidth_of_le _ (by decide), BitVec.setWidth_eq, State.srValue, BitVec.and_assoc, BitVec.and_self]
  refine ⟨{ t with ssp := t.ssp + 6#32, pc := pcSaved, sr := (s.srValue.setWidth 32).setWidth 16 &&& srImplMask }, ?_, sr,
    rfl, (congrArg (· + 6#32) ssp).trans popped, entry.usp, entry.d, entry.a⟩
  simp only [State.returnFromShort, ssp, readSr, readPc]

/-! ### The long frame -/

/-- Bits 4:0 of the first word of the long frame (R222). -/
theorem infoWord_low (e : AccessFault) (inEntry : Bool) (free : Word) :
    ((infoWord e inEntry free).setWidth 32).setWidth 5
      = BitVec.ofBool (!e.write) ++ BitVec.ofBool inEntry ++ e.functionCode := by
  unfold infoWord
  generalize BitVec.ofBool (!e.write) ++ BitVec.ofBool inEntry ++ e.functionCode = low
  apply BitVec.eq_of_getLsbD_eq
  intro k hk
  simp only [BitVec.getLsbD_setWidth, BitVec.getLsbD_or, BitVec.getLsbD_and]
  interval_cases k <;> simp

/-- The saved pc of a long frame is even and from 2 to 10 above the instruction's address (R222, log 11). -/
theorem groupZeroPc_range (pc0 : Addr) (k : Nat) :
    (groupZeroPc pc0 k).getLsbD 0 = false ∧ 2 ≤ (groupZeroPc pc0 k - pc0).toNat ∧ (groupZeroPc pc0 k - pc0).toNat ≤ 10 := by
  have parity (x : Addr) : x.getLsbD 0 = decide (x.toNat % 2 = 1) := by simp [BitVec.getLsbD, Nat.testBit_zero]
  have five : k % 5 < 5 := Nat.mod_lt k (by decide)
  have four : k % 4 < 4 := Nat.mod_lt k (by decide)
  unfold groupZeroPc
  split
  · rename_i odd
    rw [parity, decide_eq_true_eq] at odd
    rw [parity, decide_eq_false_iff_not]
    refine ⟨?_, ?_, ?_⟩ <;> bv_omega
  · rename_i even
    rw [parity, decide_eq_true_eq] at even
    rw [parity, decide_eq_false_iff_not]
    refine ⟨?_, ?_, ?_⟩ <;> bv_omega

/-- The fields of a stacked long frame (R222). -/
theorem State.HoldsWords.longFrame_fields {t : State} {sp f pc : Addr} {info ir sr : Word}
    (h : t.HoldsWords (longFrame sp info f ir sr pc)) :
    t.valueAt sp .word = info.setWidth 32 ∧ t.valueAt (sp + 2#32) .long = f
    ∧ t.valueAt (sp + 6#32) .word = ir.setWidth 32 ∧ t.valueAt (sp + 8#32) .word = sr.setWidth 32
    ∧ t.valueAt (sp + 10#32) .long = pc := by
  have word {a : Addr} {x : Word} (hw : { addr := a, access := a, value := x } ∈ longFrame sp info f ir sr pc) :
      t.valueAt a .word = x.setWidth 32 := h.valueAt_word (w := { addr := a, access := a, value := x }) hw
  have long {a : Addr} {v : Long} (hv : longWords a v ⊆ longFrame sp info f ir sr pc) : t.valueAt a .long = v :=
    (h.mono hv).valueAt_long
  refine ⟨word ?_, long ?_, word ?_, word ?_, long ?_⟩ <;> simp [longFrame, longWords]

/-- Settles O30: the frame is stacked with its seven fields in their places, and the pc comes from the vector. -/
theorem longFrameEntry : Obligations.LongFrameEntry := by
  intro s e inEntry pc0 ir room
  obtain ⟨t, entry, m, -, words, others⟩ := takeGroupZero_of_canEnter s e inEntry pc0 ir room
  have bits : t.addrBits = s.addrBits := by rw [m]; rfl
  have stacked : t.HoldsWords (s.groupZeroFrame e inEntry pc0 ir) := words
  obtain ⟨info, addr, word, sr, pc⟩ := stacked.longFrame_fields
  rw [show s.ssp - 14#32 + 2#32 = s.ssp - 12#32 by bv_omega] at addr
  rw [show s.ssp - 14#32 + 6#32 = s.ssp - 8#32 by bv_omega] at word
  rw [show s.ssp - 14#32 + 8#32 = s.ssp - 6#32 by bv_omega] at sr
  rw [show s.ssp - 14#32 + 10#32 = s.ssp - 4#32 by bv_omega] at pc
  have low := infoWord_low e inEntry (Config.freeWord s.draws)
  rw [← info] at low
  have range := groupZeroPc_range pc0 (Config.freePick (s.draws + 2))
  have view (b : Addr) (inside : ¬ s.outside (s.ssp - 14#32) 14 b) : t.streamAt b = t.byteAt b :=
    stacked.streamAt_eq_byteAt (longFrame_consecutive _ _ _ _ _ _) fun out => inside fun k hk => by
      simpa only [phys_congr bits] using out k hk
  rw [entry]
  unfold LongEntered
  simp only [valueAt_withPc]
  refine ⟨⟨t.mem, t.held, s.draws + 3, s.enterSupervisor.sr, enterSupervisor_enteredSr s, ?_⟩, low, addr,
    fun w hw => by rwa [hw] at word, sr, ⟨_, pc, range⟩, fun b => ⟨others b, view b⟩⟩
  exact congrArg (fun u : State => { u with pc := t.valueAt (e.vector.setWidth 32 <<< 2) .long }) m

/-- The same, by the vector and the low bits of the first word. -/
theorem takeGroupZero_longEntered {s : State} {e : AccessFault} {inEntry : Bool} {v : BitVec 8} {low : BitVec 5}
    (hv : e.vector = v) (hlow : BitVec.ofBool (!e.write) ++ BitVec.ofBool inEntry ++ e.functionCode = low)
    (room : s.canEnter 14 v) (pc0 : Addr) (ir : Option Word) :
    LongEntered s (s.takeGroupZero e inEntry pc0 ir) v low e.addr pc0 ir := by
  subst hv hlow
  exact longFrameEntry s e inEntry pc0 ir room

/-! ### A fault in a short-frame entry -/

/-- The short frame is stacked where its six bytes are plain storage (R221). -/
theorem beginShort_writeFrame (s : State) (level : Option (BitVec 3)) (pcSaved : Addr) (hb : s.busWrites = [])
    (ha : s.ssp.getLsbD 0 = false) (hw : s.enterSupervisor.writesPlain (s.ssp - 6#32) 6) :
    ∃ t, (s.beginShort level).writeFrame (shortFrame (s.beginShort level).ssp s.srValue pcSaved) = .ok () t
      ∧ ShortStacked s t level pcSaved := by
  obtain ⟨entry, ssp⟩ := beginShort_entry s level
  have map := mapAt_congr (s := s.enterSupervisor) entry.memMap entry.addrBits
    (entry.super.trans s.enterSupervisor_super.symm)
  obtain ⟨t, written, m, -, words, others⟩ := writeFrame_plain (s.beginShort level)
    (shortFrame (s.beginShort level).ssp s.srValue pcSaved) (by rw [beginShort_eq]; exact hb)
    (by rw [ssp]; exact even_sub _ _ ha rfl) (shortFrame_consecutive _ _ _) (Nat.le_of_ble_eq_true rfl)
    (fun k hk => by rw [map, ssp]; exact hw k hk)
  rw [ssp] at words others
  refine ⟨t, written, shortStacked_of_holdsWords m words fun b out => ?_⟩
  have same := others b (fun k hk => by simpa only [phys_congr entry.addrBits] using out k hk)
  rw [beginShort_eq] at same
  exact same

/-- Settles O34: the short frame is stacked, and the fault of the vector is a long-frame entry from there. -/
theorem faultInShortEntryBecomesBusError : Obligations.FaultInShortEntryBecomesBusError := by
  intro s v level pcSaved pc0 ir k bus even writes hk fault vector
  have shortPlace : s.ssp - 20#32 + BitVec.ofNat 32 14 = s.ssp - 6#32 := by bv_omega
  have longPlace : s.ssp - 6#32 - BitVec.ofNat 32 14 = s.ssp - 20#32 := by bv_omega
  obtain ⟨t, written, stacked⟩ := beginShort_writeFrame s level pcSaved bus even
    (shortPlace ▸ writesPlain_part 14 6 (by decide) writes)
  have mode : t.super = true := stacked.entered.2.1
  have memMap : t.memMap = s.memMap := by rw [stacked.rest]
  have bits : t.addrBits = s.addrBits := by rw [stacked.rest]
  have ssp : t.ssp = s.ssp - 6#32 := by rw [stacked.rest]
  have map := mapAt_congr (s := s.enterSupervisor) memMap bits (mode.trans s.enterSupervisor_super.symm)
  have enter := mapAt_congr (s := s.enterSupervisor) (t := t.enterSupervisor) memMap bits
    (t.enterSupervisor_super.trans s.enterSupervisor_super.symm)
  have aborted : t.readVector v = .abort (t.busErrorAt (v.setWidth 32 <<< 2) false .data) t :=
    memRead_of_anyFault t _ .long .data (.inr (vectorAddr_even v))
      ((anyFault_iff t _ false .data 4).2 ⟨k, hk, (map _ _ _).trans fault⟩)
  have room : t.canEnter 14 2#8 := by
    refine ⟨by rw [stacked.rest]; exact bus, ssp ▸ even_sub _ _ even rfl, fun j hj => ?_, fun j hj => ?_⟩
    · rw [ssp, longPlace, enter]
      exact writes j (by omega)
    · rw [enter]
      exact vector j hj
  have low : BitVec.ofBool (!false) ++ BitVec.ofBool true
      ++ (t.busErrorAt (v.setWidth 32 <<< 2) false .data).functionCode = 0x1D#5 := by
    simp [AccessFault.functionCode, State.busErrorAt, mode]
  have entry := takeGroupZero_longEntered (e := t.busErrorAt (v.setWidth 32 <<< 2) false .data) rfl low room pc0 ir
  refine ⟨t.mem, t.held, t.sr, t, stacked.entered, stacked.rest, stacked.savedSr, stacked.savedPc, stacked.bytes, ?_⟩
  rw [State.takeShort]
  simp only [written, aborted]
  exact entry

end Sys2Proof.Machine
end

section
/-! PROOFS. Exceptions (60_exceptions.md): every instruction answers a next state, and what it leaves when the read of its
operand ends in a fault (R140, R225, R226). -/

namespace Sys2Proof.Machine

/-! ### Every instruction answers a next state -/

theorem runEaToReg_next (i : Instr) (o : LogicOp) (sz : Size) (dn : Fin 8) (ea : Ea) (s : State) :
    ∃ t, runEaToReg i o sz dn ea s = .next t := by
  unfold runEaToReg
  split
  · exact ⟨_, rfl⟩
  · exact ⟨_, rfl⟩

theorem runModify_next (i : Instr) (sz : Size) (f : Long → Long) (cur : Addr) (ea : Ea) (s : State) :
    ∃ t, runModify i sz f cur ea s = .next t := by
  unfold runModify
  split
  · exact ⟨_, rfl⟩
  · split
    · exact ⟨_, rfl⟩
    · exact ⟨_, rfl⟩

theorem runToSr_next (i : Instr) (o : LogicOp) (data : Word) (s : State) : ∃ t, runToSr i o data s = .next t := by
  unfold runToSr
  split
  · exact ⟨_, rfl⟩
  · exact ⟨_, rfl⟩

/-- Settles O52: completion and the exceptions are next states, in every shape of instruction. -/
theorem everyInstructionAnswersNext : Obligations.EveryInstructionAnswersNext := by
  intro i s
  rw [exec_eq_runShape]
  cases i.shape with
  | toCcr o data => exact ⟨_, rfl⟩
  | toSr o data => exact runToSr_next i o data s
  | immToEa o sz data ea => exact runModify_next i sz _ _ ea s
  | notEa sz ea => exact runModify_next i sz _ _ ea s
  | eaToReg o sz dn ea => exact runEaToReg_next i o sz dn ea s
  | regToEa o sz dn ea => exact runModify_next i sz _ _ ea s

/-! ### An instruction whose operand cannot be read -/

/-- The offset of an operand after an immediate, as one sum. -/
theorem add_immOffset (a : Addr) (sz : Size) :
    a + 2#32 + BitVec.ofNat 32 (immBytes sz) = a + BitVec.ofNat 32 (2 + immBytes sz) := by
  rw [BitVec.ofNat_add, BitVec.add_assoc]

/-- Read, compute, write back, for every instruction that does not write a data register (R137). -/
theorem exec_eq_runModify {i : Instr} {sz : Size} {ea : Ea} {off : Nat} (ho : operandOf i = some (sz, ea, off))
    (hd : destReg i = none) (s : State) :
    exec i s = runModify i sz (modifiedValue i s) (s.pc + BitVec.ofNat 32 off) ea s := by
  rw [exec_eq_runShape]
  unfold operandOf at ho
  unfold destReg at hd
  unfold modifiedValue
  cases hi : i.shape <;> simp only [hi, Option.some.injEq, Prod.mk.injEq, reduceCtorEq] at ho hd
  case immToEa o z data ea' =>
    obtain ⟨rfl, rfl, rfl⟩ := ho
    rw [← add_immOffset]
    rfl
  case notEa z ea' =>
    obtain ⟨rfl, rfl, rfl⟩ := ho
    rfl
  case regToEa o z dn ea' =>
    obtain ⟨rfl, rfl, rfl⟩ := ho
    rfl

/-- Where the operand's read ends in a fault the instruction is abandoned (R140). -/
theorem exec_of_readLoc_abort {i : Instr} {sz : Size} {ea : Ea} {off : Nat} {s u : State} {e : AccessFault}
    (ho : operandOf i = some (sz, ea, off))
    (h : readLoc (eaLoc ea sz (s.pc + BitVec.ofNat 32 off) s) sz (eaStep ea sz s) = .abort e u) :
    exec i s = abandon i ea s e u := by
  have modify (f : Long → Long) : runModify i sz f (s.pc + BitVec.ofNat 32 off) ea s = abandon i ea s e u := by
    simp only [runModify, h]
  rw [exec_eq_runShape]
  unfold operandOf at ho
  cases hi : i.shape <;> simp only [hi, Option.some.injEq, Prod.mk.injEq, reduceCtorEq] at ho <;>
    obtain ⟨rfl, rfl, rfl⟩ := ho
  case immToEa o data =>
    rw [← add_immOffset] at modify
    exact modify _
  case notEa => exact modify _
  case regToEa o dn => exact modify _
  case eaToReg o dn => simp only [runShape, runEaToReg, h]

/-! ### The state an abandoned instruction is left in -/

/-- `u` is `s` but for SR, memory, what is held and the counter of free values. -/
def AccessOnly (s u : State) : Prop := u = { s with sr := u.sr, mem := u.mem, held := u.held, draws := u.draws }

theorem AccessOnly.refl (s : State) : AccessOnly s s := rfl

theorem AccessOnly.trans {s t u : State} (h : AccessOnly s t) (k : AccessOnly t u) : AccessOnly s u := by
  rw [AccessOnly] at *
  rw [k, h]

theorem AccessOnly.canEnter {s u : State} (h : AccessOnly s u) {n : Nat} {v : BitVec 8} (room : s.canEnter n v) :
    u.canEnter n v :=
  canEnter_congr (by rw [h]) (by rw [h]) (by rw [h]) (by rw [h]) room

/-- A write of an address register does not touch them. -/
theorem AccessOnly.setA {s u : State} (h : AccessOnly s u) (hs : u.super = s.super) (n : Fin 8) (v : Long) :
    u.setA n v = { s.setA n v with sr := u.sr, mem := u.mem, held := u.held, draws := u.draws } := by
  unfold State.setA
  rw [hs]
  split
  · rw [h]
  · split <;> rw [h]

/-- What is left of an operand's step after a fault, whatever the accesses did to SR and memory (R140, U5). -/
theorem keepOrUndoStep_of_accessOnly {ea : Ea} {sz : Size} {s u : State} (h : AccessOnly (eaStep ea sz s) u)
    (hs : u.super = s.super) :
    ∃ s' k, (s' = s ∨ s' = eaStep ea sz s)
      ∧ keepOrUndoStep ea s u = { s' with sr := u.sr, mem := u.mem, held := u.held, draws := k } := by
  obtain ⟨k, kept | ⟨n, hn, undone⟩⟩ := keepOrUndoStep_cases ea s u
  · refine ⟨eaStep ea sz s, k, .inr rfl, ?_⟩
    rw [kept]
    exact congrArg (fun x : State => { x with draws := k }) h
  · refine ⟨s, k, .inl rfl, ?_⟩
    rw [undone, h.setA (hs.trans (eaStep_super s ea sz).symm), eaStep_undo ea sz s n hn]

/-- The counter of free values has no part in what an entry leaves. -/
theorem LongEntered.of_draws {s t : State} {v : BitVec 8} {low : BitVec 5} {faultAddr pc0 : Addr} {ir : Option Word}
    {k : Nat} (h : LongEntered { s with draws := k } t v low faultAddr pc0 ir) : LongEntered s t v low faultAddr pc0 ir :=
  h

/-- An abandoned instruction ends in a long-frame entry from the state before it or from the one where its operand's
register has stepped, with SR and memory as the accesses left them (R140, R222). -/
theorem abandon_longEntered {i : Instr} {ea : Ea} {sz : Size} {s u : State} {e : AccessFault} {v : BitVec 8}
    {low : BitVec 5} (h : AccessOnly (eaStep ea sz s) u) (hs : u.super = s.super) (hv : e.vector = v)
    (hlow : BitVec.ofBool (!e.write) ++ BitVec.ofBool false ++ e.functionCode = low) (room : s.canEnter 14 v)
    (stepped : (eaStep ea sz s).canEnter 14 v) :
    ∃ s' t, (s' = s ∨ s' = eaStep ea sz s) ∧ abandon i ea s e u = .next t
      ∧ LongEntered { s' with sr := u.sr, mem := u.mem, held := u.held } t v low e.addr s.pc (some (opWord i)) := by
  obtain ⟨s', k, hs', left⟩ := keepOrUndoStep_of_accessOnly h hs
  have enter : s'.canEnter 14 v := by
    obtain rfl | rfl := hs'
    · exact room
    · exact stepped
  refine ⟨s', _, hs', rfl, ?_⟩
  have same : AccessOnly s' { s' with sr := u.sr, mem := u.mem, held := u.held, draws := k } := rfl
  rw [left]
  exact LongEntered.of_draws (k := k) (takeGroupZero_longEntered hv hlow (same.canEnter enter) s.pc (some (opWord i)))

/-- An operand's read that ends in a fault has done nothing but the operand's step (R54, R140). -/
theorem exec_readFault {i : Instr} {sz : Size} {ea : Ea} {off : Nat} {s : State} {a : Addr} {sp : Space}
    {e : AccessFault} {v : BitVec 8} {low : BitVec 5} (ho : operandOf i = some (sz, ea, off))
    (hl : eaLoc ea sz (s.pc + BitVec.ofNat 32 off) s = .mem a sp)
    (hr : (eaStep ea sz s).memRead a sz sp = .abort e (eaStep ea sz s)) (hv : e.vector = v)
    (hlow : BitVec.ofBool (!e.write) ++ BitVec.ofBool false ++ e.functionCode = low) (room : s.canEnter 14 v)
    (stepped : (eaStep ea sz s).canEnter 14 v) :
    ∃ s' t, (s' = s ∨ s' = eaStep ea sz s) ∧ exec i s = .next t
      ∧ LongEntered s' t v low e.addr s.pc (some (opWord i)) := by
  have abandoned : exec i s = abandon i ea s e (eaStep ea sz s) := exec_of_readLoc_abort ho (by rw [hl]; exact hr)
  obtain ⟨s', t, hs', next, entered⟩ :=
    abandon_longEntered (i := i) (AccessOnly.refl _) (eaStep_super s ea sz) hv hlow room stepped
  refine ⟨s', t, hs', abandoned.trans next, ?_⟩
  obtain rfl | rfl := hs'
  · simpa only [eaStep_sr, eaStep_mem, eaStep_held] using entered
  · exact entered

/-- Settles O31: the read is not made, whatever the map answers. -/
theorem oddOperandTakesAddressError : Obligations.OddOperandTakesAddressError := by
  intro i sz ea off s a sp ho hsz hl odd room stepped
  have fault := memRead_of_odd (eaStep ea sz s) a sz sp ((oddFor_of_ne_byte a hsz).trans odd)
  refine exec_readFault ho hl fault rfl ?_ room stepped
  simp only [State.misalignedAt, AccessFault.functionCode, eaStep_super]
  rfl

/-- Settles O32: the read is not made where the map faults a byte of it. -/
theorem faultingOperandTakesBusError : Obligations.FaultingOperandTakesBusError := by
  intro i sz ea off k s a sp ho aligned hk hl fault room stepped
  have faulted := memRead_of_anyFault (eaStep ea sz s) a sz sp aligned
    ((anyFault_iff _ a false sp sz.bytes).2 ⟨k, hk, (eaStep_mapAt ea sz s _ false sp).trans fault⟩)
  refine exec_readFault ho hl faulted rfl ?_ room stepped
  simp only [State.busErrorAt, AccessFault.functionCode, eaStep_super]
  rfl

end Sys2Proof.Machine
end

section
/-! PROOFS. Exceptions (60_exceptions.md): what an instruction leaves when the write of its result ends in a bus error: of a
long, perhaps one of the two words, and the flags old or new (R55, R140, R226). -/

namespace Sys2Proof.Machine

/-! ### A byte and a word stored wherever the map lets it -/

theorem byteAt_congr {s t : State} (hm : t.mem = s.mem) (ha : t.addrBits = s.addrBits) (a : Addr) :
    t.byteAt a = s.byteAt a := by
  simp only [State.byteAt, hm, phys_congr ha]

theorem streamAt_congr {s t : State} (hm : t.mem = s.mem) (hh : t.held = s.held) (ha : t.addrBits = s.addrBits)
    (a : Addr) : t.streamAt a = s.streamAt a := by
  simp only [State.streamAt, State.fetchView, hm, hh, phys_congr ha]

/-- A byte stored changes memory where the map answers Ram, and nothing elsewhere (R54). -/
theorem storeByte_eq (s : State) (a : Addr) (v : Byte) :
    s.storeByte a v =
      if s.mapAt a true .data = .ram then
        { s with mem := s.mem.write (s.phys a) v, held := dropCell s.held (s.phys a) }
      else s := by
  unfold State.storeByte
  split <;> simp [*]

theorem storeByte_memOnly (s : State) (a : Addr) (v : Byte) : MemOnly s (s.storeByte a v) := by
  rw [storeByte_eq]
  split
  · rfl
  · exact MemOnly.refl s

/-- The byte at `b` after a byte is stored at `a`: the stored one, in memory and for a fetch, or what it was (R54, R62). -/
theorem storeByte_at (s : State) (a b : Addr) (v : Byte) :
    (s.mapAt a true .data = .ram ∧ s.phys b = s.phys a ∧ (s.storeByte a v).holdsByte b v)
    ∨ (¬ (s.mapAt a true .data = .ram ∧ s.phys b = s.phys a) ∧ s.sameAt (s.storeByte a v) b) := by
  by_cases ram : s.mapAt a true .data = .ram
  · have view := s.storeByte_fetchView a v ram (s.phys b)
    have read := Memory.read_write s.mem (s.phys a) (s.phys b) v
    rw [s.storeByte_plain a v ram] at view ⊢
    by_cases here : s.phys b = s.phys a
    · rw [if_pos here] at view read
      exact .inl ⟨ram, here, read, view⟩
    · rw [if_neg here] at view read
      exact .inr ⟨fun h => here h.2, read, view⟩
  · rw [storeByte_eq, if_neg ram]
    exact .inr ⟨fun h => ram h.1, rfl, rfl⟩

/-- The byte of a word that is stored `k` bytes above its address (R51). -/
def wordByte (w : Word) (k : Nat) : Byte := if k = 0 then hiByte w else loByte w

/-- Bytes at different small distances from an address are different bytes (R58). -/
theorem phys_ofNat_inj (s : State) (a : Addr) {i j : Nat} (hi : i < 2 ^ 24) (hj : j < 2 ^ 24)
    (h : s.phys (a + BitVec.ofNat 32 i) = s.phys (a + BitVec.ofNat 32 j)) : i = j := by
  have e := (s.phys_add_inj a _ _ (by simp only [BitVec.toNat_ofNat]; omega) (by simp only [BitVec.toNat_ofNat]; omega)).1 h
  have := congrArg BitVec.toNat e
  simp only [BitVec.toNat_ofNat] at this
  omega

/-- The byte at `b` after a word is stored at `a`: a byte of the word, or what it was. -/
theorem storeWordCycle_at (s : State) (a b : Addr) (w : Word) (hb : s.busWrites = []) :
    (∃ k < 2, s.mapAt (a + BitVec.ofNat 32 k) true .data = .ram ∧ s.phys b = s.phys (a + BitVec.ofNat 32 k)
      ∧ (s.storeWordCycle a w).holdsByte b (wordByte w k))
    ∨ ((∀ k < 2, ¬ (s.mapAt (a + BitVec.ofNat 32 k) true .data = .ram ∧ s.phys b = s.phys (a + BitVec.ofNat 32 k)))
      ∧ s.sameAt (s.storeWordCycle a w) b) := by
  have high := storeByte_memOnly s a (hiByte w)
  have second := storeByte_at (s.storeByte a (hiByte w)) (a + 1#32) b (loByte w)
  rw [high.mapAt, high.phys, high.phys] at second
  rw [State.storeWordCycle, s.busTurn_quiet hb]
  obtain ⟨ram1, here1, held1⟩ | ⟨out1, same1⟩ := second
  · exact .inl ⟨1, by decide, ram1, here1, held1⟩
  · obtain ⟨ram0, here0, held0⟩ | ⟨out0, same0⟩ := storeByte_at s a b (hiByte w)
    · exact .inl ⟨0, by decide, by simpa using ram0, by simpa using here0, State.holdsByte_of_same held0 same1⟩
    · refine .inr ⟨fun k hk => ?_, same1.1.trans same0.1, same1.2.trans same0.2⟩
      match k, hk with
      | 0, _ => simpa using out0
      | 1, _ => exact out1

/-- A word that a stopped access was to write at `a` has been written or not (R55): nothing else has changed but the counter
of free values, and a fetch of any byte sees memory or what it saw before. -/
structure WordDone (s u : State) (a : Addr) (w : Word) : Prop where
  rest : u = { s with mem := u.mem, held := u.held, draws := u.draws }
  others : ∀ b, s.outside a 2 b → s.sameAt u b
  view : ∀ b, u.streamAt b = u.byteAt b ∨ s.sameAt u b
  word : (∀ k < 2, u.byteAt (a + BitVec.ofNat 32 k) = s.byteAt (a + BitVec.ofNat 32 k))
    ∨ ∀ k < 2, s.mapAt (a + BitVec.ofNat 32 k) true .data ≠ .fault
      ∧ u.byteAt (a + BitVec.ofNat 32 k)
        = if s.mapAt (a + BitVec.ofNat 32 k) true .data = .ram then wordByte w k else s.byteAt (a + BitVec.ofNat 32 k)

theorem wordDone_kept (s : State) (a : Addr) (w : Word) (k : Nat) : WordDone s { s with draws := k } a w :=
  ⟨rfl, fun _ _ => ⟨rfl, rfl⟩, fun _ => .inr ⟨rfl, rfl⟩, .inl fun _ _ => rfl⟩

theorem wordDone_stored (s : State) (a : Addr) (w : Word) (k : Nat) (hb : s.busWrites = [])
    (hf : s.anyFault a true .data 2 = false) : WordDone s { s.storeWordCycle a w with draws := k } a w := by
  have rest : MemOnly s (s.storeWordCycle a w) := by
    rw [State.storeWordCycle, s.busTurn_quiet hb]
    exact (storeByte_memOnly s a _).trans (storeByte_memOnly _ (a + 1#32) _)
  have after (b : Addr) := storeWordCycle_at s a b w hb
  refine ⟨congrArg (fun u : State => { u with draws := k }) rest, fun b out => ?_, fun b => ?_, .inr fun j hj => ⟨?_, ?_⟩⟩
  · obtain ⟨j, hj, -, here, -⟩ | ⟨-, same⟩ := after b
    · exact absurd here (out j hj)
    · exact same
  · obtain ⟨j, -, -, -, held⟩ | ⟨-, same⟩ := after b
    · exact .inl (held.2.trans held.1.symm)
    · exact .inr same
  · exact fun fault => Bool.eq_false_iff.1 hf ((anyFault_iff s a true .data 2).2 ⟨j, hj, fault⟩)
  · obtain ⟨l, hl, ram, here, held⟩ | ⟨out, same⟩ := after (a + BitVec.ofNat 32 j)
    · obtain rfl : j = l := phys_ofNat_inj s a (by omega) (by omega) here
      rw [if_pos ram]
      exact held.1
    · rw [if_neg fun ram => out j hj ⟨ram, rfl⟩]
      exact same.1

/-! ### A long store that a bus error stops -/

/-- The first word of a stopped store is written or not, and then the others (R55, log 9). -/
theorem storeSome_cons_wordDone (s : State) (w : PendingWord) (ws : List PendingWord) (hb : s.busWrites = []) :
    ∃ u, WordDone s u w.addr w.value ∧ s.storeSome (w :: ws) = u.storeSome ws := by
  by_cases fault : s.wordFaults w = true
  · exact ⟨s, wordDone_kept s w.addr w.value s.draws, if_pos fault⟩
  · have made : s.anyFault w.addr true .data 2 = false := Bool.eq_false_iff.2 fault
    have stored := wordDone_stored s w.addr w.value (s.draws + 1) hb made
    rw [stored.rest] at stored
    refine ⟨_, ?_, if_neg fault⟩
    rw [s.busTurn_quiet hb]
    cases Config.freeFlag s.draws with
    | false => exact wordDone_kept s w.addr w.value (s.draws + 1)
    | true => exact stored

theorem wordByte_longWord (r : Long) {j k : Nat} (hj : j < 2) (hk : k < 2) :
    wordByte (if j = 0 then hiWord r else loWord r) k = r.extractLsb' (24 - 8 * (2 * j + k)) 8 := by
  match j, hj, k, hk with
  | 0, _, 0, _ => exact hiByte_hiWord r
  | 0, _, 1, _ => exact loByte_hiWord r
  | 1, _, 0, _ => exact hiByte_loWord r
  | 1, _, 1, _ => exact loByte_loWord r

/-- Both words of a long, each written or not, are a partly stored long. -/
theorem WordDone.partlyStored {s u t : State} {a : Addr} {r : Long} (high : WordDone s u a (hiWord r))
    (low : WordDone u t (a + 2#32) (loWord r)) : PartlyStored s t a r := by
  have bits : u.addrBits = s.addrBits := by rw [high.rest]
  have map := mapAt_congr (s := s) (t := u) (by rw [high.rest]) bits (by rw [high.rest]; rfl)
  have place (k : Nat) : a + 2#32 + BitVec.ofNat 32 k = a + BitVec.ofNat 32 (2 + k) := by
    rw [BitVec.add_assoc, BitVec.ofNat_add]
  have lowOut {b : Addr} (h : ∀ k < 2, s.phys b ≠ s.phys (a + BitVec.ofNat 32 (2 + k))) : u.sameAt t b :=
    low.others b fun k hk => by
      rw [phys_congr bits, phys_congr bits, place]
      exact h k hk
  refine ⟨fun b out => ?_, fun b => ?_, fun j hj => ?_⟩
  · have first := high.others b fun k hk => out k (by omega)
    have second := lowOut (b := b) fun k hk => out (2 + k) (by omega)
    exact ⟨second.1.trans first.1, second.2.trans first.2⟩
  · obtain seen | same := low.view b
    · exact .inl seen
    · exact (high.view b).imp (fun seen => same.2.trans (seen.trans same.1.symm)) fun first => same.2.trans first.2
  · match j, hj with
    | 0, _ =>
      have kept (k : Nat) (hk : k < 2) : t.byteAt (a + BitVec.ofNat 32 (2 * 0 + k)) = u.byteAt (a + BitVec.ofNat 32 k) := by
        rw [Nat.mul_zero, Nat.zero_add]
        exact (lowOut fun l hl e => by have := phys_ofNat_inj s a (by omega) (by omega) e; omega).1
      refine high.word.imp (fun same k hk => ?_) fun written k hk => ?_
      · rw [kept k hk, same k hk, Nat.mul_zero, Nat.zero_add]
      · obtain ⟨free, value⟩ := written k hk
        rw [kept k hk, value, ← wordByte_longWord r Nat.two_pos hk, Nat.mul_zero, Nat.zero_add]
        exact ⟨free, rfl⟩
    | 1, _ =>
      have before (k : Nat) (hk : k < 2) :
          u.byteAt (a + BitVec.ofNat 32 (2 * 1 + k)) = s.byteAt (a + BitVec.ofNat 32 (2 * 1 + k)) :=
        (high.others _ fun l hl e => by have := phys_ofNat_inj s a (by omega) (by omega) e; omega).1
      refine low.word.imp (fun same k hk => ?_) fun written k hk => ?_
      · rw [← before k hk, ← place]
        exact same k hk
      · obtain ⟨free, value⟩ := written k hk
        rw [map, place] at free
        rw [map, place] at value
        rw [← wordByte_longWord r Nat.one_lt_two hk, ← before k hk]
        exact ⟨free, value⟩

/-! ### What the hazard and the other fields leave of it -/

/-- The prefetch hazard after a stopped long store (R274). -/
theorem PartlyStored.holdPrefetched {s u : State} {a : Addr} {r : Long} (h : PartlyStored s u a r)
    (bits : u.addrBits = s.addrBits) (pc0 : Addr) (len : Nat) :
    PartlyStored s (holdPrefetched s u pc0 len a 4) a r := by
  obtain ⟨others, view, words⟩ := h
  have byteAt := holdPrefetched_byteAt s u pc0 len a 4
  have stream (b : Addr) : (Machine.holdPrefetched s u pc0 len a 4).streamAt b = u.streamAt b
      ∨ ((Machine.holdPrefetched s u pc0 len a 4).streamAt b = s.streamAt b ∧ ¬ s.outside a 4 b) := by
    obtain ⟨h, k, e, hazard⟩ := holdPrefetched_cases s u pc0 len a 4
    rw [e]
    refine (hazard (u.phys b)).imp id fun ⟨old, j, hj, place⟩ => ?_
    rw [phys_congr bits] at old place
    exact ⟨(congrArg _ (phys_congr bits b)).trans old, fun out => out j hj place⟩
  refine ⟨fun b out => ?_, fun b => ?_, fun j hj => ?_⟩
  · refine ⟨(byteAt b).trans (others b out).1, ?_⟩
    exact ((stream b).resolve_right fun old => old.2 out).trans (others b out).2
  · rw [byteAt]
    obtain same | old := stream b
    · rw [same]
      exact view b
    · exact .inr old.1
  · simp only [byteAt]
    exact words j hj

/-- A partly stored long is a matter of memory, of what is held and of the map. -/
theorem PartlyStored.congr {s u s' u' : State} {a : Addr} {r : Long} (h : PartlyStored s u a r)
    (bits : s'.addrBits = s.addrBits) (map : s'.memMap = s.memMap) (mode : s'.super = s.super) (mem : s'.mem = s.mem)
    (held : s'.held = s.held) (bits' : u'.addrBits = u.addrBits) (mem' : u'.mem = u.mem) (held' : u'.held = u.held) :
    PartlyStored s' u' a r := by
  simpa only [PartlyStored, State.outside, State.sameAt, phys_congr bits, byteAt_congr mem bits, streamAt_congr mem held bits,
    byteAt_congr mem' bits', streamAt_congr mem' held' bits', mapAt_congr map bits mode] using h

/-- With nothing stored there is no hazard. -/
theorem holdPrefetched_self (s : State) (pc0 : Addr) (len : Nat) (a : Addr) (n : Nat) :
    holdPrefetched s s pc0 len a n = s := by
  have unchanged : (s.windowCells pc0 len a n).filter (fun c => s.fetchView c.1 != c.2) = [] := by
    rw [List.filter_eq_nil_iff]
    intro c hc
    simp [(windowCells_old s pc0 len a n c hc).1]
  simp only [holdPrefetched, unchanged, List.isEmpty_nil, if_true]

/-! ### The write of a result that ends in a bus error -/

/-- What a write stopped by a bus error leaves: a byte or word as it was, a long perhaps with one word of it written
(R55). -/
theorem writeLoc_fault {s : State} {a : Addr} {sp : Space} {sz : Size} {r : Long} (hb : s.busWrites = [])
    (ha : alignedFor sz a) (hf : s.anyFault a true .data sz.bytes = true) (pc0 : Addr) (len : Nat) :
    ∃ u, writeLoc (.mem a sp) sz r pc0 len s = .abort (s.busErrorAt a true .data) u
      ∧ u = { s with mem := u.mem, held := u.held, draws := u.draws }
      ∧ (sz ≠ .long → u = s) ∧ (sz = .long → PartlyStored s u a r) := by
  by_cases hsz : sz = .long
  · subst hsz
    obtain ⟨u, high, first⟩ := storeSome_cons_wordDone s { addr := a, access := a, value := hiWord r }
      [{ addr := a + 2#32, access := a, value := loWord r }] hb
    have bus : u.busWrites = [] := by rw [high.rest]; exact hb
    obtain ⟨t, low, second⟩ := storeSome_cons_wordDone u { addr := a + 2#32, access := a, value := loWord r } [] bus
    have done : s.storeSomeFree (longWords a r) = t := by
      rw [State.storeSomeFree, State.writeOrder, hb]
      exact first.trans second
    have faulted : s.memWrite a .long r = .abort (s.busErrorAt a true .data) t := by
      unfold State.memWrite
      rw [if_neg (not_oddFor_of_aligned ha), if_pos hf, done]
    have bits : t.addrBits = s.addrBits := by rw [low.rest, high.rest]
    refine ⟨holdPrefetched s t pc0 len a 4, ?_, ?_, fun h => absurd rfl h, fun _ =>
      (high.partlyStored low).holdPrefetched bits pc0 len⟩
    · simp only [writeLoc, faulted, Size.bytes]
    · obtain ⟨h, k, e, -⟩ := holdPrefetched_cases s t pc0 len a 4
      rw [e, low.rest, high.rest]
  · obtain ⟨t, faulted, same⟩ := memWrite_of_anyFault s a sz r ha hf
    refine ⟨s, ?_, rfl, fun _ => rfl, fun h => absurd h hsz⟩
    simp only [writeLoc, faulted, same hsz, holdPrefetched_self]

/-- A word is made of its four low bits, where the flags of a result are, and the others (R139). -/
theorem and_upper_or_low (x : Word) : (x &&& 0xFFF0#16) ||| (x &&& 0x000F#16) = x :=
  BitVec.and_or_distrib_left.symm.trans BitVec.and_allOnes

/-- After a fault at the write, SR is the old one or the new one (R140, U6). -/
theorem keepOrUndoFlags_sr {s u : State} (h : u.sr &&& 0xFFF0#16 = s.sr &&& 0xFFF0#16) :
    (keepOrUndoFlags s u).sr = s.sr ∨ (keepOrUndoFlags s u).sr = u.sr := by
  unfold keepOrUndoFlags
  cases Config.freeFlag u.draws with
  | false =>
    refine .inl ?_
    rw [h]
    exact and_upper_or_low s.sr
  | true => exact .inr (and_upper_or_low u.sr)

/-- Settles O33: the read is made, the flags are set, and the write ends in the bus error. -/
theorem faultingWriteTakesBusError : Obligations.FaultingWriteTakesBusError := by
  intro i sz ea off k s a sp ho hd aligned hk hl readable fault room stepped
  generalize hr : modifiedValue i s (s.valueAt a sz) = r
  have bus : s.busWrites = [] := room.1
  have flags : (logicFlags sz r (eaStep ea sz s)).sr = flaggedSr s.sr sz r := by rw [flaggedSr_eq, eaStep_sr]
  have faulted : (logicFlags sz r (eaStep ea sz s)).anyFault a true .data sz.bytes = true :=
    (anyFault_iff _ a true .data sz.bytes).2 ⟨k, hk, by simpa using fault⟩
  have read : (eaStep ea sz s).memRead a sz sp = .ok (s.valueAt a sz) (eaStep ea sz s) := by
    rw [memRead_plain _ a sz sp (by simpa using bus) aligned (by simpa [State.readsPlain] using readable), eaStep_valueAt]
  obtain ⟨u, written, rest, short, long⟩ :=
    writeLoc_fault (sp := sp) (r := r) (by simpa using bus) aligned faulted s.pc (instrLength i)
  have abandoned : exec i s
      = abandon i ea s ((logicFlags sz r (eaStep ea sz s)).busErrorAt a true .data) (keepOrUndoFlags s u) := by
    rw [exec_eq_runModify ho hd]
    simp only [runModify, hl, readLoc, read, hr, written]
  have kept : AccessOnly (eaStep ea sz s) (keepOrUndoFlags s u) := by
    rw [AccessOnly, keepOrUndoFlags, rest]
    rfl
  have sr : u.sr = flaggedSr s.sr sz r := by rw [rest, flags]
  have upper : u.sr &&& 0xFFF0#16 = s.sr &&& 0xFFF0#16 := by
    rw [rest, logicFlags_sr_upper, eaStep_sr]
  have mode : (keepOrUndoFlags s u).super = s.super :=
    super_of_system_eq (and_eq_of_and_eq 0xFFE0#16 ((keepOrUndoFlags_sr_upper s u).trans upper) rfl)
  have low : BitVec.ofBool (!true) ++ BitVec.ofBool false
      ++ ((logicFlags sz r (eaStep ea sz s)).busErrorAt a true .data).functionCode
        = if s.super then 0x05#5 else 0x01#5 := by
    simp only [AccessFault.functionCode, State.busErrorAt, logicFlags_super, eaStep_super]
    cases s.super <;> rfl
  obtain ⟨s', t, hs', next, entered⟩ := abandon_longEntered (i := i)
    (e := (logicFlags sz r (eaStep ea sz s)).busErrorAt a true .data) kept mode rfl low room stepped
  refine ⟨s', (keepOrUndoFlags s u).sr, u.mem, u.held, t, hs', sr ▸ keepOrUndoFlags_sr upper, fun h => ?_, fun h => ?_,
    abandoned.trans next, entered⟩
  · rw [short h]
    simp
  · exact (long h).congr (by simp) (by simp) (by simp) (by simp) (by simp) (by rw [rest]; simp) rfl rfl

end Sys2Proof.Machine
end

section
/-! PROOFS. Exceptions (60_exceptions.md): double faults and the Halted processor (R232, R241, R270). -/

namespace Sys2Proof.Machine

/-! ### Entries that end Halted -/

/-- With SSP odd no word of a frame is written (R53). -/
theorem writeFrame_of_odd (s : State) (ws : List PendingWord) (h : s.ssp.getLsbD 0 = true) :
    s.writeFrame ws = .abort (s.misalignedAt s.ssp true .data) s := by
  unfold State.writeFrame
  rw [if_pos h]

/-- A frame that cannot be stacked makes a group 0 entry a double fault (R232). -/
theorem takeGroupZero_halted_of_frame {s : State} {e : AccessFault} {inEntry : Bool} {pc0 : Addr} {ir : Option Word}
    {f : AccessFault} {u : State} (h : s.beginGroupZero.writeFrame (s.groupZeroFrame e inEntry pc0 ir) = .abort f u) :
    (s.takeGroupZero e inEntry pc0 ir).run = .halted := by
  unfold State.groupZeroFrame State.beginGroupZero at h
  unfold State.takeGroupZero
  simp only [h, State.halt_run]

theorem odd_sub (a k : Addr) (ha : a.getLsbD 0 = true) (hk : k.getLsbD 0 = false) : (a - k).getLsbD 0 = true := by
  simp only [BitVec.getLsbD, Nat.testBit_zero, decide_eq_false_iff_not, decide_eq_true_eq, BitVec.toNat_sub] at ha hk ⊢
  omega

theorem takeGroupZero_halted_of_odd {s : State} (h : s.ssp.getLsbD 0 = true) (e : AccessFault) (inEntry : Bool)
    (pc0 : Addr) (ir : Option Word) : (s.takeGroupZero e inEntry pc0 ir).run = .halted :=
  takeGroupZero_halted_of_frame (writeFrame_of_odd s.beginGroupZero _ (odd_sub _ _ h rfl))

/-- With SSP odd the short frame cannot be stacked, and the group 0 entry taken then ends Halted (R232). -/
theorem takeShort_halted_of_odd {s : State} (h : s.ssp.getLsbD 0 = true) (v : BitVec 8) (level : Option (BitVec 3))
    (pcSaved pc0 : Addr) (ir : Option Word) : (s.takeShort v level pcSaved pc0 ir).run = .halted := by
  obtain ⟨-, ssp⟩ := beginShort_entry s level
  have odd : (s.beginShort level).ssp.getLsbD 0 = true := ssp ▸ odd_sub _ _ h rfl
  unfold State.takeShort
  simp only [writeFrame_of_odd _ _ odd]
  exact takeGroupZero_halted_of_odd odd _ true pc0 ir

/-- A byte of the place of a frame that the map faults keeps the frame from being stacked (R59). -/
theorem writeFrame_of_fault {s : State} {ws : List PendingWord} (hc : Consecutive s.ssp ws) {k : Nat}
    (hk : k < 2 * ws.length) (hf : s.mapAt (s.ssp + BitVec.ofNat 32 k) true .data = .fault) :
    ∃ f u, s.writeFrame ws = .abort f u := by
  have faults : ws.any s.wordFaults = true := by
    obtain ⟨w, hw, place⟩ := hc.exists_word hk
    refine List.any_eq_true.2 ⟨w, hw, (anyFault_iff s w.addr true .data 2).2 ?_⟩
    obtain place | place := place
    · exact ⟨0, Nat.two_pos, by rw [BitVec.add_zero, ← place]; exact hf⟩
    · exact ⟨1, Nat.one_lt_two, place ▸ hf⟩
  unfold State.writeFrame
  rw [if_pos faults]
  split
  · exact ⟨_, _, rfl⟩
  · exact ⟨_, _, rfl⟩

theorem BusStep.mapAt {s t : State} (h : BusStep s t) (a : Addr) (w : Bool) (sp : Space) :
    t.mapAt a w sp = s.mapAt a w sp := mapAt_congr h.memMap h.addrBits h.super a w sp

/-- A vector that cannot be read makes a group 0 entry a double fault (R232). -/
theorem takeGroupZero_halted_of_vector {s : State} {e : AccessFault} {k : Nat} (hk : k < 4)
    (hf : s.enterSupervisor.mapAt ((e.vector.setWidth 32 <<< 2) + BitVec.ofNat 32 k) false .data = .fault)
    (inEntry : Bool) (pc0 : Addr) (ir : Option Word) : (s.takeGroupZero e inEntry pc0 ir).run = .halted := by
  have steps := writeFrame_steps s.beginGroupZero (s.groupZeroFrame e inEntry pc0 ir)
  cases written : s.beginGroupZero.writeFrame (s.groupZeroFrame e inEntry pc0 ir) with
  | abort f u => exact takeGroupZero_halted_of_frame written
  | ok x u =>
    rw [written] at steps
    have aborted : u.readVector e.vector = .abort (u.busErrorAt (e.vector.setWidth 32 <<< 2) false .data) u :=
      memRead_of_anyFault u _ .long .data (.inr (vectorAddr_even e.vector))
        ((anyFault_iff u _ false .data 4).2 ⟨k, hk, (BusStep.mapAt steps _ _ _).trans hf⟩)
    unfold State.groupZeroFrame State.beginGroupZero at written
    unfold State.takeGroupZero
    simp only [written, aborted, State.halt_run]

/-- A faulted byte of the two reset vectors halts the reset sequence (R232, R270). -/
theorem resetSequence_halted_of_fault {s : State} {k : Nat} (hk : k < 8)
    (hf : s.enterSupervisor.mapAt (BitVec.ofNat 32 k) false .prog = .fault) : s.resetSequence.run = .halted := by
  have mode : s.beginReset.super = s.enterSupervisor.super := by
    simp [State.super, State.beginReset, State.enterSupervisor]
  have begun : s.beginReset.mapAt (BitVec.ofNat 32 k) false .prog = .fault :=
    (mapAt_congr (s := s.enterSupervisor) (t := s.beginReset) rfl rfl mode _ _ _).trans hf
  have steps := memRead_steps s.beginReset 0#32 .long .prog
  unfold State.resetSequence
  cases first : s.beginReset.memRead 0#32 .long .prog with
  | abort e u => rfl
  | ok ssp u =>
    rw [first] at steps
    have upper : 4 ≤ k := by
      by_contra below
      have aborted := memRead_of_anyFault s.beginReset 0#32 .long .prog (.inr rfl)
        ((anyFault_iff _ 0#32 false .prog 4).2 ⟨k, by omega, by rwa [BitVec.zero_add]⟩)
      rw [first] at aborted
      cases aborted
    have place : 4#32 + BitVec.ofNat 32 (k - 4) = BitVec.ofNat 32 k := by
      rw [← BitVec.ofNat_add, Nat.add_sub_cancel' upper]
    have later : { u with ssp := ssp : State }.mapAt (4#32 + BitVec.ofNat 32 (k - 4)) false .prog = .fault := by
      rw [place]
      exact (BusStep.mapAt steps _ _ _).trans begun
    have second := memRead_of_anyFault { u with ssp := ssp } 4#32 .long .prog (.inr rfl)
      ((anyFault_iff _ 4#32 false .prog 4).2 ⟨k - 4, by omega, later⟩)
    simp only [second, State.halt_run]

/-- Settles O35: an odd SSP, a faulted frame, a faulted vector, and faulted reset vectors. -/
theorem doubleFaultHalts : Obligations.DoubleFaultHalts := by
  refine ⟨fun s odd => ⟨takeGroupZero_halted_of_odd odd, takeShort_halted_of_odd odd⟩,
    fun s e inEntry pc0 ir k h => ?_, fun s k => resetSequence_halted_of_fault⟩
  obtain ⟨hk, fault⟩ | ⟨hk, fault⟩ := h
  · obtain ⟨f, u, aborted⟩ := writeFrame_of_fault (s := s.beginGroupZero)
      (ws := s.groupZeroFrame e inEntry pc0 ir) (longFrame_consecutive _ _ _ _ _ _) hk fault
    exact takeGroupZero_halted_of_frame aborted
  · exact takeGroupZero_halted_of_vector hk fault inEntry pc0 ir

/-! ### The Halted processor -/

/-- Where no sample asserts reset, all are passed over (R232). -/
theorem fromReset_eq_nil {xs : List Sample} (h : ∀ x ∈ xs, x.reset = false ∧ x.abort = false) : fromReset xs = [] := by
  induction xs with
  | nil => rfl
  | cons x xs ih =>
    obtain ⟨reset, abort⟩ := h x List.mem_cons_self
    unfold fromReset
    rw [reset, abort]
    exact ih fun y hy => h y (List.mem_cons_of_mem _ hy)

/-- The samples before the first that asserts reset are passed over. -/
theorem fromReset_append {pre post : List Sample} {x : Sample} (hpre : ∀ y ∈ pre, y.reset = false ∧ y.abort = false)
    (hx : x.reset = true ∨ x.abort = true) : fromReset (pre ++ x :: post) = x :: post := by
  induction pre with
  | nil =>
    show fromReset (x :: post) = x :: post
    unfold fromReset
    exact if_pos (Bool.or_eq_true_iff.2 hx)
  | cons y pre ih =>
    obtain ⟨reset, abort⟩ := hpre y List.mem_cons_self
    rw [List.cons_append]
    unfold fromReset
    rw [reset, abort]
    exact ih fun z hz => hpre z (List.mem_cons_of_mem _ hz)

/-- Either no sample to come asserts reset, or there is a first one. -/
theorem exists_first_reset (xs : List Sample) :
    (∀ x ∈ xs, x.reset = false ∧ x.abort = false)
    ∨ ∃ pre x post, xs = pre ++ x :: post ∧ (∀ y ∈ pre, y.reset = false ∧ y.abort = false)
      ∧ (x.reset = true ∨ x.abort = true) := by
  induction xs with
  | nil => exact .inl fun x hx => absurd hx List.not_mem_nil
  | cons x xs ih =>
    by_cases hx : x.reset = true ∨ x.abort = true
    · exact .inr ⟨[], x, xs, rfl, fun y hy => absurd hy List.not_mem_nil, hx⟩
    · have quiet : x.reset = false ∧ x.abort = false := by simpa using hx
      refine ih.imp (fun all y hy => ?_) fun ⟨pre, z, post, e, hpre, hz⟩ =>
        ⟨x :: pre, z, post, congrArg (x :: ·) e, fun y hy => ?_, hz⟩
      · exact (List.mem_cons.1 hy).elim (fun e => e ▸ quiet) (all y)
      · exact (List.mem_cons.1 hy).elim (fun e => e ▸ quiet) (hpre y)

/-- A Halted processor is in no step that a reset could cut short (R241). -/
theorem endStep_halted (s : State) (o : Outcome) (h : s.run = .halted) : s.endStep o = o := by
  simp [State.endStep, State.abortsStep, h]

theorem step_of_no_reset_to_come {s : State} (h : s.run = .halted) (quiet : fromReset s.inputs = []) :
    step s = .fault .halted := by
  simp only [step_eq_endStep, endStep_halted _ _ h, State.wholeStep, State.beginStep, h, State.beginHalted, quiet]

theorem step_of_reset_to_come {s : State} (h : s.run = .halted) {x : Sample} {xs : List Sample}
    (first : fromReset s.inputs = x :: xs) :
    step s = .next { s with inputs := xs, irqLevel := x.level }.resetSequence := by
  simp only [step_eq_endStep, endStep_halted _ _ h, State.wholeStep, State.beginStep, h, State.beginHalted, first]

/-- Settles O36: the samples to come assert no reset, or there is a first that does, and the step is its reset. -/
theorem onlyResetLeavesHalted : Obligations.OnlyResetLeavesHalted := by
  intro s halted
  have stays (quiet : ∀ x ∈ s.inputs, x.reset = false ∧ x.abort = false) : step s = .fault .halted :=
    step_of_no_reset_to_come halted (fromReset_eq_nil quiet)
  have leaves (pre : List Sample) (x : Sample) (post : List Sample) (e : s.inputs = pre ++ x :: post)
      (hpre : ∀ y ∈ pre, y.reset = false ∧ y.abort = false) (hx : x.reset = true ∨ x.abort = true) :
      step s = .next { s with inputs := post, irqLevel := x.level }.resetSequence :=
    step_of_reset_to_come halted (e ▸ fromReset_append hpre hx)
  refine ⟨stays, fun t ht => ?_, leaves⟩
  obtain quiet | ⟨pre, x, post, e, hpre, hx⟩ := exists_first_reset s.inputs
  · rw [stays quiet] at ht
    cases ht
  · rw [leaves pre x post e hpre hx] at ht
    cases ht
    exact ⟨pre, x, post, e, hpre, hx, rfl⟩

end Sys2Proof.Machine
end

section
/-! PROOFS. Exceptions (60_exceptions.md): the step at an instruction boundary (R229, R241): the instruction that is fetched,
faults of its fetch, illegal words, trace, interrupts, and a reset in the course of the step (R223 to R228). -/

namespace Sys2Proof.Machine

/-! ### The first half of a step that fetches -/

section
variable {s s1 s2 : State} {op : Word} {f : OpForm} {i : Instr} {o : Outcome} {e : AccessFault} {ws : List Word}

theorem step_of_ended (h : s.undisturbed) (he : s.afterSample.fetchInstr = .ended o) : step s = o := by
  have ⟨_, _, whole, _⟩ := h
  simp only [step_of_noReset whole, State.wholeStep, beginStep_of_undisturbed h, he]

theorem step_of_run (h : s.undisturbed) (he : s.afterSample.fetchInstr = .run i s1) :
    step s = finishStep s1.pc (exec i s1) := by
  have ⟨_, _, whole, _⟩ := h
  simp only [step_of_noReset whole, State.wholeStep, beginStep_of_undisturbed h, he]

theorem fetchInstr_of_abort (h : s.fetch16 s.pc = .abort e s1) :
    s.fetchInstr = .ended (.next (s1.takeGroupZero e false s.pc none)) := by
  simp only [State.fetchInstr, h]

theorem fetchInstr_of_illegal (h : s.fetch16 s.pc = .ok op s1) (hop : classify op = .illegal) :
    s.fetchInstr = .ended (.next (s1.takeIllegal op)) := by
  simp only [State.fetchInstr, h, hop]

theorem fetchInstr_of_privileged (h : s.fetch16 s.pc = .ok op s1) (hop : classify op = .form f)
    (hp : (f.privileged && !s1.super) = true) : s.fetchInstr = .ended (.next (s1.takePrivilege op)) := by
  simp only [State.fetchInstr, h, hop, hp, if_true]

theorem fetchInstr_of_extension_abort (h : s.fetch16 s.pc = .ok op s1) (hop : classify op = .form f)
    (hp : (f.privileged && !s1.super) = false) (hw : s1.fetchWords (s.pc + 2#32) f.extWords = .abort e s2) :
    s.fetchInstr = .ended (.next (s2.takeGroupZero e false s.pc none)) := by
  simp only [State.fetchInstr, h, hop, hp, hw, Bool.false_eq_true, if_false]

theorem fetchInstr_of_fetched (h : s.fetch16 s.pc = .ok op s1) (hop : classify op = .form f)
    (hp : (f.privileged && !s1.super) = false) (hw : s1.fetchWords (s.pc + 2#32) f.extWords = .ok ws s2) :
    s.fetchInstr = .run (f.build ws) s2 := by
  simp only [State.fetchInstr, h, hop, hp, hw, Bool.false_eq_true, if_false]

end

/-- A privileged form builds a to-SR instruction (R223). -/
theorem build_privileged {f : OpForm} (h : f.privileged = true) (ws : List Word) :
    ∃ o data, (f.build ws).shape = .toSr o data := by
  cases f with
  | toSr o => exact ⟨o, extWord ws 0, mkToSr_shape _ _⟩
  | _ => cases h

theorem afterSample_wordsAt (s : State) (a : Addr) (n : Nat) : s.afterSample.wordsAt a n = s.wordsAt a n := by
  induction n generalizing a with
  | zero => rfl
  | succ n ih =>
    simp only [State.wordsAt, ih]
    rfl

/-! ### The instruction at the pc -/

/-- A to-SR form in user mode leaves no trace exception due (R223, R227). -/
theorem finishStep_takePrivilege (pc0 : Addr) (s : State) (op : Word) :
    finishStep pc0 (.next (s.takePrivilege op)) = .next (s.takePrivilege op) := by
  obtain ⟨entry, -⟩ := takeShort_entry s 8#8 none s.pc s.pc (some op)
  have due : (s.takePrivilege op).tracePending = false := entry.noTraceDue
  simp [finishStep, due]

/-- Settles O43: the fetch gives the words that memory holds; a to-SR form in user mode, which traps before its immediate
word is fetched, traps in exec alike. -/
theorem stepRunsDecodedInstruction : Obligations.StepRunsDecodedInstruction := by
  intro s i rest ready decoded plain
  obtain ⟨f, form, enough, built, -⟩ := decodeWords_ok decoded
  have length : instrLength i = 2 + 2 * f.extWords := by
    rw [built, f.build_length]
    omega
  have opcode := fetch16_of_readyToFetch ready fun k hk => plain k (by omega)
  rcases hp : (f.privileged && !s.afterSample.super) with _ | _
  · obtain ⟨quiet, bus, held, even⟩ := ready
    have words := fetchWords_plain s.afterSample (s.pc + 2#32) f.extWords bus held (even_add_two _ even)
      (readsPlain_part 2 (2 * f.extWords) (by omega) plain)
    rw [afterSample_wordsAt, ← wordsAt_take s _ _ 4 (by rwa [wordsAt_length] at enough)] at words
    rw [step_of_run quiet (fetchInstr_of_fetched opcode form hp words), ← built]
    rfl
  · obtain ⟨privileged, user⟩ := Bool.and_eq_true_iff.1 hp
    obtain ⟨o, data, shape⟩ := build_privileged privileged (ws := _)
    have opWord_eq : opWord i = _ := built ▸ (build_of_classify form _).2
    have trap : exec i s.afterSample = .next (s.afterSample.takePrivilege (opWord i)) := by
      rw [exec_eq_runShape, built, shape]
      exact if_neg (by simpa using user)
    rw [step_of_ended ready.1 (fetchInstr_of_privileged opcode form hp), trap, finishStep_takePrivilege, opWord_eq]

/-- Settles O45: the fetch stops at the operation word, and the entry is through vector 4. -/
theorem illegalWordTakesVectorFour : Obligations.IllegalWordTakesVectorFour := by
  intro s ready plain illegal room
  have opcode := fetch16_of_readyToFetch ready plain
  have began := fetchInstr_of_illegal opcode ((illegalPatternsAreTheTable _).2 illegal)
  exact ⟨_, step_of_ended ready.1 began, shortFrameEntry s.afterSample 4#8 none s.pc s.pc _ room⟩

/-! ### Faults of the fetch -/

/-- A fault of a fetch is a long-frame entry with R/W = read, I/N = 0 and a program function code (R222). -/
theorem step_of_fetchFault {s : State} {e : AccessFault} {v : BitVec 8} (h : s.undisturbed)
    (began : s.afterSample.fetchInstr = .ended (.next (s.afterSample.takeGroupZero e false s.pc none)))
    (hw : e.write = false) (hsp : e.space = .prog) (hm : e.super = s.super) (hv : e.vector = v)
    (room : s.canEnter 14 v) :
    ∃ t, step s = .next t
      ∧ LongEntered s.afterSample t v (if s.super then 0x16#5 else 0x12#5) e.addr s.pc none := by
  have low : BitVec.ofBool (!e.write) ++ BitVec.ofBool false ++ e.functionCode
      = if s.super then 0x16#5 else 0x12#5 := by
    simp only [AccessFault.functionCode, hw, hsp, hm]
    cases s.super <;> rfl
  have sampled : s.afterSample.canEnter 14 v := canEnter_congr rfl rfl rfl rfl room
  exact ⟨_, step_of_ended h began, takeGroupZero_longEntered hv low sampled s.pc none⟩

theorem fetch16_of_fault {s : State} {a : Addr} {k : Nat} (ha : a.getLsbD 0 = false) (hk : k < 2)
    (hf : s.mapAt (a + BitVec.ofNat 32 k) false .prog = .fault) :
    s.fetch16 a = .abort (s.busErrorAt a false .prog) s := by
  rw [State.fetch16, if_neg (ha ▸ Bool.false_ne_true), if_pos ((anyFault_iff s a false .prog 2).2 ⟨k, hk, hf⟩)]

/-- Words fetched up to one that the map faults (R60, R81). -/
theorem fetchWords_of_fault {s : State} {a : Addr} {n j k : Nat} (hb : s.busWrites = []) (hh : s.held = [])
    (ha : a.getLsbD 0 = false) (hj : j < n) (hk : k < 2) (plain : s.readsPlain a (2 * j) .prog)
    (hf : s.mapAt (a + BitVec.ofNat 32 (2 * j + k)) false .prog = .fault) :
    s.fetchWords a n = .abort (s.busErrorAt (a + BitVec.ofNat 32 (2 * j)) false .prog) s := by
  induction n generalizing a j with
  | zero => exact absurd hj (Nat.not_lt_zero j)
  | succ n ih =>
    cases j with
    | zero =>
      rw [Nat.mul_zero, Nat.zero_add] at hf
      simp only [State.fetchWords, fetch16_of_fault ha hk hf, Nat.mul_zero, BitVec.add_zero]
    | succ j =>
      have place (l : Nat) : a + BitVec.ofNat 32 (2 * (j + 1) + l) = a + 2#32 + BitVec.ofNat 32 (2 * j + l) := by
        rw [BitVec.add_assoc, ← BitVec.ofNat_add 2, Nat.mul_succ, Nat.add_comm (2 * j), Nat.add_assoc]
      have first := fetch16_plain s a hb hh ha fun l hl => plain l (by omega)
      have others := ih (even_add_two a ha) (Nat.lt_of_succ_lt_succ hj)
        (readsPlain_part 2 (2 * j) (by omega) plain) (place k ▸ hf)
      simp only [State.fetchWords, first, others]
      rw [← Nat.add_zero (2 * (j + 1)), place 0, Nat.add_zero]

/-- Settles O47: an odd pc, a faulted operation word, and a faulted extension word after the words before it. -/
theorem fetchFaultsTakeGroupZero : Obligations.FetchFaultsTakeGroupZero := by
  refine ⟨fun s quiet odd room => ?_, fun s k ready hk fault room => ?_,
    fun s i j k ready wf supervisor word hj hlen plain hk fault room => ?_⟩
  · have began := fetchInstr_of_abort (fetch16_of_odd s.afterSample s.pc odd)
    exact step_of_fetchFault quiet began rfl rfl rfl rfl room
  · obtain ⟨quiet, -, -, even⟩ := ready
    have began := fetchInstr_of_abort (fetch16_of_fault (s := s.afterSample) even hk fault)
    exact step_of_fetchFault quiet began rfl rfl rfl rfl room
  · obtain ⟨f, form, built, words⟩ := Instr.exists_form wf
    have length : instrLength i = 2 * (f.extWords + 1) := by rw [← built, f.build_length]
    obtain ⟨j, rfl⟩ := Nat.exists_eq_add_of_le hj
    have opcode := fetch16_of_readyToFetch ready fun l hl => plain l (by omega)
    rw [word] at opcode
    obtain ⟨quiet, bus, held, even⟩ := ready
    have legal : (f.privileged && !s.afterSample.super) = false := by
      cases privileged : f.privileged with
      | false => rfl
      | true =>
        obtain ⟨o, data, shape⟩ := build_privileged privileged i.shape.extension
        have mode : s.afterSample.super = true := supervisor o data (built ▸ shape)
        rw [mode]
        rfl
    have place (l : Nat) : s.pc + BitVec.ofNat 32 (2 * (1 + j) + l) = s.pc + 2#32 + BitVec.ofNat 32 (2 * j + l) := by
      rw [BitVec.add_assoc, ← BitVec.ofNat_add 2, Nat.mul_add, Nat.add_assoc]
    have faulted := fetchWords_of_fault (s := s.afterSample) (n := f.extWords) bus held (even_add_two _ even)
      (by omega) hk (readsPlain_part 2 (2 * j) (by omega) plain) (place k ▸ fault)
    have began := fetchInstr_of_extension_abort opcode form legal faulted
    rw [← Nat.add_zero (2 * (1 + j)), place 0]
    exact step_of_fetchFault quiet began rfl rfl rfl rfl room

/-! ### Trace -/

/-- An instruction that leaves a trace exception due has completed: T was set when it began, and the run state and the
platform's inputs are as they were (R227). -/
theorem exec_trace_due {i : Instr} {s t : State} (h : exec i s = .next t) (due : t.tracePending = true) :
    s.traceBit = true ∧ t.run = s.run := by
  have completed {u : State} (done : Completed i s u t) (run : u.run = s.run) : s.traceBit = true ∧ t.run = s.run := by
    rw [done] at due ⊢
    exact ⟨due, run⟩
  have entered {u : State} (entry : EntryStep u t) : s.traceBit = true ∧ t.run = s.run := by
    rw [entry.noTraceDue] at due
    cases due
  cases exec_end h with
  | toCcr v done => exact completed done rfl
  | toSr v hs done => exact completed done rfl
  | privilege hs entry hsp => exact entered entry
  | operand sz ea off u ho hu done => exact completed done hu.run
  | fault sz ea off u ho hu entry hsp => exact entered entry

/-- A reset at the boundary of a running processor comes first (R229). -/
theorem step_of_reset {s : State} (run : s.run = .running) (reset : s.sample.reset = true) :
    step s = .next s.afterSample.resetSequence := by
  simp [step_eq_endStep, endStep_reset _ _ reset, State.wholeStep, State.beginStep, run, State.beginRunning, reset]

/-- Settles O37: what `finishStep` makes of the state that exec answers. -/
theorem traceFollowsTracedInstruction : Obligations.TraceFollowsTracedInstruction := by
  refine ⟨fun s t i rest ready decoded plain h => ?_, fun s t i h due => (exec_trace_due h due).1⟩
  have run : step s = finishStep s.pc (.next t) := h ▸ stepRunsDecodedInstruction s i rest ready decoded plain
  refine ⟨fun due noReset room => ?_, fun due reset => ⟨?_, ?_⟩, fun noneDue => ?_⟩
  · refine ⟨t.takeTrace s.pc, ?_, shortFrameEntry t 9#8 none t.pc s.pc none room⟩
    simp [run, finishStep, due, noReset]
  · simp [run, finishStep, reset]
  · have ⟨⟨running, _⟩, _⟩ := ready
    obtain ⟨-, kept⟩ := exec_trace_due h due
    exact step_of_reset (kept.trans running) reset
  · simp [run, finishStep, noneDue]

/-! ### Interrupts -/

/-- Settles O38: the request is accepted, and its entry is made from the state after the sample. -/
theorem interruptIsTakenAtBoundary : Obligations.InterruptIsTakenAtBoundary := by
  refine ⟨fun s run trace whole requested room => ?_, fun n l => ⟨rfl, ?_, rfl⟩⟩
  · have accepted : s.accepts s.sample.level = true := by simpa [State.accepts] using requested
    have running : { s.afterSample with run := .running } = s.afterSample := by rw [← run]; rfl
    have taken : step s = .next (s.afterSample.takeInterrupt s.sample.level s.sample.vector) := by
      rw [step_of_noReset whole]
      simp [State.wholeStep, State.beginStep, run, State.beginRunning, whole.1, trace, accepted]
    refine ⟨_, taken, ?_⟩
    rw [State.takeInterrupt, running]
    exact shortFrameEntry s.afterSample _ (some s.sample.level) s.pc s.pc none room
  · have small : l.toNat < 8 := l.isLt
    simp only [VectorSource.number, BitVec.toNat_add, BitVec.toNat_setWidth, BitVec.toNat_ofNat]
    omega

/-! ### A reset in the course of a step -/

/-- `s` at a boundary whose sample is the same, but that no reset comes in the course of the step. -/
def State.withoutAbort (s : State) : State :=
  { s with inputs := { s.sample with abort := false } :: s.inputs.drop 1 }

/-- The whole step, with no trace exception due, does not ask whether a reset comes in the course of it (R229). -/
theorem withoutAbort_wholeStep {s : State} (hrun : s.run ≠ .halted) (trace : s.tracePending = false)
    (sampled : s.inputs ≠ []) : s.withoutAbort.wholeStep = s.wholeStep := by
  have begun : s.withoutAbort.beginStep = s.beginStep := by
    unfold State.beginStep
    have run : s.withoutAbort.run = s.run := rfl
    rw [run]
    cases h : s.run with
    | halted => exact absurd h hrun
    | running =>
      have noTrace : s.withoutAbort.tracePending = false := trace
      simp only [State.beginRunning, noTrace, trace, Bool.false_eq_true, if_false]
      rfl
    | stopped =>
      have more : s.withoutAbort.inputs.isEmpty = s.inputs.isEmpty := by
        rw [List.isEmpty_eq_false_iff.2 sampled]
        rfl
      simp only [State.beginStopped, more]
      rfl
  unfold State.wholeStep
  rw [begun]

/-- Settles O41: the step without the reset gives the outcome that is cut short. -/
theorem resetAbortsStep : Obligations.ResetAbortsStep := by
  intro s t hrun trace reset abort h
  have sampled : s.inputs ≠ [] := fun empty => by
    rw [State.sample, empty] at abort
    cases abort
  have whole : s.wholeStep = .next t := by
    rw [← withoutAbort_wholeStep hrun trace sampled, ← h]
    exact (endStep_whole s.withoutAbort _ rfl).symm
  have cut : step s = .next (s.cutShort t).resetSequence := by
    rw [step_eq_endStep, whole]
    simp [State.endStep, State.abortsStep, hrun, reset, abort]
  obtain ⟨d, a, words, inputs, level⟩ := cutShort_cases s t
  exact ⟨s.cutShort t, cut, d, a, words, turnsOf_quiet s t, inputs, level⟩

end Sys2Proof.Machine
end

section
/-! PROOFS. Reset and runs (70_reset_and_hazards.md): the reset sequence with its vectors in plain storage (R270), the
reset that comes first at a boundary (R229), and how a run ends (R284). -/

namespace Sys2Proof.Machine

/-! ### The reset sequence -/

/-- The vectors are read in supervisor mode (R270). -/
theorem beginReset_super (s : State) : s.beginReset.super = true := by
  simp [State.super, State.beginReset]

/-- What memory holds is a matter of memory and of the physical address space alone (R54, R58). -/
theorem valueAt_congr {s t : State} (hm : t.mem = s.mem) (ha : t.addrBits = s.addrBits) (a : Addr) (sz : Size) :
    t.valueAt a sz = s.valueAt a sz := by
  simp only [State.valueAt, byteAt_congr hm ha]

/-- A long in plain storage, read as supervisor program: the value is that of the state the reset found (R51, R270). -/
theorem memRead_vector (s t : State) (mem : t.mem = s.mem) (bits : t.addrBits = s.addrBits)
    (map : t.memMap = s.memMap) (mode : t.super = true) (bus : t.busWrites = []) {a : Addr} (even : a.getLsbD 0 = false)
    (plain : s.enterSupervisor.readsPlain a 4 .prog) : t.memRead a .long .prog = .ok (s.valueAt a .long) t := by
  have sameMap := mapAt_congr (s := s.enterSupervisor) map bits (mode.trans s.enterSupervisor_super.symm)
  rw [memRead_plain t a .long .prog bus (.inr even) fun k hk => by rw [sameMap]; exact plain k hk,
    valueAt_congr mem bits]

/-- With both vectors in plain storage and no other bus master the reset sequence ends with what they hold (R270). -/
theorem resetSequence_plain {s : State} (bus : s.busWrites = [])
    (plain : s.enterSupervisor.readsPlain 0#32 8 .prog) :
    s.resetSequence = { s.beginReset with ssp := s.valueAt 0#32 .long, pc := s.valueAt 4#32 .long } := by
  have mode := beginReset_super s
  have upper := readsPlain_part 4 4 (by decide) plain
  rw [BitVec.zero_add] at upper
  have first : s.beginReset.memRead 0#32 .long .prog = .ok (s.valueAt 0#32 .long) s.beginReset :=
    memRead_vector s s.beginReset rfl rfl rfl mode bus rfl fun k hk => plain k (hk.trans (by decide))
  have second (ssp : Long) : { s.beginReset with ssp := ssp : State }.memRead 4#32 .long .prog
      = .ok (s.valueAt 4#32 .long) { s.beginReset with ssp := ssp } :=
    memRead_vector s { s.beginReset with ssp := ssp } rfl rfl rfl mode bus rfl upper
  simp only [State.resetSequence, first, second]

/-- A reset at the boundary of a Stopped processor comes first (R229, R240). -/
theorem step_of_reset_stopped {s : State} (run : s.run = .stopped) (reset : s.sample.reset = true) :
    step s = .next s.afterSample.resetSequence := by
  have sampled : s.inputs.isEmpty = false := List.isEmpty_eq_false_iff.2 fun empty => by
    rw [State.sample, empty] at reset
    cases reset
  simp [step_eq_endStep, endStep_reset _ _ reset, State.wholeStep, State.beginStep, run, State.beginStopped, sampled,
    reset]

/-- Settles O40: the vectors are read as they stand, and a processor running or stopped takes the reset first. -/
theorem resetSequenceLoadsVectors : Obligations.ResetSequenceLoadsVectors := by
  refine ⟨fun s bus plain => ?_, fun s alive reset => ?_⟩
  · have loaded := resetSequence_plain bus plain
    obtain ⟨-, -, -, system, -⟩ := resetSequence_changes s
    rw [loaded] at system
    exact ⟨s.beginReset.sr, s.beginReset.draws, system, loaded⟩
  · cases run : s.run with
    | running => exact step_of_reset run reset
    | halted => exact absurd run alive
    | stopped => exact step_of_reset_stopped run reset

/-! ### Runs -/

theorem final_iff {endPc : Addr} {s : State} :
    s.final endPc = true ↔ s.run = .running ∧ s.pc = endPc ∧ s.tracePending = false := by
  simp [State.final, and_assoc]

/-- A run in a Halted state is stuck at once (R232, R284). -/
theorem runUntil_of_halted {endPc : Addr} {s : State} (n : Nat) (h : s.run = .halted) :
    runUntil endPc n s = .stuck .halted := by
  cases n <;> exact if_pos h

/-- A run in a final state is over at once (R284). -/
theorem runUntil_of_final {endPc : Addr} {s : State} (n : Nat) (h : s.final endPc = true) :
    runUntil endPc n s = .final s := by
  obtain ⟨running, -⟩ := final_iff.1 h
  have alive : s.run ≠ .halted := by simp [running]
  cases n <;> exact (if_neg alive).trans (if_pos h)

section
variable {endPc : Addr} {s : State}

/-- A run that is not over, with no step allowed, is under way (R284). -/
theorem runUntil_zero (alive : s.run ≠ .halted) (under : s.final endPc = false) : runUntil endPc 0 s = .going s := by
  simp [runUntil, alive, under]

/-- A run that is not over goes on from the state that its step answers (R284). -/
theorem runUntil_of_next {t : State} (n : Nat) (alive : s.run ≠ .halted) (under : s.final endPc = false)
    (h : step s = .next t) : runUntil endPc (n + 1) s = runUntil endPc n t := by
  simp [runUntil, alive, under, h]

theorem runUntil_of_fault {f : Fault} (n : Nat) (alive : s.run ≠ .halted) (under : s.final endPc = false)
    (h : step s = .fault f) : runUntil endPc (n + 1) s = .stuck f := by
  simp [runUntil, alive, under, h]

theorem runUntil_of_refused {r : Refusal} (n : Nat) (alive : s.run ≠ .halted) (under : s.final endPc = false)
    (h : step s = .refused r) : runUntil endPc (n + 1) s = .refused r := by
  simp [runUntil, alive, under, h]

end

/-- Before each step a run is stuck, or over, or goes on (R284). -/
theorem halted_or_final_or_going (endPc : Addr) (s : State) :
    s.run = .halted ∨ s.final endPc = true ∨ (s.run ≠ .halted ∧ s.final endPc = false) := by
  by_cases halted : s.run = .halted
  · exact .inl halted
  · cases under : s.final endPc with
    | true => exact .inr (.inl rfl)
    | false => exact .inr (.inr ⟨halted, rfl⟩)

/-- The state a run ends in is a final one (R284). -/
theorem final_of_runUntil {endPc : Addr} {n : Nat} {s t : State} (h : runUntil endPc n s = .final t) :
    t.final endPc = true := by
  induction n generalizing s with
  | zero =>
    obtain halted | atEnd | ⟨alive, under⟩ := halted_or_final_or_going endPc s
    · rw [runUntil_of_halted 0 halted] at h
      cases h
    · rw [runUntil_of_final 0 atEnd] at h
      cases h
      exact atEnd
    · rw [runUntil_zero alive under] at h
      cases h
  | succ n ih =>
    obtain halted | atEnd | ⟨alive, under⟩ := halted_or_final_or_going endPc s
    · rw [runUntil_of_halted (n + 1) halted] at h
      cases h
    · rw [runUntil_of_final (n + 1) atEnd] at h
      cases h
      exact atEnd
    · cases taken : step s with
      | next u => exact ih ((runUntil_of_next n alive under taken).symm.trans h)
      | fault f =>
        rw [runUntil_of_fault n alive under taken] at h
        cases h
      | refused r =>
        rw [runUntil_of_refused n alive under taken] at h
        cases h

/-- A run that is no longer under way ends the same way with more steps allowed (R284). -/
theorem runUntil_add {endPc : Addr} {n : Nat} {s : State} {e : RunEnd} (m : Nat) (h : runUntil endPc n s = e)
    (ended : ∀ u, e ≠ .going u) : runUntil endPc (n + m) s = e := by
  subst h
  induction n generalizing s with
  | zero =>
    obtain halted | atEnd | ⟨alive, under⟩ := halted_or_final_or_going endPc s
    · rw [runUntil_of_halted _ halted, runUntil_of_halted 0 halted]
    · rw [runUntil_of_final _ atEnd, runUntil_of_final 0 atEnd]
    · exact absurd (runUntil_zero alive under) (ended s)
  | succ n ih =>
    rw [Nat.succ_add]
    obtain halted | atEnd | ⟨alive, under⟩ := halted_or_final_or_going endPc s
    · rw [runUntil_of_halted _ halted, runUntil_of_halted _ halted]
    · rw [runUntil_of_final _ atEnd, runUntil_of_final _ atEnd]
    · cases taken : step s with
      | next u =>
        have first (k : Nat) := runUntil_of_next k alive under taken
        rw [first n] at ended ⊢
        rw [first (n + m)]
        exact ih ended
      | fault f => rw [runUntil_of_fault _ alive under taken, runUntil_of_fault _ alive under taken]
      | refused r => rw [runUntil_of_refused _ alive under taken, runUntil_of_refused _ alive under taken]

/-- Settles O60: a run ends only in a final state, at a Halted one, or by its last step, and then stays as it is. -/
theorem runEndsAtEndPc : Obligations.RunEndsAtEndPc := by
  intro endPc n m s t
  refine ⟨runUntil_of_final n, fun h => ⟨?_, runUntil_add m h nofun⟩, runUntil_of_halted n,
    fun alive under taken halted => ?_, fun r => runUntil_of_refused n, fun f h => runUntil_add m h nofun,
    fun r h => runUntil_add m h nofun⟩
  · obtain ⟨-, place, -⟩ := final_iff.1 (final_of_runUntil h)
    exact place
  · rw [runUntil_of_next n alive under taken, runUntil_of_halted n halted]

end Sys2Proof.Machine
end
